-- ==== Sys2Proof/Word.lean ====
section
/-! DEFINITION. The widths of the bus (R9) and the byte streams of the persistence operations (R50). Everything a test could show
wrong about bit fields and byte order stands in Decode.lean and under Machine/. -/

namespace Sys2Proof

/-- A bus data value, 8 bits (R9). -/
abbrev Byte := BitVec 8

/-- A bus address, 16 bits (R9). -/
abbrev Addr := BitVec 16

/-- A SaveStore stream: a finite sequence of bytes, consumed from the front, appended at the end (R50). -/
abbrev Stream := List Byte

/-- The identity of a RAM-changed observer, "a zero-argument notification handle" (R41, R314). -/
abbrev Handle := Nat

end Sys2Proof
end

