-- ==== Sys2Proof/Config.lean ====
section
/-! DEFINITION. The configuration record Cfg of R8, fixed for the life of a mapper instance. It holds no free value: the spec leaves no
result of an operation undefined. Each open parameter of the spec (D10, D11) is a field, so a statement holds for every choice of it. -/

namespace Sys2Proof

/-- The two controller families of R1, R3. -/
inductive Variant where
  | mbc1
  | mbc2
  deriving DecidableEq, Repr

/-- `stateByteOrder` of R174. -/
inductive ByteOrder where
  | little
  | big
  deriving DecidableEq, Repr

/-- The fields of a full-state record (R172 lists the eight of MBC1, R173 the four of MBC2). -/
inductive RecordField where
  | bankingMode
  | currentRamBankIndex
  | currentRomBankIndex
  | ramEnabled
  | higherRomBankBits
  | ramBuffer
  | currentRomByteOffset
  | currentRamByteOffset
  deriving DecidableEq, Repr

/-- R8. `rom` is the image as sparse bytes: an offset below `romLen` that is not listed holds 0x00 (log 26). -/
structure Cfg where
  variant : Variant
  rom : List Host.Cell
  romLen : Nat
  romBankCount : Nat
  ramBankCount : Nat
  ramSizeClass : Nat
  /-- Bytes of an `INT` (R174, D10). -/
  intBytes : Nat := 4
  /-- Bytes of a `BOOL` (R174, D10). -/
  boolBytes : Nat := 1
  /-- Byte order of the scalars (R174, D10). -/
  stateByteOrder : ByteOrder := .little
  /-- The order of the fields of the MBC2 record, or none (R173, D11; log 13). -/
  mbc2StateLayout : Option (List RecordField) := none
  deriving DecidableEq, Repr

end Sys2Proof
end

