-- ==== Sys2Proof/Syntax.lean ====
section
/-! DEFINITION. The operations: one constructor per row of spec/opcode_table.json. A bus operation carries its address and, for a
write, its data byte (R121). A host operation carries the operands that R123 passes beside the word. -/

namespace Sys2Proof

/-- The 38 operations (R123, R126, R127). -/
inductive Instr where
  -- MBC1 (R126)
  | mbc1RdRom0 (a : Addr)
  | mbc1RdRomx (a : Addr)
  | mbc1RdExt8000 (a : Addr)
  | mbc1RdRam (a : Addr)
  | mbc1RdExtC000 (a : Addr)
  | mbc1WrRamen (a : Addr) (v : Byte)
  | mbc1WrRamenAlias (a : Addr) (v : Byte)
  | mbc1WrRomlo (a : Addr) (v : Byte)
  | mbc1WrBankhi (a : Addr) (v : Byte)
  | mbc1WrMode (a : Addr) (v : Byte)
  | mbc1WrExt8000 (a : Addr) (v : Byte)
  | mbc1WrRam (a : Addr) (v : Byte)
  | mbc1WrExtC000 (a : Addr) (v : Byte)
  -- MBC2 (R127)
  | mbc2RdRom0 (a : Addr)
  | mbc2RdRomx (a : Addr)
  | mbc2RdExt8000 (a : Addr)
  | mbc2RdRam (a : Addr)
  | mbc2RdRamNa (a : Addr)
  | mbc2RdExtC000 (a : Addr)
  | mbc2WrRamen (a : Addr) (v : Byte)
  | mbc2WrRamenAlias (a : Addr) (v : Byte)
  | mbc2WrRomsel (a : Addr) (v : Byte)
  | mbc2WrRomselAlias (a : Addr) (v : Byte)
  | mbc2WrRomRej (a : Addr) (v : Byte)
  | mbc2WrExt8000 (a : Addr) (v : Byte)
  | mbc2WrRam (a : Addr) (v : Byte)
  | mbc2WrRamNa (a : Addr) (v : Byte)
  | mbc2WrExtC000 (a : Addr) (v : Byte)
  -- HOST (R123)
  | reset (isColorMode : Bool)
  | saveBattery (sink : Stream)
  | loadBattery (source : Stream) (knownLength : Nat)
  | saveState (sink : Stream)
  | loadState (source : Stream)
  | setCallback (observer : Option Handle)
  | viewBank0
  | viewRomx
  | viewRamx
  | viewRamAll
  deriving DecidableEq, Repr

/-- What is passed beside a HOST word (R122, R123). An operation takes the operands its row names and no other. -/
structure HostOperands where
  isColorMode : Bool := false
  /-- The sink or the source. -/
  stream : Stream := []
  knownLength : Nat := 0
  observer : Option Handle := none
  deriving DecidableEq, Repr

/-- The pseudo-operations of R133; Decode.lean expands them. -/
inductive PseudoOp where
  | ramOn
  | ramOff
  | mbc1Bank (n : BitVec 7)
  | mbc1RamBank (k : Byte)
  | mbc2Bank (n : Byte)
  deriving DecidableEq, Repr

end Sys2Proof
end

