-- ==== Sys2Proof/WellFormed.lean ====
section
/-! DEFINITION. Which terms are operations at all: the configuration check of R10 and, per row of R126 and R127, the variant and the
address window. An ill-formed term has no word (Laws and obligations: decoding gives only well-formed terms). -/

namespace Sys2Proof

/-- R10 (a)–(c); (d) is the type of `romLen`. For MBC2, `ramBankCount` and `ramSizeClass` are not looked at (D29). -/
def Cfg.wf (c : Cfg) : Bool :=
  (c.romBankCount == 2 ^ c.romBankCount.log2) &&
    (match c.variant with
     | .mbc1 =>
       (c.ramBankCount == 0 || c.ramBankCount == 1 || c.ramBankCount == 2 || c.ramBankCount == 4) &&
         (c.ramSizeClass != 3 || decide (1 ≤ c.ramBankCount))
     | .mbc2 => true)

/-- `a` lies in `lo .. hi`, both included (R11). -/
def Addr.within (lo hi : Nat) (a : Addr) : Bool := decide (lo ≤ a.toNat) && decide (a.toNat ≤ hi)

/-- The operation exists in variant `v` and its address lies in its row's window with its row's `a[8]` (R126, R127). Host operations
belong to both variants (R123). -/
def Instr.wf (v : Variant) : Instr → Bool
  | .mbc1RdRom0 a => v == .mbc1 && a.within 0x0000 0x3FFF
  | .mbc1RdRomx a => v == .mbc1 && a.within 0x4000 0x7FFF
  | .mbc1RdExt8000 a => v == .mbc1 && a.within 0x8000 0x9FFF
  | .mbc1RdRam a => v == .mbc1 && a.within 0xA000 0xBFFF
  | .mbc1RdExtC000 a => v == .mbc1 && a.within 0xC000 0xFFFF
  | .mbc1WrRamen a _ => v == .mbc1 && a.within 0x0000 0x1FFF && !a.getLsbD 8
  | .mbc1WrRamenAlias a _ => v == .mbc1 && a.within 0x0000 0x1FFF && a.getLsbD 8
  | .mbc1WrRomlo a _ => v == .mbc1 && a.within 0x2000 0x3FFF
  | .mbc1WrBankhi a _ => v == .mbc1 && a.within 0x4000 0x5FFF
  | .mbc1WrMode a _ => v == .mbc1 && a.within 0x6000 0x7FFF
  | .mbc1WrExt8000 a _ => v == .mbc1 && a.within 0x8000 0x9FFF
  | .mbc1WrRam a _ => v == .mbc1 && a.within 0xA000 0xBFFF
  | .mbc1WrExtC000 a _ => v == .mbc1 && a.within 0xC000 0xFFFF
  | .mbc2RdRom0 a => v == .mbc2 && a.within 0x0000 0x3FFF
  | .mbc2RdRomx a => v == .mbc2 && a.within 0x4000 0x7FFF
  | .mbc2RdExt8000 a => v == .mbc2 && a.within 0x8000 0x9FFF
  | .mbc2RdRam a => v == .mbc2 && a.within 0xA000 0xA1FF
  | .mbc2RdRamNa a => v == .mbc2 && a.within 0xA200 0xBFFF
  | .mbc2RdExtC000 a => v == .mbc2 && a.within 0xC000 0xFFFF
  | .mbc2WrRamen a _ => v == .mbc2 && a.within 0x0000 0x1FFF && !a.getLsbD 8
  | .mbc2WrRamenAlias a _ => v == .mbc2 && a.within 0x0000 0x1FFF && a.getLsbD 8
  | .mbc2WrRomsel a _ => v == .mbc2 && a.within 0x2000 0x3FFF && a.getLsbD 8
  | .mbc2WrRomselAlias a _ => v == .mbc2 && a.within 0x2000 0x3FFF && !a.getLsbD 8
  | .mbc2WrRomRej a _ => v == .mbc2 && a.within 0x4000 0x7FFF
  | .mbc2WrExt8000 a _ => v == .mbc2 && a.within 0x8000 0x9FFF
  | .mbc2WrRam a _ => v == .mbc2 && a.within 0xA000 0xA1FF
  | .mbc2WrRamNa a _ => v == .mbc2 && a.within 0xA200 0xBFFF
  | .mbc2WrExtC000 a _ => v == .mbc2 && a.within 0xC000 0xFFFF
  | .reset _ | .saveBattery _ | .loadBattery _ _ | .saveState _ | .loadState _ | .setCallback _ => true
  | .viewBank0 | .viewRomx | .viewRamx | .viewRamAll => true

end Sys2Proof
end

