-- ==== Sys2Proof/Decode.lean ====
section
/-! DEFINITION. Decoding (R120–R129), the encoder, the opcode table's own decode procedure (R124, R134) and the pseudo-operations (R133). -/

namespace Sys2Proof

/-- R11: `x[hi:lo]`, zero-extended, as an unsigned number. -/
def bits (hi lo x : Nat) : Nat := x / 2 ^ lo % 2 ^ (hi + 1 - lo)

/-- Why a word fits no row: the four kinds of R125. -/
inductive DecodeError where
  /-- A bit above 25 is set. -/
  | bitAbove25
  /-- A BUS read word with `D != 0`. -/
  | readWithData
  /-- A HOST word with a reserved bit set. -/
  | reservedBits
  /-- A HOST word with a reserved `OP`. -/
  | reservedOp
  deriving DecidableEq, Repr

/-- R126, R127: the row of a bus read, by `a[15:13]` and, in the MBC2 RAM region, by `a[15:9]` first (priority 1). -/
def decodeRead (v : Variant) (a : Addr) : Instr :=
  match v with
  | .mbc1 =>
    if bits 15 14 a.toNat = 0b00 then .mbc1RdRom0 a
    else if bits 15 14 a.toNat = 0b01 then .mbc1RdRomx a
    else if bits 15 13 a.toNat = 0b100 then .mbc1RdExt8000 a
    else if bits 15 13 a.toNat = 0b101 then .mbc1RdRam a
    else .mbc1RdExtC000 a
  | .mbc2 =>
    if bits 15 14 a.toNat = 0b00 then .mbc2RdRom0 a
    else if bits 15 14 a.toNat = 0b01 then .mbc2RdRomx a
    else if bits 15 13 a.toNat = 0b100 then .mbc2RdExt8000 a
    else if bits 15 9 a.toNat = 0b1010000 then .mbc2RdRam a
    else if bits 15 13 a.toNat = 0b101 then .mbc2RdRamNa a
    else .mbc2RdExtC000 a

/-- R126, R127: the row of a bus write. -/
def decodeWrite (v : Variant) (a : Addr) (d : Byte) : Instr :=
  match v with
  | .mbc1 =>
    if bits 15 13 a.toNat = 0b000 then
      if bits 8 8 a.toNat = 0 then .mbc1WrRamen a d else .mbc1WrRamenAlias a d
    else if bits 15 13 a.toNat = 0b001 then .mbc1WrRomlo a d
    else if bits 15 13 a.toNat = 0b010 then .mbc1WrBankhi a d
    else if bits 15 13 a.toNat = 0b011 then .mbc1WrMode a d
    else if bits 15 13 a.toNat = 0b100 then .mbc1WrExt8000 a d
    else if bits 15 13 a.toNat = 0b101 then .mbc1WrRam a d
    else .mbc1WrExtC000 a d
  | .mbc2 =>
    if bits 15 13 a.toNat = 0b000 then
      if bits 8 8 a.toNat = 0 then .mbc2WrRamen a d else .mbc2WrRamenAlias a d
    else if bits 15 13 a.toNat = 0b001 then
      if bits 8 8 a.toNat = 1 then .mbc2WrRomsel a d else .mbc2WrRomselAlias a d
    else if bits 15 14 a.toNat = 0b01 then .mbc2WrRomRej a d
    else if bits 15 13 a.toNat = 0b100 then .mbc2WrExt8000 a d
    else if bits 15 9 a.toNat = 0b1010000 then .mbc2WrRam a d
    else if bits 15 13 a.toNat = 0b101 then .mbc2WrRamNa a d
    else .mbc2WrExtC000 a d

/-- R122, R123: a HOST word, with the operands that stand beside it. -/
def decodeHost (t : Nat) (o : HostOperands) : Except DecodeError Instr :=
  if bits 24 8 t ≠ 0 then .error .reservedBits
  else if bits 7 0 t = 0x01 then .ok (.reset o.isColorMode)
  else if bits 7 0 t = 0x02 then .ok (.saveBattery o.stream)
  else if bits 7 0 t = 0x03 then .ok (.loadBattery o.stream o.knownLength)
  else if bits 7 0 t = 0x04 then .ok (.saveState o.stream)
  else if bits 7 0 t = 0x05 then .ok (.loadState o.stream)
  else if bits 7 0 t = 0x06 then .ok (.setCallback o.observer)
  else if bits 7 0 t = 0x07 then .ok .viewBank0
  else if bits 7 0 t = 0x08 then .ok .viewRomx
  else if bits 7 0 t = 0x09 then .ok .viewRamx
  else if bits 7 0 t = 0x0A then .ok .viewRamAll
  else .error .reservedOp

/-- R120, R121, R124, R125: the operation of a word under a variant, or why the word is refused. -/
def decode (v : Variant) (t : Nat) (o : HostOperands) : Except DecodeError Instr :=
  if 0x4000000 ≤ t then .error .bitAbove25
  else if bits 25 25 t = 1 then decodeHost t o
  else if bits 24 24 t = 1 then .ok (decodeWrite v (BitVec.ofNat 16 (bits 23 8 t)) (BitVec.ofNat 8 (bits 7 0 t)))
  else if bits 7 0 t ≠ 0 then .error .readWithData
  else .ok (decodeRead v (BitVec.ofNat 16 (bits 23 8 t)))

/-- R121: the word of `read(a)`. -/
def readWord (a : Addr) : Nat := a.toNat <<< 8

/-- R121: the word of `write(a, v)`, `T = (W << 24) | (a << 8) | D`. -/
def writeWord (a : Addr) (v : Byte) : Nat := 1 <<< 24 ||| a.toNat <<< 8 ||| v.toNat

/-- R122: the word of the host operation with code `op`. -/
def hostWord (op : Nat) : Nat := 1 <<< 25 ||| op

/-- The word of an operation (R121–R123). -/
def encode : Instr → Nat
  | .mbc1RdRom0 a => readWord a
  | .mbc1RdRomx a => readWord a
  | .mbc1RdExt8000 a => readWord a
  | .mbc1RdRam a => readWord a
  | .mbc1RdExtC000 a => readWord a
  | .mbc2RdRom0 a => readWord a
  | .mbc2RdRomx a => readWord a
  | .mbc2RdExt8000 a => readWord a
  | .mbc2RdRam a => readWord a
  | .mbc2RdRamNa a => readWord a
  | .mbc2RdExtC000 a => readWord a
  | .mbc1WrRamen a v => writeWord a v
  | .mbc1WrRamenAlias a v => writeWord a v
  | .mbc1WrRomlo a v => writeWord a v
  | .mbc1WrBankhi a v => writeWord a v
  | .mbc1WrMode a v => writeWord a v
  | .mbc1WrExt8000 a v => writeWord a v
  | .mbc1WrRam a v => writeWord a v
  | .mbc1WrExtC000 a v => writeWord a v
  | .mbc2WrRamen a v => writeWord a v
  | .mbc2WrRamenAlias a v => writeWord a v
  | .mbc2WrRomsel a v => writeWord a v
  | .mbc2WrRomselAlias a v => writeWord a v
  | .mbc2WrRomRej a v => writeWord a v
  | .mbc2WrExt8000 a v => writeWord a v
  | .mbc2WrRam a v => writeWord a v
  | .mbc2WrRamNa a v => writeWord a v
  | .mbc2WrExtC000 a v => writeWord a v
  | .reset _ => hostWord 0x01
  | .saveBattery _ => hostWord 0x02
  | .loadBattery _ _ => hostWord 0x03
  | .saveState _ => hostWord 0x04
  | .loadState _ => hostWord 0x05
  | .setCallback _ => hostWord 0x06
  | .viewBank0 => hostWord 0x07
  | .viewRomx => hostWord 0x08
  | .viewRamx => hostWord 0x09
  | .viewRamAll => hostWord 0x0A

/-- The operands that stand beside an operation's word (R122, R123). -/
def encodeOperands : Instr → HostOperands
  | .reset b => { isColorMode := b }
  | .saveBattery s | .saveState s | .loadState s => { stream := s }
  | .loadBattery s n => { stream := s, knownLength := n }
  | .setCallback h => { observer := h }
  | .mbc1RdRom0 _ | .mbc1RdRomx _ | .mbc1RdExt8000 _ | .mbc1RdRam _ | .mbc1RdExtC000 _
  | .mbc2RdRom0 _ | .mbc2RdRomx _ | .mbc2RdExt8000 _ | .mbc2RdRam _ | .mbc2RdRamNa _
  | .mbc2RdExtC000 _
  | .mbc1WrRamen _ _ | .mbc1WrRamenAlias _ _ | .mbc1WrRomlo _ _ | .mbc1WrBankhi _ _
  | .mbc1WrMode _ _ | .mbc1WrExt8000 _ _ | .mbc1WrRam _ _ | .mbc1WrExtC000 _ _
  | .mbc2WrRamen _ _ | .mbc2WrRamenAlias _ _ | .mbc2WrRomsel _ _ | .mbc2WrRomselAlias _ _
  | .mbc2WrRomRej _ _ | .mbc2WrExt8000 _ _ | .mbc2WrRam _ _ | .mbc2WrRamNa _ _
  | .mbc2WrExtC000 _ _
  | .viewBank0 | .viewRomx | .viewRamx | .viewRamAll => {}

/-- One row of spec/opcode_table.json: variant `none` is `ANY` (R134). -/
structure Row where
  mnemonic : String
  variant : Option Variant
  mask : Nat
  pattern : Nat
  priority : Nat
  deriving DecidableEq, Repr

/-- The MBC1 rows of the opcode table (R126, R134). -/
def mbc1Rows : List Row :=
  [⟨"MBC1.RD_ROM0", some .mbc1, 0x3C000FF, 0x0000000, 1⟩,
   ⟨"MBC1.RD_ROMX", some .mbc1, 0x3C000FF, 0x0400000, 1⟩,
   ⟨"MBC1.RD_EXT_8000", some .mbc1, 0x3E000FF, 0x0800000, 1⟩,
   ⟨"MBC1.RD_RAM", some .mbc1, 0x3E000FF, 0x0A00000, 1⟩,
   ⟨"MBC1.RD_EXT_C000", some .mbc1, 0x3C000FF, 0x0C00000, 1⟩,
   ⟨"MBC1.WR_RAMEN", some .mbc1, 0x3E10000, 0x1000000, 1⟩,
   ⟨"MBC1.WR_RAMEN_ALIAS", some .mbc1, 0x3E10000, 0x1010000, 1⟩,
   ⟨"MBC1.WR_ROMLO", some .mbc1, 0x3E00000, 0x1200000, 1⟩,
   ⟨"MBC1.WR_BANKHI", some .mbc1, 0x3E00000, 0x1400000, 1⟩,
   ⟨"MBC1.WR_MODE", some .mbc1, 0x3E00000, 0x1600000, 1⟩,
   ⟨"MBC1.WR_EXT_8000", some .mbc1, 0x3E00000, 0x1800000, 1⟩,
   ⟨"MBC1.WR_RAM", some .mbc1, 0x3E00000, 0x1A00000, 1⟩,
   ⟨"MBC1.WR_EXT_C000", some .mbc1, 0x3C00000, 0x1C00000, 1⟩]

/-- The MBC2 rows of the opcode table (R127, R134). -/
def mbc2Rows : List Row :=
  [⟨"MBC2.RD_ROM0", some .mbc2, 0x3C000FF, 0x0000000, 1⟩,
   ⟨"MBC2.RD_ROMX", some .mbc2, 0x3C000FF, 0x0400000, 1⟩,
   ⟨"MBC2.RD_EXT_8000", some .mbc2, 0x3E000FF, 0x0800000, 1⟩,
   ⟨"MBC2.RD_RAM", some .mbc2, 0x3FE00FF, 0x0A00000, 1⟩,
   ⟨"MBC2.RD_RAM_NA", some .mbc2, 0x3E000FF, 0x0A00000, 2⟩,
   ⟨"MBC2.RD_EXT_C000", some .mbc2, 0x3C000FF, 0x0C00000, 1⟩,
   ⟨"MBC2.WR_RAMEN", some .mbc2, 0x3E10000, 0x1000000, 1⟩,
   ⟨"MBC2.WR_RAMEN_ALIAS", some .mbc2, 0x3E10000, 0x1010000, 1⟩,
   ⟨"MBC2.WR_ROMSEL", some .mbc2, 0x3E10000, 0x1210000, 1⟩,
   ⟨"MBC2.WR_ROMSEL_ALIAS", some .mbc2, 0x3E10000, 0x1200000, 1⟩,
   ⟨"MBC2.WR_ROM_REJ", some .mbc2, 0x3C00000, 0x1400000, 1⟩,
   ⟨"MBC2.WR_EXT_8000", some .mbc2, 0x3E00000, 0x1800000, 1⟩,
   ⟨"MBC2.WR_RAM", some .mbc2, 0x3FE0000, 0x1A00000, 1⟩,
   ⟨"MBC2.WR_RAM_NA", some .mbc2, 0x3E00000, 0x1A00000, 2⟩,
   ⟨"MBC2.WR_EXT_C000", some .mbc2, 0x3C00000, 0x1C00000, 1⟩]

/-- The HOST rows of the opcode table (R123, R134). -/
def hostRows : List Row :=
  [⟨"RESET", none, 0x3FFFFFF, 0x2000001, 1⟩,
   ⟨"SAVE_BATTERY", none, 0x3FFFFFF, 0x2000002, 1⟩,
   ⟨"LOAD_BATTERY", none, 0x3FFFFFF, 0x2000003, 1⟩,
   ⟨"SAVE_STATE", none, 0x3FFFFFF, 0x2000004, 1⟩,
   ⟨"LOAD_STATE", none, 0x3FFFFFF, 0x2000005, 1⟩,
   ⟨"SET_CALLBACK", none, 0x3FFFFFF, 0x2000006, 1⟩,
   ⟨"VIEW_BANK0", none, 0x3FFFFFF, 0x2000007, 1⟩,
   ⟨"VIEW_ROMX", none, 0x3FFFFFF, 0x2000008, 1⟩,
   ⟨"VIEW_RAMX", none, 0x3FFFFFF, 0x2000009, 1⟩,
   ⟨"VIEW_RAM_ALL", none, 0x3FFFFFF, 0x200000A, 1⟩]

/-- spec/opcode_table.json, all 38 rows. -/
def opcodeTable : List Row := mbc1Rows ++ (mbc2Rows ++ hostRows)

/-- R124: the row belongs to the variant (or to both) and `(T & mask) == match`. -/
def Row.fits (v : Variant) (t : Nat) (r : Row) : Bool :=
  (r.variant == none || r.variant == some v) && (t &&& r.mask) == r.pattern

/-- R124: of the rows that fit, the first with the lowest priority number. -/
def selectRow (v : Variant) (t : Nat) : Option Row :=
  match opcodeTable.find? (fun r => r.fits v t && r.priority == 1) with
  | some r => some r
  | none => opcodeTable.find? (fun r => r.fits v t)

/-- The mnemonic of an operation's row in spec/opcode_table.json. -/
def Instr.mnemonic : Instr → String
  | .mbc1RdRom0 _ => "MBC1.RD_ROM0"
  | .mbc1RdRomx _ => "MBC1.RD_ROMX"
  | .mbc1RdExt8000 _ => "MBC1.RD_EXT_8000"
  | .mbc1RdRam _ => "MBC1.RD_RAM"
  | .mbc1RdExtC000 _ => "MBC1.RD_EXT_C000"
  | .mbc1WrRamen _ _ => "MBC1.WR_RAMEN"
  | .mbc1WrRamenAlias _ _ => "MBC1.WR_RAMEN_ALIAS"
  | .mbc1WrRomlo _ _ => "MBC1.WR_ROMLO"
  | .mbc1WrBankhi _ _ => "MBC1.WR_BANKHI"
  | .mbc1WrMode _ _ => "MBC1.WR_MODE"
  | .mbc1WrExt8000 _ _ => "MBC1.WR_EXT_8000"
  | .mbc1WrRam _ _ => "MBC1.WR_RAM"
  | .mbc1WrExtC000 _ _ => "MBC1.WR_EXT_C000"
  | .mbc2RdRom0 _ => "MBC2.RD_ROM0"
  | .mbc2RdRomx _ => "MBC2.RD_ROMX"
  | .mbc2RdExt8000 _ => "MBC2.RD_EXT_8000"
  | .mbc2RdRam _ => "MBC2.RD_RAM"
  | .mbc2RdRamNa _ => "MBC2.RD_RAM_NA"
  | .mbc2RdExtC000 _ => "MBC2.RD_EXT_C000"
  | .mbc2WrRamen _ _ => "MBC2.WR_RAMEN"
  | .mbc2WrRamenAlias _ _ => "MBC2.WR_RAMEN_ALIAS"
  | .mbc2WrRomsel _ _ => "MBC2.WR_ROMSEL"
  | .mbc2WrRomselAlias _ _ => "MBC2.WR_ROMSEL_ALIAS"
  | .mbc2WrRomRej _ _ => "MBC2.WR_ROM_REJ"
  | .mbc2WrExt8000 _ _ => "MBC2.WR_EXT_8000"
  | .mbc2WrRam _ _ => "MBC2.WR_RAM"
  | .mbc2WrRamNa _ _ => "MBC2.WR_RAM_NA"
  | .mbc2WrExtC000 _ _ => "MBC2.WR_EXT_C000"
  | .reset _ => "RESET"
  | .saveBattery _ => "SAVE_BATTERY"
  | .loadBattery _ _ => "LOAD_BATTERY"
  | .saveState _ => "SAVE_STATE"
  | .loadState _ => "LOAD_STATE"
  | .setCallback _ => "SET_CALLBACK"
  | .viewBank0 => "VIEW_BANK0"
  | .viewRomx => "VIEW_ROMX"
  | .viewRamx => "VIEW_RAMX"
  | .viewRamAll => "VIEW_RAM_ALL"

/-- R133: the words a pseudo-operation stands for. -/
def PseudoOp.words : PseudoOp → List Nat
  | .ramOn => [writeWord 0x0000 0x0A]
  | .ramOff => [writeWord 0x0000 0x00]
  | .mbc1Bank n => [writeWord 0x4000 (BitVec.ofNat 8 (bits 6 5 n.toNat)), writeWord 0x2000 (BitVec.ofNat 8 (bits 4 0 n.toNat))]
  | .mbc1RamBank k => [writeWord 0x6000 0x01, writeWord 0x4000 k]
  | .mbc2Bank n => [writeWord 0x2100 n]

/-- The operands the host's probe of a table row passes beside the word (log 4): a handle, a length that matches configuration A of
the spec's test vectors, and a stream that is the state record of a freshly constructed mapper of that configuration (S16). -/
def tableOperands : HostOperands where
  isColorMode := false
  stream := [0, 0, 0, 0, 0, 0, 0, 0, 1, 0, 0, 0, 0, 0] ++ (List.replicate 0x8000 0xFF ++ [0, 0x40, 0, 0, 0, 0, 0, 0])
  knownLength := 0x8000
  observer := some 0

/-- The host's fixed interface to the decoder, for one word with bit 0 its least significant bit. A table word carries no variant, so it
is read under the variant of State.reset, MBC1 (log 5). -/
def decodeTableWord (nbits w : Nat) : Option Instr :=
  match decode .mbc1 (w % 2 ^ nbits) tableOperands with
  | .ok i => some i
  | .error _ => none

end Sys2Proof
end

