-- ==== Sys2Proof/Machine/State.lean ====
section
/-! DEFINITION. The machine's state as plain data: the configuration (R8), the mapper state `S` (R31, R32), the AddressSpace (R48), the
views handed out (R176–R180), the operations issued (R2) and what the last one produced (R13); the reasons a step can stop; reset. -/

namespace Sys2Proof.Machine

/-- Bytes by address or index, sparse: addresses strictly rising, no entry equal to what an unlisted address of its space reads as. -/
abbrev Memory := List Host.Cell

/-- The byte spaces behind the bus (R80). -/
inductive Space where
  | addressSpace
  | rom
  | ram
  deriving DecidableEq, Repr

/-- The mapper state `S` of R31 (MBC1) and R32 (MBC2). The fields marked MBC1 do not exist in an MBC2 mapper: no MBC2 rule reads or
writes them, and they stay 0 (log 24). The ranges are the invariants W1–W8 of R46. -/
structure Mapper where
  /-- R33. -/
  ramEnabled : Bool
  /-- R34. -/
  currentRomBankIndex : Nat
  /-- R35. -/
  currentRomByteOffset : Nat
  /-- R37, MBC1. -/
  bankingMode : Nat
  /-- R38, MBC1. -/
  currentRamBankIndex : Nat
  /-- R39, MBC1. -/
  currentRamByteOffset : Nat
  /-- R40, MBC1. -/
  higherRomBankBits : Nat
  /-- R36. -/
  ramBuffer : Memory
  /-- R41. -/
  ramChangedCallback : Option Handle
  deriving DecidableEq, Repr

/-- What a view looks into (R176–R179): the AddressSpace, the ROM image or `ramBuffer`. -/
structure View where
  space : Space
  base : Nat
  length : Nat
  readOnly : Bool
  deriving DecidableEq, Repr

/-- R166: one call of the registered observer. -/
inductive Event where
  | ramChanged (observer : Handle)
  deriving DecidableEq, Repr

/-- The seven kinds of diagnostic event of R168. -/
inductive Diagnostic where
  | disabledRamRead
  | disabledRamWrite
  | smallRamOutOfRange
  | modeOneRejected
  | nonAddressableRead
  | nonAddressableWrite
  | romRegionWriteRejected
  deriving DecidableEq, Repr

/-- The result of an operation (R12, R123). -/
inductive Result where
  /-- The operation returns nothing. -/
  | done
  /-- The byte a read returns. -/
  | byte (b : Byte)
  /-- `LOAD_BATTERY` returned Ok (R171). -/
  | ok
  /-- `LOAD_BATTERY` returned Mismatch(expected, found) (R171, R312). -/
  | mismatch (expected found : Nat)
  /-- A view accessor returned this view; `handle` names it in later accesses (log 17). -/
  | view (handle : Nat) (v : View)
  /-- `VIEW_RAMX` on a cartridge without RAM (R178). -/
  | noView
  deriving DecidableEq, Repr

/-- What one operation produces beside the next state (R13): its result, the operand stream after it (R50; log 3), the RamChanged events
(R166) and the diagnostic events (R168, optional: nothing reads them). -/
structure Output where
  result : Result := .done
  stream : Option Stream := none
  events : List Event := []
  diagnostics : List Diagnostic := []
  deriving DecidableEq, Repr

/-- What the outside asks of the block (R2): a word of the opcode table with the operands beside it, or one of the acts the spec
describes outside the table. -/
inductive Request where
  /-- A bus transaction or a host operation (R120–R123). -/
  | operation (word : Nat) (operands : HostOperands)
  /-- Read byte `k` of a view handed out earlier (R176–R180). -/
  | viewRead (handle k : Nat)
  /-- Write byte `k` of a view handed out earlier (R178–R180). -/
  | viewWrite (handle k : Nat) (v : Byte)
  /-- A power cycle of the emulated machine (R324). -/
  | powerCycle
  /-- Cartridge insertion: construction of a mapper (R340). -/
  | construct (cfg : Cfg)
  /-- Cartridge ejection: the mapper is destroyed (R343). -/
  | destroy
  /-- Two operations that overlap in time (R93, R321). -/
  | overlapping (first second : Nat)
  deriving DecidableEq, Repr

/-- The machine. -/
structure State where
  /-- R8, R49: fixed for the life of an instance. -/
  cfg : Cfg
  /-- R30, R343: an instance exists. -/
  live : Bool
  /-- `S` of R31, R32. -/
  mapper : Mapper
  /-- `AS` of R48. -/
  addressSpace : Memory
  /-- The views handed out that are still valid, oldest first (R180). -/
  liveViews : List View
  /-- How many views were handed out and have ended (R180); the next live view's handle is this number. -/
  viewsEnded : Nat
  /-- The operations issued and not yet served, oldest first (R2, R47; log 2). -/
  input : List Request
  /-- What the last served operation produced (R13; log 3). -/
  out : Output
  deriving DecidableEq, Repr

/-- Why the model stops with a fault (R315). -/
inductive Fault where
  /-- A ROM read at offset `o >= romLen` (R97): raised by MBC1.RD_ROMX, MBC2.RD_ROMX and a ROM view. Safe (D7). -/
  | romOutOfRange (o : Nat)
  /-- An access through a view that R180 has ended: raised by a view access. Safe (D17). -/
  | staleView
  /-- A RAM index outside `ramBuffer` (R12, W8): raised by MBC1.RD_RAM, MBC1.WR_RAM and a RAM view, only in states that break W6 or W7,
  which no run reaches (log 25). Safe. -/
  | ramOutOfRange (i : Nat)
  deriving DecidableEq, Repr

/-- Why the model gives an operation no meaning (R315). -/
inductive Refusal where
  /-- An operation of the table that has no meaning in the model yet: raised by exec's refused arms only. Safe. -/
  | notModelled (mnemonic : String)
  /-- A configuration that breaks R10: raised by every operation and by construction. Safe (D8). -/
  | illFormedConfig
  /-- A word that fits no row (R125): raised by the decoder. Exact: no real transaction is lost (D20). -/
  | illFormedWord (why : DecodeError)
  /-- A term of Instr that no word encodes (another variant's row, or an address outside the row's window): raised by exec, never by a
  step (log 27). Safe. -/
  | illFormedInstr
  /-- `SET_CALLBACK` without a handle (R167): raised by that operation. Safe (D15). -/
  | illFormedOperand
  /-- A load from a source with too few bytes (R171, R175): raised by LOAD_BATTERY and LOAD_STATE. Safe (D13). -/
  | shortStream
  /-- A state record that breaks R46 or holds no Bool (R175): raised by LOAD_STATE. Safe (D12). -/
  | invalidStateRecord
  /-- SAVE_STATE or LOAD_STATE on an MBC2 whose configuration gives no `mbc2StateLayout` (R173): raised by those two. Safe (D11). -/
  | unmodelled
  /-- Overlapping operations (R93, R321): raised by the request of that name. Safe (D22). -/
  | concurrentAccess
  /-- An operation after destruction (R343, "no operation is defined on the instance"): raised by every operation and by a power
  cycle and a destruction. Safe. -/
  | noInstance
  /-- Construction while an instance is live (R30, "exactly one"): raised by construction. Safe (log 18). -/
  | alreadyLive
  /-- An access through a view handle that was never handed out: raised by a view access. Safe (log 17). -/
  | noSuchView
  /-- A view access at a byte beyond the view's length (R176–R179): raised by a view access. Safe (log 17). -/
  | outsideView
  /-- A write through a read-only view (R176, R177): raised by a view access. Safe (log 17). -/
  | readOnlyView
  deriving DecidableEq, Repr

/-- The banking values RESET leaves (R341; the four MBC1 fields: D3, DESIGN CHOICE of the spec, log 6) and construction's buffer of 0xFF
and empty callback (R340, R36; D15, D23). -/
def Mapper.constructed : Mapper where
  ramEnabled := false
  currentRomBankIndex := 1
  currentRomByteOffset := 0x4000
  bankingMode := 0
  currentRamBankIndex := 0
  currentRamByteOffset := 0
  higherRomBankBits := 0
  ramBuffer := []
  ramChangedCallback := none

/-- The configuration of State.reset: configuration A of the spec's test vectors with an image of zero bytes (DESIGN CHOICE, log 1). -/
def resetCfg : Cfg where
  variant := .mbc1
  rom := []
  romLen := 0x200000
  romBankCount := 128
  ramBankCount := 4
  ramSizeClass := 3

/-- The machine right after construction (R340), with no operation issued. -/
def State.reset : State where
  cfg := resetCfg
  live := true
  mapper := Mapper.constructed
  addressSpace := []
  liveViews := []
  viewsEnded := 0
  input := []
  out := {}

end Sys2Proof.Machine
end

