-- ==== Sys2Proof/Machine/Operands.lean ====
section
/-! DEFINITION. Operand forms: the bits of the data value each operation uses and the window offsets of the address (R128), and the bank
arithmetic on them (R222, R225, R272, R84, R85). All arithmetic is on unsigned integers of unbounded width (R11). -/

namespace Sys2Proof.Machine

/-- R128: `v[3:0]`. -/
def lowNibble (v : Byte) : Nat := v.toNat &&& 0x0F

/-- R128: `v[4:0]`. -/
def lowFive (v : Byte) : Nat := v.toNat &&& 0x1F

/-- R128: `v[1:0]`. -/
def lowTwo (v : Byte) : Nat := v.toNat &&& 0x03

/-- R128, R226: `v[0]`, the requested banking mode (D4, DESIGN CHOICE of the spec, log 7). -/
def modeBit (v : Byte) : Nat := v.toNat &&& 0x01

/-- R128: `a - 0x4000`, the offset within the switchable ROM window. -/
def romWindowOffset (a : Addr) : Nat := a.toNat - 0x4000

/-- R128: `a - 0xA000`, the offset within the RAM window. -/
def ramWindowOffset (a : Addr) : Nat := a.toNat - 0xA000

/-- R222: `Mbc1RomIndex(low5, high2)`: combine, promote, then mask (90_conflicts.md C1, C8). -/
def mbc1RomIndex (c : Cfg) (low5 high2 : Nat) : Nat :=
  let x := low5 ||| high2 <<< 5
  (if x = 0x00 ∨ x = 0x20 ∨ x = 0x40 ∨ x = 0x60 then x + 1 else x) &&& (c.romBankCount - 1)

/-- R272: the MBC2 ROM index of a written value: promote 0 to 1, then mask. -/
def mbc2RomIndex (c : Cfg) (v : Byte) : Nat :=
  (if lowNibble v = 0 then 1 else lowNibble v) &&& (c.romBankCount - 1)

/-- R225, mode 1: the RAM bank of a written value. -/
def mbc1RamBank (c : Cfg) (v : Byte) : Nat := lowTwo v &&& (c.ramBankCount - 1)

/-- R222 `SetRom`, R35: the index and its byte offset are written together. -/
def Mapper.setRom (x : Nat) (m : Mapper) : Mapper :=
  { m with currentRomBankIndex := x, currentRomByteOffset := x * 0x4000 }

/-- R225, R39: the RAM bank and its byte offset are written together. -/
def Mapper.setRamBank (x : Nat) (m : Mapper) : Mapper :=
  { m with currentRamBankIndex := x, currentRamByteOffset := x * 0x2000 }

/-- R84: the MBC1 RAM index of a bus address. -/
def Mapper.mbc1RamIndex (m : Mapper) (a : Addr) : Nat :=
  if m.bankingMode = 0 then ramWindowOffset a else ramWindowOffset a + m.currentRamByteOffset

/-- R85: the MBC2 RAM index of a bus address. -/
def mbc2RamIndex (a : Addr) : Nat := ramWindowOffset a

/-- R83: the ROM offset of a read of 0x4000–0x7FFF. -/
def Mapper.romIndex (m : Mapper) (a : Addr) : Nat := romWindowOffset a + m.currentRomByteOffset

end Sys2Proof.Machine
end

