-- ==== Sys2Proof/Machine/Flags.lean ====
section
/-! DEFINITION. The flags of R45 (`ramEnabled`, `bankingMode`): the tests that set them, the falling edge of R166 and the diagnostics that
depend on them. The block has no condition codes. -/

namespace Sys2Proof.Machine

/-- R165: `(v & 0x0F) == 0x0A`. -/
def ramEnableTest (v : Byte) : Bool := lowNibble v == 0x0A

/-- R166: one event, to the registered observer, exactly when `ramEnabled` goes from true to false. -/
def ramChangedEvents (old new : Bool) (observer : Option Handle) : List Event :=
  match observer with
  | some h => if old && !new then [.ramChanged h] else []
  | none => []

/-- R226: a request for mode 1 is accepted only with size class 3; any other request is. -/
def modeAccepted (c : Cfg) (m : Nat) : Bool := !(m == 1 && c.ramSizeClass != 3)

/-- R168, R228, R229: the 2 KB diagnostic of mode 0. -/
def smallRamDiagnostic (c : Cfg) (m : Mapper) (a : Addr) : List Diagnostic :=
  if m.bankingMode = 0 ∧ c.ramSizeClass = 1 ∧ 0xA800 ≤ a.toNat then [.smallRamOutOfRange] else []

end Sys2Proof.Machine
end

