-- ==== Sys2Proof/Machine/Ops.lean ====
section
/-! DEFINITION. The named operations over memory, ROM, views and outputs that the meanings share. The block takes no exception and
returns from none (R310, R317), so there is no exception entry here. -/

namespace Sys2Proof.Machine

/-- The outcome of a step of this machine. -/
abbrev Outcome := Host.Outcome State Fault Refusal

/-! ## Memory -/

/-- What an unlisted address of a space reads as: construction's 0xFF fill for `ramBuffer` (R340, R36); for the AddressSpace and the ROM
image, whose contents are parameters, the byte 0x00 that the sparse form leaves out (log 11, log 26). -/
def Space.unlisted : Space → Byte
  | .addressSpace => 0x00
  | .rom => 0x00
  | .ram => 0xFF

/-- The byte at an address. -/
def Memory.read (sp : Space) : Memory → Nat → Byte
  | [], _ => sp.unlisted
  | (k, b) :: m, a => if k = a then b else Memory.read sp m a

/-- Sets the byte at an address, keeping the canonical form. -/
def Memory.write (sp : Space) : Memory → Nat → Byte → Memory
  | [], a, b => if b = sp.unlisted then [] else [(a, b)]
  | (k, c) :: m, a, b =>
    if k < a then (k, c) :: Memory.write sp m a b
    else (if b = sp.unlisted then [] else [(a, b)]) ++ (if k = a then m else (k, c) :: m)

/-- The `n` bytes from address `a` on, in rising order. -/
def Memory.bytes (sp : Space) (m : Memory) : Nat → Nat → List Byte
  | _, 0 => []
  | a, n + 1 => Memory.read sp m a :: Memory.bytes sp m (a + 1) n

/-- The memory that holds the bytes from address `a` on and nothing else. -/
def Memory.listed (sp : Space) : Nat → List Byte → Memory
  | _, [] => []
  | a, b :: bs => if b = sp.unlisted then Memory.listed sp (a + 1) bs else (a, b) :: Memory.listed sp (a + 1) bs

/-- Replaces the bytes at 0, 1, … by the given ones and leaves every later byte. -/
def Memory.storeFront (sp : Space) (m : Memory) (bs : List Byte) : Memory :=
  Memory.listed sp 0 bs ++ m.filter (fun c => decide (bs.length ≤ c.1))

/-- The canonical form from address `lo` on: addresses strictly rising and below `size`, no entry equal to the unlisted byte. -/
def Memory.wfFrom (sp : Space) (size : Nat) : Nat → Memory → Bool
  | _, [] => true
  | lo, (k, b) :: m => decide (lo ≤ k) && decide (k < size) && b != sp.unlisted && Memory.wfFrom sp size (k + 1) m

/-- The canonical form of a memory of `size` bytes. -/
def Memory.wf (sp : Space) (size : Nat) (m : Memory) : Bool := Memory.wfFrom sp size 0 m

/-- The size of `ramBuffer` (R31, R32, R36, W8). -/
def ramSize (c : Cfg) : Nat :=
  match c.variant with
  | .mbc1 => 0x8000
  | .mbc2 => 0x200

/-- The size of the AddressSpace (R48). -/
def addressSpaceSize : Nat := 0x10000

/-- R12 `RomRead(o)`: a byte of the image, or none at and beyond `romLen` (R97). -/
def romRead (c : Cfg) (o : Nat) : Option Byte :=
  if o < c.romLen then some (Memory.read .rom c.rom o) else none

/-- R12 `RamRead(i)`. -/
def Mapper.ramRead (m : Mapper) (i : Nat) : Byte := Memory.read .ram m.ramBuffer i

/-- R12 `RamWrite(i, x)`. -/
def Mapper.ramWrite (m : Mapper) (i : Nat) (x : Byte) : Mapper :=
  { m with ramBuffer := Memory.write .ram m.ramBuffer i x }

/-- R48 `AS.retrieve(a)`. -/
def State.retrieve (s : State) (a : Nat) : Byte := Memory.read .addressSpace s.addressSpace a

/-- R48 `AS.load(a, x)`. -/
def State.load (s : State) (a : Nat) (x : Byte) : State :=
  { s with addressSpace := Memory.write .addressSpace s.addressSpace a x }

/-! ## Outputs and guards -/

/-- Records what the operation produced (R13). -/
def State.answer (s : State) (o : Output) : State := { s with out := o }

/-- R180: every view handed out so far has ended. -/
def State.endViews (s : State) : State :=
  { s with liveViews := [], viewsEnded := s.viewsEnded + s.liveViews.length }

/-- An operation needs an instance (R343) and a well-formed configuration (R10). -/
def guardedLive (s : State) (k : Outcome) : Outcome :=
  if s.live = false then .refused .noInstance
  else if s.cfg.wf = false then .refused .illFormedConfig
  else k

/-- An operation of the table moreover belongs to the live variant and lies in its row's window (41_mbc1.md and 42_mbc2.md apply only to
their own variant; R126, R127). -/
def guarded (i : Instr) (s : State) (k : Outcome) : Outcome :=
  guardedLive s (if i.wf s.cfg.variant = false then .refused .illFormedInstr else k)

/-! ## Bus transactions shared by the variants -/

/-- A read answers its byte and writes no other state (R90). -/
def answerByte (b : Byte) (ds : List Diagnostic) (s : State) : Outcome :=
  .next (s.answer { result := .byte b, diagnostics := ds })

/-- R162, R163: a delegated read. -/
def delegatedRead (a : Addr) (s : State) : Outcome := answerByte (s.retrieve a.toNat) [] s

/-- R164: a delegated write. -/
def delegatedWrite (a : Addr) (v : Byte) (s : State) : Outcome := .next ((s.load a.toNat v).answer {})

/-- A bus write to 0x0000–0x7FFF: sets the mapper state, ends every view (R180 (a)) and never reaches AddressSpace or ROM (R91). -/
def controlWrite (m : Mapper) (o : Output) (s : State) : Outcome :=
  .next (({ s with mapper := m } : State).endViews.answer o)

/-- R224, R271, R273, R274: an ignored or rejected write to 0x0000–0x7FFF. -/
def ignoredControlWrite (ds : List Diagnostic) (s : State) : Outcome :=
  controlWrite s.mapper { diagnostics := ds } s

/-- R221, R270: a honoured RAM-enable write (R165, R166). -/
def ramEnableWrite (v : Byte) (s : State) : Outcome :=
  controlWrite { s.mapper with ramEnabled := ramEnableTest v }
    { events := ramChangedEvents s.mapper.ramEnabled (ramEnableTest v) s.mapper.ramChangedCallback } s

/-- R83, R97: the byte at a ROM offset, or the fault. -/
def romByte (o : Nat) (s : State) : Outcome :=
  match romRead s.cfg o with
  | some b => answerByte b [] s
  | none => .fault (.romOutOfRange o)

/-- The byte at a RAM index (R12). -/
def ramByte (i : Nat) (ds : List Diagnostic) (s : State) : Outcome :=
  if i < ramSize s.cfg then answerByte (s.mapper.ramRead i) ds s else .fault (.ramOutOfRange i)

/-- Sets the byte at a RAM index (R12). -/
def setRamByte (i : Nat) (x : Byte) (ds : List Diagnostic) (s : State) : Outcome :=
  if i < ramSize s.cfg then .next (({ s with mapper := s.mapper.ramWrite i x } : State).answer { diagnostics := ds })
  else .fault (.ramOutOfRange i)

/-- R229, R277, R279: a dropped write of the RAM region. -/
def droppedWrite (ds : List Diagnostic) (s : State) : Outcome := .next (s.answer { diagnostics := ds })

/-! ## Reset and the life of an instance -/

/-- The mapper state after RESET (R341). -/
def Mapper.softReset (v : Variant) (m : Mapper) : Mapper :=
  let m := { m with ramEnabled := false, currentRomBankIndex := 1, currentRomByteOffset := 0x4000 }
  match v with
  | .mbc1 => { m with bankingMode := 0, currentRamBankIndex := 0, currentRamByteOffset := 0, higherRomBankBits := 0 }
  | .mbc2 => m

/-- R341, R180 (b): RESET emits nothing and ends every view. -/
def softReset (s : State) : Outcome := controlWrite (s.mapper.softReset s.cfg.variant) {} s

/-- R324: a power cycle acts as RESET. -/
def powerCycle (s : State) : Outcome := guardedLive s (softReset s)

/-- R340: construction of a mapper for a cartridge; the AddressSpace is not the mapper's and stays. -/
def construct (c : Cfg) (s : State) : Outcome :=
  if s.live then .refused .alreadyLive
  else if c.wf = false then .refused .illFormedConfig
  else .next (({ s with cfg := c, live := true, mapper := Mapper.constructed } : State).endViews.answer {})

/-- R343, R180 (d): destruction releases `ramBuffer` and ends every view. -/
def destroy (s : State) : Outcome :=
  if s.live then .next (({ s with live := false, mapper := { s.mapper with ramBuffer := [] } } : State).endViews.answer {})
  else .refused .noInstance

/-! ## Views -/

/-- A view accessor: the view is live from here on (R180), and its handle counts the views handed out before it. -/
def handOut (v : View) (s : State) : Outcome :=
  .next (({ s with liveViews := s.liveViews ++ [v] } : State).answer
    { result := .view (s.viewsEnded + s.liveViews.length) v })

/-- An access through a view handle: stale (R180), never handed out, or live. -/
def withView (handle : Nat) (s : State) (k : View → Outcome) : Outcome :=
  if handle < s.viewsEnded then .fault .staleView
  else
    match s.liveViews[handle - s.viewsEnded]? with
    | none => .refused .noSuchView
    | some v => k v

/-- Byte `k` of a live view (R176–R179): no `ramEnabled` gate. -/
def viewByte (v : View) (k : Nat) (s : State) : Outcome :=
  if k < v.length then
    match v.space with
    | .addressSpace => answerByte (s.retrieve (v.base + k)) [] s
    | .rom => romByte (v.base + k) s
    | .ram => ramByte (v.base + k) [] s
  else .refused .outsideView

/-- A write through a live view (R178, R179): no gate, no MBC2 mask; only `ramBuffer` views are writable (R176, R177). -/
def setViewByte (v : View) (k : Nat) (x : Byte) (s : State) : Outcome :=
  if k < v.length then
    match v.space, v.readOnly with
    | .ram, false => setRamByte (v.base + k) x [] s
    | _, _ => .refused .readOnlyView
  else .refused .outsideView

/-- Reads byte `k` through a handle. -/
def viewRead (handle k : Nat) (s : State) : Outcome := withView handle s (fun v => viewByte v k s)

/-- Writes byte `k` through a handle. -/
def viewWrite (handle k : Nat) (x : Byte) (s : State) : Outcome := withView handle s (fun v => setViewByte v k x s)

/-- R93, R321: overlapping operations are refused. -/
def overlapping (_ : State) : Outcome := .refused .concurrentAccess

end Sys2Proof.Machine
end

