-- ==== Sys2Proof/Machine/Invariants.lean ====
section
/-! DEFINITION. The invariants W1–W8 of R46, which LOAD_STATE tests (R175) and every step keeps (Safety.lean, the obligations). An item
marked MBC1 in R46 says nothing of an MBC2 mapper. -/

namespace Sys2Proof.Machine

/-- W1. -/
def Mapper.w1 (c : Cfg) (m : Mapper) : Bool := c.variant != .mbc1 || decide (m.bankingMode ≤ 1)

/-- W2. -/
def Mapper.w2 (c : Cfg) (m : Mapper) : Bool := c.variant != .mbc1 || m.bankingMode != 1 || c.ramSizeClass == 3

/-- W3. -/
def Mapper.w3 (c : Cfg) (m : Mapper) : Bool := c.variant != .mbc1 || decide (m.higherRomBankBits ≤ 3)

/-- The largest ROM index of a variant (R34). -/
def maxRomIndex : Variant → Nat
  | .mbc1 => 0x7F
  | .mbc2 => 0x0F

/-- W4. -/
def Mapper.w4 (c : Cfg) (m : Mapper) : Bool :=
  decide (m.currentRomBankIndex ≤ maxRomIndex c.variant) &&
    (m.currentRomBankIndex == 1 || decide (m.currentRomBankIndex ≤ c.romBankCount - 1))

/-- W5. -/
def Mapper.w5 (m : Mapper) : Bool := m.currentRomByteOffset == m.currentRomBankIndex * 0x4000

/-- W6. -/
def Mapper.w6 (c : Cfg) (m : Mapper) : Bool :=
  c.variant != .mbc1 ||
    (decide (m.currentRamBankIndex ≤ 3) &&
      (m.currentRamBankIndex == 0 || decide (m.currentRamBankIndex ≤ c.ramBankCount - 1)))

/-- W7. -/
def Mapper.w7 (c : Cfg) (m : Mapper) : Bool :=
  c.variant != .mbc1 || m.currentRamByteOffset == m.currentRamBankIndex * 0x2000

/-- W8, with the canonical form: `ramBuffer` has exactly the bytes 0 .. ramSize - 1. -/
def Mapper.w8 (c : Cfg) (m : Mapper) : Bool := Memory.wf .ram (ramSize c) m.ramBuffer

/-- R46. -/
def Mapper.inv (c : Cfg) (m : Mapper) : Bool :=
  m.w1 c && m.w2 c && m.w3 c && m.w4 c && m.w5 && m.w6 c && m.w7 c && m.w8 c

end Sys2Proof.Machine
end

