-- ==== Sys2Proof/Machine/Record.lean ====
section
/-! DEFINITION. The byte formats of the persistence operations: the battery payload (R169–R171) and the full-state record (R172–R175). -/

namespace Sys2Proof.Machine

/-- R170. -/
def batteryLen (c : Cfg) : Nat :=
  match c.variant with
  | .mbc1 => c.ramBankCount * 0x2000
  | .mbc2 => 512

/-- The low `n` bytes of `x`, least significant first. -/
def leBytes : Nat → Nat → List Byte
  | 0, _ => []
  | n + 1, x => BitVec.ofNat 8 x :: leBytes n (x / 256)

/-- The unsigned number of bytes, least significant first. -/
def leNat : List Byte → Nat
  | [] => 0
  | b :: bs => b.toNat + 256 * leNat bs

/-- Bytes in `stateByteOrder`, given least significant first, and back (R174). -/
def inOrder (c : Cfg) (bs : List Byte) : List Byte :=
  match c.stateByteOrder with
  | .little => bs
  | .big => bs.reverse

/-- R174 `INT(x)` and `BOOL(b)` of `n` bytes; every stored value is non-negative. -/
def encodeInt (c : Cfg) (n x : Nat) : List Byte := inOrder c (leBytes n x)

/-- R174: `BOOL(b)`. -/
def encodeBool (c : Cfg) (b : Bool) : List Byte := encodeInt c c.boolBytes (if b then 1 else 0)

/-- R174: a two's-complement integer read back; none if it is negative, which no field of R46 may be (log 14). -/
def readInt (c : Cfg) (bs : List Byte) : Option Nat :=
  if 2 * leNat (inOrder c bs) < 256 ^ bs.length then some (leNat (inOrder c bs)) else none

/-- R174, R175: a Bool read back; none unless it is one of the two encodings. -/
def readBool (c : Cfg) (bs : List Byte) : Option Bool :=
  if bs = encodeBool c true then some true else if bs = encodeBool c false then some false else none

/-- How many bytes a field of the record takes (R172, R174). -/
def fieldLen (c : Cfg) : RecordField → Nat
  | .bankingMode => c.intBytes
  | .currentRamBankIndex => c.intBytes
  | .currentRomBankIndex => c.intBytes
  | .ramEnabled => c.boolBytes
  | .higherRomBankBits => 1
  | .ramBuffer => ramSize c
  | .currentRomByteOffset => c.intBytes
  | .currentRamByteOffset => c.intBytes

/-- The bytes of a field (R172, R174): the whole buffer, and the offsets as stored. -/
def fieldBytes (c : Cfg) (m : Mapper) : RecordField → List Byte
  | .bankingMode => encodeInt c c.intBytes m.bankingMode
  | .currentRamBankIndex => encodeInt c c.intBytes m.currentRamBankIndex
  | .currentRomBankIndex => encodeInt c c.intBytes m.currentRomBankIndex
  | .ramEnabled => encodeBool c m.ramEnabled
  | .higherRomBankBits => leBytes 1 m.higherRomBankBits
  | .ramBuffer => Memory.bytes .ram m.ramBuffer 0 (ramSize c)
  | .currentRomByteOffset => encodeInt c c.intBytes m.currentRomByteOffset
  | .currentRamByteOffset => encodeInt c c.intBytes m.currentRamByteOffset

/-- A field set from its bytes (R175); none if the bytes hold a negative integer or no Bool. -/
def readField (c : Cfg) (f : RecordField) (bs : List Byte) (m : Mapper) : Option Mapper :=
  match f with
  | .bankingMode => (readInt c bs).map (fun x => { m with bankingMode := x })
  | .currentRamBankIndex => (readInt c bs).map (fun x => { m with currentRamBankIndex := x })
  | .currentRomBankIndex => (readInt c bs).map (fun x => { m with currentRomBankIndex := x })
  | .ramEnabled => (readBool c bs).map (fun b => { m with ramEnabled := b })
  | .higherRomBankBits => some { m with higherRomBankBits := leNat bs }
  | .ramBuffer => some { m with ramBuffer := Memory.listed .ram 0 bs }
  | .currentRomByteOffset => (readInt c bs).map (fun x => { m with currentRomByteOffset := x })
  | .currentRamByteOffset => (readInt c bs).map (fun x => { m with currentRamByteOffset := x })

/-- R172: the MBC1 record, "fields in this exact order". -/
def mbc1Layout : List RecordField :=
  [.bankingMode, .currentRamBankIndex, .currentRomBankIndex, .ramEnabled, .higherRomBankBits, .ramBuffer,
   .currentRomByteOffset, .currentRamByteOffset]

/-- R173: the fields an MBC2 record holds, each exactly once. -/
def mbc2LayoutValid (l : List RecordField) : Bool :=
  l.length == 4 && l.contains .ramEnabled && l.contains .currentRomBankIndex && l.contains .currentRomByteOffset &&
    l.contains .ramBuffer

/-- The layout of the live variant's record, or none where the MBC2 parameter gives none (R172, R173). -/
def recordLayout (c : Cfg) : Option (List RecordField) :=
  match c.variant with
  | .mbc1 => some mbc1Layout
  | .mbc2 => c.mbc2StateLayout.filter mbc2LayoutValid

/-- The record of a mapper state (R172, R173). -/
def recordBytes (c : Cfg) (l : List RecordField) (m : Mapper) : List Byte := l.flatMap (fieldBytes c m)

/-- The length of a record (R172, R175). -/
def recordLen (c : Cfg) (l : List RecordField) : Nat := (l.map (fieldLen c)).sum

/-- R175: the candidate state of a record; fields the record does not hold (the callback) are kept. -/
def readRecord (c : Cfg) : List RecordField → Stream → Mapper → Option Mapper
  | [], _, m => some m
  | f :: fs, src, m =>
    match readField c f (src.take (fieldLen c f)) m with
    | none => none
    | some m' => readRecord c fs (src.drop (fieldLen c f)) m'

/-- The stream holds at least `n` bytes (R171, R175). -/
def holds : Nat → Stream → Bool
  | 0, _ => true
  | _ + 1, [] => false
  | n + 1, _ :: bs => holds n bs

/-- R171: the first `E` bytes of `ramBuffer` replaced from the stream, whose first `skip` bytes are discarded. -/
def loadPayload (skip : Nat) (src : Stream) (s : State) : Outcome :=
  if holds (skip + batteryLen s.cfg) src then
    .next (({ s with mapper := { s.mapper with
        ramBuffer := Memory.storeFront .ram s.mapper.ramBuffer ((src.drop skip).take (batteryLen s.cfg)) } } : State).answer
      { result := .ok, stream := some (src.drop (skip + batteryLen s.cfg)) })
  else .refused .shortStream

/-- R171. -/
def loadBattery (src : Stream) (knownLength : Nat) (s : State) : Outcome :=
  if knownLength = 0 then loadPayload 1 src s
  else if knownLength ≠ batteryLen s.cfg then
    .next (s.answer { result := .mismatch (batteryLen s.cfg) knownLength, stream := some src })
  else loadPayload 0 src s

/-- R169, R12: the sink gains the first `E` bytes of `ramBuffer`. -/
def saveBattery (sink : Stream) (s : State) : Outcome :=
  .next (s.answer { stream := some (sink ++ Memory.bytes .ram s.mapper.ramBuffer 0 (batteryLen s.cfg)) })

/-- R172, R173: the sink gains the record. -/
def saveState (sink : Stream) (s : State) : Outcome :=
  match recordLayout s.cfg with
  | none => .refused .unmodelled
  | some l => .next (s.answer { stream := some (sink ++ recordBytes s.cfg l s.mapper) })

/-- R175: length, then the record's fields, then W1–W8; on success every view ends (R180 (c)) and no event is emitted (R166). -/
def loadState (src : Stream) (s : State) : Outcome :=
  match recordLayout s.cfg with
  | none => .refused .unmodelled
  | some l =>
    if holds (recordLen s.cfg l) src then
      match readRecord s.cfg l src s.mapper with
      | none => .refused .invalidStateRecord
      | some m =>
        if m.inv s.cfg then controlWrite m { stream := some (src.drop (recordLen s.cfg l)) } s
        else .refused .invalidStateRecord
    else .refused .shortStream

end Sys2Proof.Machine
end

