-- ==== Sys2Proof/Machine/HostOps.lean ====
section
/-! DEFINITION. The meanings of the host operations (R123; 40_shared_contract.md R167–R180, 70_reset_and_hazards.md R341). -/

namespace Sys2Proof.Machine

/-- `RESET` (R341); `isColorMode` has no effect (D6, log 8). -/
def execReset (isColorMode : Bool) (s : State) : Outcome := guarded (.reset isColorMode) s (softReset s)

/-- `SAVE_BATTERY` (R169). -/
def execSaveBattery (sink : Stream) (s : State) : Outcome := guarded (.saveBattery sink) s (saveBattery sink s)

/-- `LOAD_BATTERY` (R171). -/
def execLoadBattery (source : Stream) (knownLength : Nat) (s : State) : Outcome :=
  guarded (.loadBattery source knownLength) s (loadBattery source knownLength s)

/-- `SAVE_STATE` (R172, R173). -/
def execSaveState (sink : Stream) (s : State) : Outcome := guarded (.saveState sink) s (saveState sink s)

/-- `LOAD_STATE` (R175). -/
def execLoadState (source : Stream) (s : State) : Outcome := guarded (.loadState source) s (loadState source s)

/-- `SET_CALLBACK` (R167): a handle replaces the previous one; an absent one is refused (D15, log 16). -/
def execSetCallback (observer : Option Handle) (s : State) : Outcome :=
  guarded (.setCallback observer) s
    (match observer with
     | some h => .next (({ s with mapper := { s.mapper with ramChangedCallback := some h } } : State).answer {})
     | none => .refused .illFormedOperand)

/-- `VIEW_BANK0` (R176). -/
def execViewBank0 (s : State) : Outcome :=
  guarded .viewBank0 s (handOut { space := .addressSpace, base := 0x0000, length := 0x4000, readOnly := true } s)

/-- `VIEW_ROMX` (R177). -/
def execViewRomx (s : State) : Outcome :=
  guarded .viewRomx s
    (handOut { space := .rom, base := s.mapper.currentRomByteOffset, length := 0x4000, readOnly := true } s)

/-- `VIEW_RAMX` (R178). -/
def execViewRamx (s : State) : Outcome :=
  guarded .viewRamx s
    (match s.cfg.variant with
     | .mbc1 =>
       if s.cfg.ramBankCount = 0 then .next (s.answer { result := .noView })
       else handOut { space := .ram, base := s.mapper.currentRamByteOffset, length := 0x2000, readOnly := false } s
     | .mbc2 => handOut { space := .ram, base := 0, length := 0x200, readOnly := false } s)

/-- `VIEW_RAM_ALL` (R179). -/
def execViewRamAll (s : State) : Outcome :=
  guarded .viewRamAll s (handOut { space := .ram, base := 0, length := ramSize s.cfg, readOnly := false } s)

end Sys2Proof.Machine
end

