-- ==== Sys2Proof/Machine/Mbc1.lean ====
section
/-! DEFINITION. The meanings of the MBC1 bus operations (41_mbc1.md; the delegated ones 40_shared_contract.md R162–R164). -/

namespace Sys2Proof.Machine

/-- `MBC1.RD_ROM0` (R162). -/
def execMbc1RdRom0 (a : Addr) (s : State) : Outcome := guarded (.mbc1RdRom0 a) s (delegatedRead a s)

/-- `MBC1.RD_ROMX` (R227, R83). -/
def execMbc1RdRomx (a : Addr) (s : State) : Outcome := guarded (.mbc1RdRomx a) s (romByte (s.mapper.romIndex a) s)

/-- `MBC1.RD_EXT_8000` (R163). -/
def execMbc1RdExt8000 (a : Addr) (s : State) : Outcome := guarded (.mbc1RdExt8000 a) s (delegatedRead a s)

/-- `MBC1.RD_RAM` (R228; the order of checks, R316). -/
def execMbc1RdRam (a : Addr) (s : State) : Outcome :=
  guarded (.mbc1RdRam a) s
    (if s.mapper.ramEnabled = false then answerByte 0xFF [.disabledRamRead] s
     else ramByte (s.mapper.mbc1RamIndex a) (smallRamDiagnostic s.cfg s.mapper a) s)

/-- `MBC1.RD_EXT_C000` (R163). -/
def execMbc1RdExtC000 (a : Addr) (s : State) : Outcome := guarded (.mbc1RdExtC000 a) s (delegatedRead a s)

/-- `MBC1.WR_RAMEN` (R221). -/
def execMbc1WrRamen (a : Addr) (v : Byte) (s : State) : Outcome := guarded (.mbc1WrRamen a v) s (ramEnableWrite v s)

/-- `MBC1.WR_RAMEN_ALIAS` (R224). -/
def execMbc1WrRamenAlias (a : Addr) (v : Byte) (s : State) : Outcome :=
  guarded (.mbc1WrRamenAlias a v) s (ignoredControlWrite [] s)

/-- `MBC1.WR_ROMLO` (R223). -/
def execMbc1WrRomlo (a : Addr) (v : Byte) (s : State) : Outcome :=
  guarded (.mbc1WrRomlo a v) s
    (if s.mapper.bankingMode = 0 then
       controlWrite (s.mapper.setRom (mbc1RomIndex s.cfg (lowFive v) s.mapper.higherRomBankBits)) {} s
     else controlWrite (s.mapper.setRom (mbc1RomIndex s.cfg (lowFive v) 0)) {} s)

/-- `MBC1.WR_BANKHI` (R225; in mode 0 the low five bits are the current index's, D27, log 22). -/
def execMbc1WrBankhi (a : Addr) (v : Byte) (s : State) : Outcome :=
  guarded (.mbc1WrBankhi a v) s
    (if s.mapper.bankingMode = 1 then controlWrite (s.mapper.setRamBank (mbc1RamBank s.cfg v)) {} s
     else
       controlWrite
         (({ s.mapper with higherRomBankBits := lowTwo v } : Mapper).setRom
           (mbc1RomIndex s.cfg (s.mapper.currentRomBankIndex &&& 0x1F) (lowTwo v))) {} s)

/-- `MBC1.WR_MODE` (R226; it recomputes no index or offset, D5, log 7). -/
def execMbc1WrMode (a : Addr) (v : Byte) (s : State) : Outcome :=
  guarded (.mbc1WrMode a v) s
    (if modeAccepted s.cfg (modeBit v) then controlWrite { s.mapper with bankingMode := modeBit v } {} s
     else ignoredControlWrite [.modeOneRejected] s)

/-- `MBC1.WR_EXT_8000` (R164). -/
def execMbc1WrExt8000 (a : Addr) (v : Byte) (s : State) : Outcome := guarded (.mbc1WrExt8000 a v) s (delegatedWrite a v s)

/-- `MBC1.WR_RAM` (R229; the order of checks, R316). -/
def execMbc1WrRam (a : Addr) (v : Byte) (s : State) : Outcome :=
  guarded (.mbc1WrRam a v) s
    (if s.mapper.ramEnabled = false then droppedWrite [.disabledRamWrite] s
     else setRamByte (s.mapper.mbc1RamIndex a) v (smallRamDiagnostic s.cfg s.mapper a) s)

/-- `MBC1.WR_EXT_C000` (R164). -/
def execMbc1WrExtC000 (a : Addr) (v : Byte) (s : State) : Outcome := guarded (.mbc1WrExtC000 a v) s (delegatedWrite a v s)

end Sys2Proof.Machine
end

