-- ==== Sys2Proof/Machine/Mbc2.lean ====
section
/-! DEFINITION. The meanings of the MBC2 bus operations (42_mbc2.md; the delegated ones 40_shared_contract.md R162–R164). -/

namespace Sys2Proof.Machine

/-- `MBC2.RD_ROM0` (R162). -/
def execMbc2RdRom0 (a : Addr) (s : State) : Outcome := guarded (.mbc2RdRom0 a) s (delegatedRead a s)

/-- `MBC2.RD_ROMX` (R275, R83). -/
def execMbc2RdRomx (a : Addr) (s : State) : Outcome := guarded (.mbc2RdRomx a) s (romByte (s.mapper.romIndex a) s)

/-- `MBC2.RD_EXT_8000` (R163). -/
def execMbc2RdExt8000 (a : Addr) (s : State) : Outcome := guarded (.mbc2RdExt8000 a) s (delegatedRead a s)

/-- `MBC2.RD_RAM` (R276): the stored byte unmasked (90_conflicts.md C4). -/
def execMbc2RdRam (a : Addr) (s : State) : Outcome :=
  guarded (.mbc2RdRam a) s
    (if s.mapper.ramEnabled = false then answerByte 0xFF [.disabledRamRead] s
     else ramByte (mbc2RamIndex a) [] s)

/-- `MBC2.RD_RAM_NA` (R278; before the gate, R280). -/
def execMbc2RdRamNa (a : Addr) (s : State) : Outcome := guarded (.mbc2RdRamNa a) s (answerByte 0x00 [.nonAddressableRead] s)

/-- `MBC2.RD_EXT_C000` (R163). -/
def execMbc2RdExtC000 (a : Addr) (s : State) : Outcome := guarded (.mbc2RdExtC000 a) s (delegatedRead a s)

/-- `MBC2.WR_RAMEN` (R270). -/
def execMbc2WrRamen (a : Addr) (v : Byte) (s : State) : Outcome := guarded (.mbc2WrRamen a v) s (ramEnableWrite v s)

/-- `MBC2.WR_RAMEN_ALIAS` (R271). -/
def execMbc2WrRamenAlias (a : Addr) (v : Byte) (s : State) : Outcome :=
  guarded (.mbc2WrRamenAlias a v) s (ignoredControlWrite [] s)

/-- `MBC2.WR_ROMSEL` (R272). -/
def execMbc2WrRomsel (a : Addr) (v : Byte) (s : State) : Outcome :=
  guarded (.mbc2WrRomsel a v) s (controlWrite (s.mapper.setRom (mbc2RomIndex s.cfg v)) {} s)

/-- `MBC2.WR_ROMSEL_ALIAS` (R273). -/
def execMbc2WrRomselAlias (a : Addr) (v : Byte) (s : State) : Outcome :=
  guarded (.mbc2WrRomselAlias a v) s (ignoredControlWrite [] s)

/-- `MBC2.WR_ROM_REJ` (R274). -/
def execMbc2WrRomRej (a : Addr) (v : Byte) (s : State) : Outcome :=
  guarded (.mbc2WrRomRej a v) s (ignoredControlWrite [.romRegionWriteRejected] s)

/-- `MBC2.WR_EXT_8000` (R164). -/
def execMbc2WrExt8000 (a : Addr) (v : Byte) (s : State) : Outcome := guarded (.mbc2WrExt8000 a v) s (delegatedWrite a v s)

/-- `MBC2.WR_RAM` (R277): the low nibble, zero-extended. -/
def execMbc2WrRam (a : Addr) (v : Byte) (s : State) : Outcome :=
  guarded (.mbc2WrRam a v) s
    (if s.mapper.ramEnabled = false then droppedWrite [.disabledRamWrite] s
     else setRamByte (mbc2RamIndex a) (BitVec.ofNat 8 (lowNibble v)) [] s)

/-- `MBC2.WR_RAM_NA` (R279; before the gate, R280). -/
def execMbc2WrRamNa (a : Addr) (v : Byte) (s : State) : Outcome :=
  guarded (.mbc2WrRamNa a v) s (droppedWrite [.nonAddressableWrite] s)

/-- `MBC2.WR_EXT_C000` (R164). -/
def execMbc2WrExtC000 (a : Addr) (v : Byte) (s : State) : Outcome := guarded (.mbc2WrExtC000 a v) s (delegatedWrite a v s)

end Sys2Proof.Machine
end

