-- ==== Sys2Proof/Machine/Dispatch.lean ====
section
/-! DEFINITION. One arm per constructor of Instr: the operation's meaning. -/

namespace Sys2Proof.Machine

def exec (i : Instr) (s : State) : Host.Outcome State Fault Refusal :=
  match i with
  | .mbc1RdRom0 a => Sys2Proof.Machine.execMbc1RdRom0 a s
  | .mbc1RdRomx a => Sys2Proof.Machine.execMbc1RdRomx a s
  | .mbc1RdExt8000 a => Sys2Proof.Machine.execMbc1RdExt8000 a s
  | .mbc1RdRam a => Sys2Proof.Machine.execMbc1RdRam a s
  | .mbc1RdExtC000 a => Sys2Proof.Machine.execMbc1RdExtC000 a s
  | .mbc1WrRamen a v => Sys2Proof.Machine.execMbc1WrRamen a v s
  | .mbc1WrRamenAlias a v => Sys2Proof.Machine.execMbc1WrRamenAlias a v s
  | .mbc1WrRomlo a v => Sys2Proof.Machine.execMbc1WrRomlo a v s
  | .mbc1WrBankhi a v => Sys2Proof.Machine.execMbc1WrBankhi a v s
  | .mbc1WrMode a v => Sys2Proof.Machine.execMbc1WrMode a v s
  | .mbc1WrExt8000 a v => Sys2Proof.Machine.execMbc1WrExt8000 a v s
  | .mbc1WrRam a v => Sys2Proof.Machine.execMbc1WrRam a v s
  | .mbc1WrExtC000 a v => Sys2Proof.Machine.execMbc1WrExtC000 a v s
  | .mbc2RdRom0 a => Sys2Proof.Machine.execMbc2RdRom0 a s
  | .mbc2RdRomx a => Sys2Proof.Machine.execMbc2RdRomx a s
  | .mbc2RdExt8000 a => Sys2Proof.Machine.execMbc2RdExt8000 a s
  | .mbc2RdRam a => Sys2Proof.Machine.execMbc2RdRam a s
  | .mbc2RdRamNa a => Sys2Proof.Machine.execMbc2RdRamNa a s
  | .mbc2RdExtC000 a => Sys2Proof.Machine.execMbc2RdExtC000 a s
  | .mbc2WrRamen a v => Sys2Proof.Machine.execMbc2WrRamen a v s
  | .mbc2WrRamenAlias a v => Sys2Proof.Machine.execMbc2WrRamenAlias a v s
  | .mbc2WrRomsel a v => Sys2Proof.Machine.execMbc2WrRomsel a v s
  | .mbc2WrRomselAlias a v => Sys2Proof.Machine.execMbc2WrRomselAlias a v s
  | .mbc2WrRomRej a v => Sys2Proof.Machine.execMbc2WrRomRej a v s
  | .mbc2WrExt8000 a v => Sys2Proof.Machine.execMbc2WrExt8000 a v s
  | .mbc2WrRam a v => Sys2Proof.Machine.execMbc2WrRam a v s
  | .mbc2WrRamNa a v => Sys2Proof.Machine.execMbc2WrRamNa a v s
  | .mbc2WrExtC000 a v => Sys2Proof.Machine.execMbc2WrExtC000 a v s
  | .reset isColorMode => Sys2Proof.Machine.execReset isColorMode s
  | .saveBattery sink => Sys2Proof.Machine.execSaveBattery sink s
  | .loadBattery source knownLength => Sys2Proof.Machine.execLoadBattery source knownLength s
  | .saveState sink => Sys2Proof.Machine.execSaveState sink s
  | .loadState source => Sys2Proof.Machine.execLoadState source s
  | .setCallback observer => Sys2Proof.Machine.execSetCallback observer s
  | .viewBank0 => Sys2Proof.Machine.execViewBank0 s
  | .viewRomx => Sys2Proof.Machine.execViewRomx s
  | .viewRamx => Sys2Proof.Machine.execViewRamx s
  | .viewRamAll => Sys2Proof.Machine.execViewRamAll s

end Sys2Proof.Machine
end

