-- ==== Sys2Proof/Machine/Step.lean ====
section
/-! DEFINITION. One step: the oldest operation of `input` is served, whole (R13, R93). With no operation issued the block does nothing
(log 2). -/

namespace Sys2Proof.Machine

/-- Serves one request: a word is decoded under the live variant (R124) and run; the other requests are the spec's acts outside the
opcode table. -/
def serve (r : Request) (s : State) : Host.Outcome State Fault Refusal :=
  match r with
  | .operation word operands =>
    match decode s.cfg.variant word operands with
    | .ok i => exec i s
    | .error e => .refused (.illFormedWord e)
  | .viewRead handle k => viewRead handle k s
  | .viewWrite handle k v => viewWrite handle k v s
  | .powerCycle => powerCycle s
  | .construct c => construct c s
  | .destroy => destroy s
  | .overlapping _ _ => overlapping s

/-- One step of the machine. -/
def step (s : State) : Host.Outcome State Fault Refusal :=
  match s.input with
  | [] => .next s
  | r :: rest => serve r { s with input := rest }

/-- The state with one word of the opcode table issued next, with `tableOperands` beside it (log 4). -/
def State.withFetchWord (s : State) (nbits w : Nat) : State :=
  { s with input := .operation (w % 2 ^ nbits) tableOperands :: s.input }

end Sys2Proof.Machine
end

