-- ==== Sys2Proof/Machine/Translate.lean ====
section
/-! DEFINITION. The address translator of R82: the target of a bus address, by variant, direction, address and state. R82 puts the
operation rules together; the meanings follow the operation rules, and the obligations say that the two agree. -/

namespace Sys2Proof.Machine

/-- The direction of a bus transaction. -/
inductive Direction where
  | read
  | write
  deriving DecidableEq, Repr

/-- The control registers of R42, and the writes of the same regions that reach none (R224, R271, R273, R274). -/
inductive Register where
  | ramEnable
  | romLow
  | bankHigh
  | mode
  | romSelect
  | ignored
  | rejected
  deriving DecidableEq, Repr

/-- The targets of R82. -/
inductive Target where
  | addressSpace (a : Nat)
  | rom (o : Nat)
  | ram (i : Nat)
  | register (r : Register)
  /-- A rejected read returns this byte. -/
  | sentinel (b : Byte)
  /-- A rejected write changes nothing. -/
  | drop
  deriving DecidableEq, Repr

/-- `REG(variant, r, a[8])` of R82 for regions `[0x0000]` and `[0x2000]` (R42). -/
def lowRegister (v : Variant) (region : Nat) (bit8 : Nat) : Register :=
  match v with
  | .mbc1 => if region = 0x0000 then (if bit8 = 0 then .ramEnable else .ignored) else .romLow
  | .mbc2 =>
    if region = 0x0000 then (if bit8 = 0 then .ramEnable else .ignored)
    else (if bit8 = 1 then .romSelect else .ignored)

/-- `REG(variant, r)` of R82 for regions `[0x4000]` and `[0x6000]` (R42). -/
def highRegister (v : Variant) (region : Nat) : Register :=
  match v with
  | .mbc1 => if region = 0x4000 then .bankHigh else .mode
  | .mbc2 => .rejected

/-- R82 `SENTINEL(b) / DROP`. -/
def sentinelOrDrop (d : Direction) (b : Byte) : Target :=
  match d with
  | .read => .sentinel b
  | .write => .drop

/-- R82, line by line. -/
def busTarget (v : Variant) (d : Direction) (a : Addr) (m : Mapper) : Target :=
  let r := a.toNat &&& 0xE000
  if r = 0x0000 ∨ r = 0x2000 then
    match d with
    | .read => .addressSpace a.toNat
    | .write => .register (lowRegister v r (bits 8 8 a.toNat))
  else if r = 0x4000 ∨ r = 0x6000 then
    match d with
    | .read => .rom ((a.toNat - 0x4000) + m.currentRomByteOffset)
    | .write => .register (highRegister v r)
  else if r = 0xA000 then
    if v = .mbc2 ∧ 0xA200 ≤ a.toNat then sentinelOrDrop d 0x00
    else if m.ramEnabled = false then sentinelOrDrop d 0xFF
    else if v = .mbc1 ∧ m.bankingMode = 0 then .ram (a.toNat - 0xA000)
    else if v = .mbc1 then .ram ((a.toNat - 0xA000) + m.currentRamByteOffset)
    else .ram (a.toNat - 0xA000)
  else .addressSpace a.toNat

end Sys2Proof.Machine
end

