-- ==== Sys2Proof/Safety.lean ====
section
/-! DEFINITION. What the claims speak of: the invariant of every reachable state, and what one state shares with another. -/

namespace Sys2Proof.Machine

/-- The mapper fields that R32 denies an MBC2 are 0 there (log 24). -/
def Mapper.mbc1FieldsIdle (c : Cfg) (m : Mapper) : Prop :=
  c.variant = .mbc2 →
    m.bankingMode = 0 ∧ m.currentRamBankIndex = 0 ∧ m.currentRamByteOffset = 0 ∧ m.higherRomBankBits = 0

/-- A live view shows what R176–R179 say it shows, for the banks selected now: the AddressSpace from 0, the ROM bank at the current
offset, the RAM bank at the current offset, or the whole buffer. -/
def View.shows (c : Cfg) (m : Mapper) (v : View) : Prop :=
  v = { space := .addressSpace, base := 0, length := 0x4000, readOnly := true } ∨
  v = { space := .rom, base := m.currentRomByteOffset, length := 0x4000, readOnly := true } ∨
  (c.variant = .mbc1 ∧ c.ramBankCount ≠ 0 ∧
    v = { space := .ram, base := m.currentRamByteOffset, length := 0x2000, readOnly := false }) ∨
  v = { space := .ram, base := 0, length := ramSize c, readOnly := false }

/-- The machine's invariant: a live instance has a well-formed configuration (R340) and its mapper state meets W1–W8 (R46); the
memories are canonical; every live view shows the banks selected now (R180). -/
structure State.Inv (s : State) : Prop where
  cfgWf : s.live = true → s.cfg.wf = true
  mapperInv : s.live = true → s.mapper.inv s.cfg = true
  idle : s.live = true → s.mapper.mbc1FieldsIdle s.cfg
  addressSpaceWf : Memory.wf .addressSpace addressSpaceSize s.addressSpace = true
  romWf : Memory.wf .rom s.cfg.romLen s.cfg.rom = true
  /-- The images that wait in `input` are canonical too: the list form of `rom` is the model's, so a request must respect it. -/
  imagesWf : ∀ c, Request.construct c ∈ s.input → Memory.wf .rom c.romLen c.rom = true
  viewsLive : s.live = false → s.liveViews = []
  viewsShow : ∀ v ∈ s.liveViews, v.shows s.cfg s.mapper

/-- The operation ends without a fault. -/
def Safe (o : Host.Outcome State Fault Refusal) : Prop := ∀ f, o ≠ .fault f

/-- An instance is live and its configuration is well-formed: what every operation needs (R10, R343). -/
def State.Ready (s : State) : Prop := s.live = true ∧ s.cfg.wf = true

/-- The state after a read that returned `b` (R90): nothing but the output differs. -/
def State.afterRead (s : State) (b : Byte) (ds : List Diagnostic) : State :=
  { s with out := { result := .byte b, diagnostics := ds } }

/-- The state after an operation that ended every view (R180) and left mapper state `m`: nothing else but the output differs. -/
def State.afterControl (s : State) (m : Mapper) (o : Output) : State :=
  { s with mapper := m, liveViews := [], viewsEnded := s.viewsEnded + s.liveViews.length, out := o }

/-- The state after an accessor that handed out view `v` (R176–R180): the view is live, and its handle is the number of views handed out
before it. -/
def State.afterHandOut (s : State) (v : View) : State :=
  { s with liveViews := s.liveViews ++ [v], out := { result := .view (s.viewsEnded + s.liveViews.length) v } }

/-- The calls a falling edge makes: one, to the registered observer, if there is one (R166). -/
def State.notified (s : State) : List Event := s.mapper.ramChangedCallback.toList.map Event.ramChanged

/-- A BUS-RD row of the table. -/
def Instr.isRead (i : Instr) : Prop := bits 25 24 (encode i) = 0b00

/-- A BUS-WR row of the table. -/
def Instr.isWrite (i : Instr) : Prop := bits 25 24 (encode i) = 0b01

/-- R180 (a)–(c): a bus write to 0x0000–0x7FFF, RESET or LOAD_STATE. -/
def Instr.endsViews (i : Instr) : Prop :=
  (Instr.isWrite i ∧ bits 23 23 (encode i) = 0) ∨ i.mnemonic = "RESET" ∨ i.mnemonic = "LOAD_STATE"

/-- A sequence of operations, one after the other; none where one of them does not answer a next state. -/
def runOps : List Instr → State → Option State
  | [], s => some s
  | i :: is, s =>
    match exec i s with
    | .next t => runOps is t
    | .fault _ => none
    | .refused _ => none

/-- R230: the last `v & 0x03` written to region `[0x4000]` outside mode 1 in a sequence, or `h` if there was none. -/
def lastHighBits (h : Nat) : List Instr → State → Nat
  | [], _ => h
  | i :: is, s =>
    match exec i s with
    | .next t =>
      lastHighBits
        (match i with
         | .mbc1WrBankhi _ v => if s.mapper.bankingMode = 1 then h else v.toNat % 4
         | _ => h) is t
    | .fault _ => h
    | .refused _ => h

end Sys2Proof.Machine
end

