-- ==== Sys2Proof/Certificates/Slice0/Obligations.lean ====
section
/-! DEFINITION. The statements for the provers. Diagnostics are optional (R168), so every statement but the one about them holds for
whatever an operation logs: the log is the bound variable `ds`. -/

open Sys2Proof Sys2Proof.Machine

/-! ## Encoding -/

/-- R121–R124, R126, R127: no bit of a well-formed operation's word or operands is dropped. -/
def Obligations.DecodeEncodeRoundTrip : Prop :=
  ∀ (v : Variant) (i : Instr), i.wf v = true → decode v (encode i) (encodeOperands i) = .ok i

/-- R124, R126, R127: what the decoder reads from a word belongs to the variant, lies in its row's window, and has that word. -/
def Obligations.EncodeDecodeRoundTrip : Prop :=
  ∀ (v : Variant) (t : Nat) (o : HostOperands) (i : Instr),
    decode v t o = .ok i → i.wf v = true ∧ encode i = t

/-- R124, R134: on every 26-bit word the decoder gives the operation of the row that mask, match and priority select, and refuses
exactly the words that no row fits. -/
def Obligations.DecoderFollowsOpcodeTable : Prop :=
  ∀ (v : Variant) (t : Nat) (o : HostOperands), t < 0x4000000 →
    match decode v t o with
    | .ok i => (selectRow v t).map Row.mnemonic = some i.mnemonic
    | .error _ => selectRow v t = none

/-- R125: the ill-formed words are exactly the four kinds listed, and a step refuses them as `IllFormedWord`. -/
def Obligations.IllFormedWordsAreRefused : Prop :=
  ∀ (t : Nat) (o : HostOperands) (s : State) (rest : List Request), s.input = .operation t o :: rest →
    ((∃ e, step s = .refused (.illFormedWord e)) ↔
      0x4000000 ≤ t ∨
      (t < 0x1000000 ∧ bits 7 0 t ≠ 0) ∨
      (0x2000000 ≤ t ∧ t < 0x4000000 ∧ bits 24 8 t ≠ 0) ∨
      (0x2000000 ≤ t ∧ t < 0x4000000 ∧ (bits 7 0 t = 0x00 ∨ 0x0B ≤ bits 7 0 t)))

/-- Words written out from R121, R122 and the decode maps R126, R127 (95_test_vectors.md). -/
def Obligations.WrittenOutWordsDecode : Prop :=
  decode .mbc1 0x0015000 {} = .ok (.mbc1RdRom0 0x0150) ∧
  decode .mbc1 0x11FFF0A {} = .ok (.mbc1WrRamenAlias 0x1FFF 0x0A) ∧
  decode .mbc1 0x1210003 {} = .ok (.mbc1WrRomlo 0x2100 0x03) ∧
  decode .mbc2 0x1210003 {} = .ok (.mbc2WrRomsel 0x2100 0x03) ∧
  decode .mbc2 0x0A1FF00 {} = .ok (.mbc2RdRam 0xA1FF) ∧
  decode .mbc2 0x0A20000 {} = .ok (.mbc2RdRamNa 0xA200) ∧
  decode .mbc2 0x2000001 { isColorMode := true } = .ok (.reset true) ∧
  decode .mbc1 0x200000A {} = .ok .viewRamAll

/-! ## The machine as a whole -/

/-- R2, R13, R124: a step takes the oldest request away and runs the operation its word decodes to under the live variant. The other kinds of
request (a view access R176–R180, construction R340, destruction R343, a power cycle R324, overlapping operations R321) are each served by
the function of that name, on the same state; with no request the state stays. The queue and its idle step are the model's choice
(log 2), as is the form of the requests outside the table (logs 17 to 19). -/
def Obligations.StepRunsDecodedOperation : Prop :=
  (∀ (s : State) (t : Nat) (o : HostOperands) (rest : List Request) (i : Instr),
    s.input = .operation t o :: rest → decode s.cfg.variant t o = .ok i → step s = exec i { s with input := rest }) ∧
  (∀ (s : State) (rest : List Request) (h k : Nat), s.input = .viewRead h k :: rest →
    step s = viewRead h k { s with input := rest }) ∧
  (∀ (s : State) (rest : List Request) (h k : Nat) (x : Byte), s.input = .viewWrite h k x :: rest →
    step s = viewWrite h k x { s with input := rest }) ∧
  (∀ (s : State) (rest : List Request) (c : Cfg), s.input = .construct c :: rest → step s = construct c { s with input := rest }) ∧
  (∀ (s : State) (rest : List Request), s.input = .destroy :: rest → step s = destroy { s with input := rest }) ∧
  (∀ (s : State) (rest : List Request), s.input = .powerCycle :: rest → step s = powerCycle { s with input := rest }) ∧
  (∀ (s : State) (rest : List Request) (x y : Nat), s.input = .overlapping x y :: rest →
    step s = overlapping { s with input := rest }) ∧
  (∀ s : State, s.input = [] → step s = .next s)

/-- R46, R180: every step keeps the invariant: W1–W8, the canonical memories, and every live view showing the banks selected now. -/
def Obligations.StepKeepsInvariant : Prop :=
  ∀ s t : State, s.Inv → step s = .next t → t.Inv

/-- R46: the invariant holds right after construction with the configuration of State.reset. -/
def Obligations.ResetMeetsInvariant : Prop := State.reset.Inv

/-- R46: W1–W8 item by item, kept by every operation on a live mapper whose configuration is well-formed. -/
def Obligations.OperationsKeepMapperInvariants : Prop :=
  ∀ (i : Instr) (s t : State), s.mapper.inv s.cfg = true → exec i s = .next t →
    (t.cfg.variant = .mbc1 → t.mapper.bankingMode ≤ 1) ∧
    (t.cfg.variant = .mbc1 → t.mapper.bankingMode = 1 → t.cfg.ramSizeClass = 3) ∧
    (t.cfg.variant = .mbc1 → t.mapper.higherRomBankBits ≤ 3) ∧
    (t.cfg.variant = .mbc1 → t.mapper.currentRomBankIndex ≤ 0x7F) ∧
    (t.cfg.variant = .mbc2 → t.mapper.currentRomBankIndex ≤ 0x0F) ∧
    (t.mapper.currentRomBankIndex = 1 ∨ t.mapper.currentRomBankIndex ≤ t.cfg.romBankCount - 1) ∧
    t.mapper.currentRomByteOffset = t.mapper.currentRomBankIndex * 0x4000 ∧
    (t.cfg.variant = .mbc1 → t.mapper.currentRamBankIndex ≤ 3 ∧
      (t.mapper.currentRamBankIndex = 0 ∨ t.mapper.currentRamBankIndex ≤ t.cfg.ramBankCount - 1)) ∧
    (t.cfg.variant = .mbc1 → t.mapper.currentRamByteOffset = t.mapper.currentRamBankIndex * 0x2000) ∧
    (∀ c ∈ t.mapper.ramBuffer, c.1 < (match t.cfg.variant with | .mbc1 => 0x8000 | .mbc2 => 0x200))

/-- R82, R83–R86: a bus read of any address ends as the translator says: the AddressSpace byte, the ROM byte or its fault, the RAM byte,
or the sentinel. The fault at and beyond the image's end is the spec's own choice D7 (R97, log 9). -/
def Obligations.BusReadFollowsTranslator : Prop :=
  ∀ (a : Addr) (o : HostOperands) (s : State), s.Ready → s.mapper.inv s.cfg = true →
    ∃ i, decode s.cfg.variant (readWord a) o = .ok i ∧
      match busTarget s.cfg.variant .read a s.mapper with
      | .addressSpace x => ∃ ds, exec i s = .next (s.afterRead (s.retrieve x) ds)
      | .rom x =>
        if x < s.cfg.romLen then ∃ ds, exec i s = .next (s.afterRead (Memory.read .rom s.cfg.rom x) ds)
        else exec i s = .fault (.romOutOfRange x)
      | .ram x => x < ramSize s.cfg ∧ ∃ ds, exec i s = .next (s.afterRead (s.mapper.ramRead x) ds)
      | .sentinel b => ∃ ds, exec i s = .next (s.afterRead b ds)
      | .register _ => False
      | .drop => False

/-- R82, R91: a bus write of any address changes what the translator says and nothing else: one AddressSpace byte, one RAM byte, the
control state of the register named, or nothing. A control write also ends every view (R180; the spec's own choice D17, log 17), and only one
to the RAM-enable register can emit an event. -/
def Obligations.BusWriteFollowsTranslator : Prop :=
  ∀ (a : Addr) (v : Byte) (o : HostOperands) (s : State), s.Ready → s.mapper.inv s.cfg = true →
    ∃ i, decode s.cfg.variant (writeWord a v) o = .ok i ∧
      match busTarget s.cfg.variant .write a s.mapper with
      | .addressSpace x =>
        ∃ ds, exec i s =
          .next { s with addressSpace := Memory.write .addressSpace s.addressSpace x v, out := { diagnostics := ds } }
      | .ram x =>
        x < ramSize s.cfg ∧
        ∃ ds, exec i s = .next { s with
          mapper := { s.mapper with
            ramBuffer := Memory.write .ram s.mapper.ramBuffer x (if s.cfg.variant = .mbc2 then v &&& 0x0F else v) }
          out := { diagnostics := ds } }
      | .drop => ∃ ds, exec i s = .next { s with out := { diagnostics := ds } }
      | .register r =>
        ∃ m es ds, exec i s = .next (s.afterControl m { events := es, diagnostics := ds }) ∧
          m.ramBuffer = s.mapper.ramBuffer ∧ m.ramChangedCallback = s.mapper.ramChangedCallback ∧
          (r ≠ .ramEnable → m.ramEnabled = s.mapper.ramEnabled ∧ es = []) ∧
          (r ≠ .mode → m.bankingMode = s.mapper.bankingMode) ∧
          (r ≠ .romLow → r ≠ .romSelect → r ≠ .bankHigh → m.currentRomBankIndex = s.mapper.currentRomBankIndex ∧
            m.currentRomByteOffset = s.mapper.currentRomByteOffset) ∧
          (r ≠ .bankHigh → m.currentRamBankIndex = s.mapper.currentRamBankIndex ∧
            m.currentRamByteOffset = s.mapper.currentRamByteOffset ∧ m.higherRomBankBits = s.mapper.higherRomBankBits) ∧
          ((r = .ignored ∨ r = .rejected) → m = s.mapper)
      | .rom _ => False
      | .sentinel _ => False

/-- R160: `read` is total: it returns a byte, or the offset lies at or beyond the image's end and the read faults `RomOutOfRange`. The
fault is the spec's own choice D7 (R97, log 9). -/
def Obligations.BusReadIsTotal : Prop :=
  ∀ (a : Addr) (o : HostOperands) (s : State), s.Ready → s.mapper.inv s.cfg = true →
    ∃ i, decode s.cfg.variant (readWord a) o = .ok i ∧
      ((∃ t b, exec i s = .next t ∧ t.out.result = .byte b) ∨
        ∃ x, s.cfg.romLen ≤ x ∧ exec i s = .fault (.romOutOfRange x))

/-- R161: `write` is total and always completes. -/
def Obligations.BusWriteAlwaysCompletes : Prop :=
  ∀ (a : Addr) (v : Byte) (o : HostOperands) (s : State), s.Ready → s.mapper.inv s.cfg = true →
    ∃ i t, decode s.cfg.variant (writeWord a v) o = .ok i ∧ exec i s = .next t

/-- R90: a read changes nothing but the output, and the same read right after it returns the same byte. -/
def Obligations.ReadsHaveNoSideEffects : Prop :=
  ∀ (i : Instr) (s t : State), Instr.isRead i → exec i s = .next t →
    t = { s with out := t.out } ∧ exec i t = .next t

/-- R3, R49, R98: no operation of the table writes the configuration, the ROM image in it, or the life of the instance, nor the queue
(log 2); a ROM view cannot be written through: that it is read-only is the spec's own choice D16, the refusal `ReadOnlyView` the model's
(log 17). -/
def Obligations.RomAndConfigurationAreNeverWritten : Prop :=
  (∀ (i : Instr) (s t : State), exec i s = .next t → t.cfg = s.cfg ∧ t.live = s.live ∧ t.input = s.input) ∧
  (∀ (handle k : Nat) (x : Byte) (s t : State), viewWrite handle k x s = .next t → t.cfg = s.cfg) ∧
  (∀ (j k : Nat) (x : Byte) (s : State) (v : View), s.liveViews[j]? = some v → v.space ≠ .ram → k < v.length →
    viewWrite (s.viewsEnded + j) k x s = .refused .readOnlyView)

/-- R31, R32, the column "written by": which operations can change each field of the mapper state. -/
def Obligations.MapperFieldWriters : Prop :=
  ∀ (i : Instr) (s t : State), exec i s = .next t →
    (t.mapper.ramEnabled ≠ s.mapper.ramEnabled →
      i.mnemonic ∈ ["MBC1.WR_RAMEN", "MBC2.WR_RAMEN", "RESET", "LOAD_STATE"]) ∧
    ((t.mapper.currentRomBankIndex ≠ s.mapper.currentRomBankIndex ∨
        t.mapper.currentRomByteOffset ≠ s.mapper.currentRomByteOffset) →
      i.mnemonic ∈ ["MBC1.WR_ROMLO", "MBC1.WR_BANKHI", "MBC2.WR_ROMSEL", "RESET", "LOAD_STATE"]) ∧
    (t.mapper.bankingMode ≠ s.mapper.bankingMode → i.mnemonic ∈ ["MBC1.WR_MODE", "RESET", "LOAD_STATE"]) ∧
    ((t.mapper.currentRamBankIndex ≠ s.mapper.currentRamBankIndex ∨
        t.mapper.currentRamByteOffset ≠ s.mapper.currentRamByteOffset ∨
        t.mapper.higherRomBankBits ≠ s.mapper.higherRomBankBits) →
      i.mnemonic ∈ ["MBC1.WR_BANKHI", "RESET", "LOAD_STATE"]) ∧
    (t.mapper.ramBuffer ≠ s.mapper.ramBuffer →
      i.mnemonic ∈ ["MBC1.WR_RAM", "MBC2.WR_RAM", "LOAD_BATTERY", "LOAD_STATE"]) ∧
    (t.mapper.ramChangedCallback ≠ s.mapper.ramChangedCallback → i.mnemonic = "SET_CALLBACK") ∧
    (t.addressSpace ≠ s.addressSpace →
      i.mnemonic ∈ ["MBC1.WR_EXT_8000", "MBC1.WR_EXT_C000", "MBC2.WR_EXT_8000", "MBC2.WR_EXT_C000"])

/-- R33, R86: while `ramEnabled` is false no bus access touches `ramBuffer`, a read of the RAM window returns 0xFF and a write to it
completes and is dropped. -/
def Obligations.DisabledRamIsUntouched : Prop :=
  (∀ (i : Instr) (s t : State), (Instr.isRead i ∨ Instr.isWrite i) → s.mapper.ramEnabled = false → exec i s = .next t →
    t.mapper.ramBuffer = s.mapper.ramBuffer) ∧
  (∀ (a : Addr) (v : Byte) (s : State), s.Ready → s.mapper.ramEnabled = false → 0xA000 ≤ a.toNat →
    a.toNat ≤ (match s.cfg.variant with | .mbc1 => 0xBFFF | .mbc2 => 0xA1FF) →
    ∃ r w ds ds', decode s.cfg.variant (readWord a) {} = .ok r ∧ exec r s = .next (s.afterRead 0xFF ds) ∧
      decode s.cfg.variant (writeWord a v) {} = .ok w ∧ exec w s = .next { s with out := { diagnostics := ds' } })

/-- R168: nothing reads what an earlier operation produced, its diagnostics included. -/
def Obligations.OutputsAreNeverRead : Prop :=
  ∀ (i : Instr) (s : State) (o : Output), exec i { s with out := o } = exec i s

/-- R168: which event each operation records. The spec makes the events optional; that the model records them is its own choice
(log 20). -/
def Obligations.DiagnosticKinds : Prop :=
  ∀ (i : Instr) (s t : State), exec i s = .next t →
    t.out.diagnostics.length ≤ 1 ∧
    (.disabledRamRead ∈ t.out.diagnostics ↔
      i.mnemonic ∈ ["MBC1.RD_RAM", "MBC2.RD_RAM"] ∧ s.mapper.ramEnabled = false) ∧
    (.disabledRamWrite ∈ t.out.diagnostics ↔
      i.mnemonic ∈ ["MBC1.WR_RAM", "MBC2.WR_RAM"] ∧ s.mapper.ramEnabled = false) ∧
    (.smallRamOutOfRange ∈ t.out.diagnostics ↔
      ∃ a, (i = .mbc1RdRam a ∨ ∃ v, i = .mbc1WrRam a v) ∧ s.mapper.ramEnabled = true ∧ s.mapper.bankingMode = 0 ∧
        s.cfg.ramSizeClass = 1 ∧ 0xA800 ≤ a.toNat) ∧
    (.modeOneRejected ∈ t.out.diagnostics ↔
      ∃ a v, i = .mbc1WrMode a v ∧ v.toNat % 2 = 1 ∧ s.cfg.ramSizeClass ≠ 3) ∧
    (.nonAddressableRead ∈ t.out.diagnostics ↔ i.mnemonic = "MBC2.RD_RAM_NA") ∧
    (.nonAddressableWrite ∈ t.out.diagnostics ↔ i.mnemonic = "MBC2.WR_RAM_NA") ∧
    (.romRegionWriteRejected ∈ t.out.diagnostics ↔ i.mnemonic = "MBC2.WR_ROM_REJ")

/-! ## Delegation -/

/-- R162: a read of the fixed window returns the AddressSpace's byte, in either variant and mode. -/
def Obligations.FixedWindowReads : Prop :=
  ∀ (a : Addr) (o : HostOperands) (s : State), s.Ready → a.toNat ≤ 0x3FFF →
    (s.cfg.variant = .mbc1 →
      decode .mbc1 (readWord a) o = .ok (.mbc1RdRom0 a) ∧
      ∃ ds, exec (.mbc1RdRom0 a) s = .next (s.afterRead (s.retrieve a.toNat) ds)) ∧
    (s.cfg.variant = .mbc2 →
      decode .mbc2 (readWord a) o = .ok (.mbc2RdRom0 a) ∧
      ∃ ds, exec (.mbc2RdRom0 a) s = .next (s.afterRead (s.retrieve a.toNat) ds))

/-- R163: a read outside the cartridge windows returns the AddressSpace's byte. -/
def Obligations.ExternalReads : Prop :=
  ∀ (a : Addr) (o : HostOperands) (s : State), s.Ready →
    (s.cfg.variant = .mbc1 → 0x8000 ≤ a.toNat → a.toNat ≤ 0x9FFF →
      decode .mbc1 (readWord a) o = .ok (.mbc1RdExt8000 a) ∧
      ∃ ds, exec (.mbc1RdExt8000 a) s = .next (s.afterRead (s.retrieve a.toNat) ds)) ∧
    (s.cfg.variant = .mbc1 → 0xC000 ≤ a.toNat →
      decode .mbc1 (readWord a) o = .ok (.mbc1RdExtC000 a) ∧
      ∃ ds, exec (.mbc1RdExtC000 a) s = .next (s.afterRead (s.retrieve a.toNat) ds)) ∧
    (s.cfg.variant = .mbc2 → 0x8000 ≤ a.toNat → a.toNat ≤ 0x9FFF →
      decode .mbc2 (readWord a) o = .ok (.mbc2RdExt8000 a) ∧
      ∃ ds, exec (.mbc2RdExt8000 a) s = .next (s.afterRead (s.retrieve a.toNat) ds)) ∧
    (s.cfg.variant = .mbc2 → 0xC000 ≤ a.toNat →
      decode .mbc2 (readWord a) o = .ok (.mbc2RdExtC000 a) ∧
      ∃ ds, exec (.mbc2RdExtC000 a) s = .next (s.afterRead (s.retrieve a.toNat) ds))

/-- R164: a write outside the cartridge windows stores `v` at `a` in the AddressSpace, whose other bytes stay, and changes no mapper
state. -/
def Obligations.ExternalWrites : Prop :=
  ∀ (a : Addr) (v : Byte) (o : HostOperands) (s : State), s.Ready →
    Memory.wf .addressSpace addressSpaceSize s.addressSpace = true →
    ∃ mem, (∀ x, Memory.read .addressSpace mem x = if x = a.toNat then v else s.retrieve x) ∧
      (s.cfg.variant = .mbc1 → 0x8000 ≤ a.toNat → a.toNat ≤ 0x9FFF →
        decode .mbc1 (writeWord a v) o = .ok (.mbc1WrExt8000 a v) ∧
        ∃ ds, exec (.mbc1WrExt8000 a v) s = .next { s with addressSpace := mem, out := { diagnostics := ds } }) ∧
      (s.cfg.variant = .mbc1 → 0xC000 ≤ a.toNat →
        decode .mbc1 (writeWord a v) o = .ok (.mbc1WrExtC000 a v) ∧
        ∃ ds, exec (.mbc1WrExtC000 a v) s = .next { s with addressSpace := mem, out := { diagnostics := ds } }) ∧
      (s.cfg.variant = .mbc2 → 0x8000 ≤ a.toNat → a.toNat ≤ 0x9FFF →
        decode .mbc2 (writeWord a v) o = .ok (.mbc2WrExt8000 a v) ∧
        ∃ ds, exec (.mbc2WrExt8000 a v) s = .next { s with addressSpace := mem, out := { diagnostics := ds } }) ∧
      (s.cfg.variant = .mbc2 → 0xC000 ≤ a.toNat →
        decode .mbc2 (writeWord a v) o = .ok (.mbc2WrExtC000 a v) ∧
        ∃ ds, exec (.mbc2WrExtC000 a v) s = .next { s with addressSpace := mem, out := { diagnostics := ds } })

/-! ## RAM enable -/

/-- R165, R221, R270: a honoured RAM-enable write sets `ramEnabled` exactly when the low nibble is 0xA, notifies the observer on a falling
edge, and changes nothing else but that every view ends (R180; the spec's own choice D17, log 17). That an MBC2 notifies too is DEDUCED by the
spec (R166, log 28). -/
def Obligations.RamEnableWrites : Prop :=
  ∀ (a : Addr) (v : Byte) (o : HostOperands) (s : State), s.Ready → a.toNat ≤ 0x1FFF → a.getLsbD 8 = false →
    (s.cfg.variant = .mbc1 →
      decode .mbc1 (writeWord a v) o = .ok (.mbc1WrRamen a v) ∧
      ∃ ds, exec (.mbc1WrRamen a v) s = .next (s.afterControl
        { s.mapper with ramEnabled := decide (v.toNat % 16 = 0xA) }
        { events := if s.mapper.ramEnabled = true ∧ v.toNat % 16 ≠ 0xA then s.notified else [], diagnostics := ds })) ∧
    (s.cfg.variant = .mbc2 →
      decode .mbc2 (writeWord a v) o = .ok (.mbc2WrRamen a v) ∧
      ∃ ds, exec (.mbc2WrRamen a v) s = .next (s.afterControl
        { s.mapper with ramEnabled := decide (v.toNat % 16 = 0xA) }
        { events := if s.mapper.ramEnabled = true ∧ v.toNat % 16 ≠ 0xA then s.notified else [], diagnostics := ds }))

/-- R166: an event is emitted only by a honoured RAM-enable write on the edge true to false with an observer registered, then exactly one,
to that observer, and the flag is already false. That MBC2.WR_RAMEN notifies as MBC1.WR_RAMEN does is DEDUCED by the spec (N18, log 28). -/
def Obligations.RamChangedOnlyOnFallingEdge : Prop :=
  ∀ (i : Instr) (s t : State), exec i s = .next t → ∀ h,
    (t.out.events = [.ramChanged h] ↔
      (i.mnemonic = "MBC1.WR_RAMEN" ∨ i.mnemonic = "MBC2.WR_RAMEN") ∧ s.mapper.ramEnabled = true ∧
        t.mapper.ramEnabled = false ∧ s.mapper.ramChangedCallback = some h) ∧
    (t.out.events = [] ∨ ∃ h, t.out.events = [.ramChanged h])

/-- R224, R271, R273, R274: the ignored and rejected writes to 0x0000–0x7FFF complete and change nothing but that every view ends
(R180; the spec's own choice D17, log 17); they reach neither AddressSpace nor ROM. -/
def Obligations.IgnoredControlWrites : Prop :=
  ∀ (a : Addr) (v : Byte) (o : HostOperands) (s : State), s.Ready →
    (s.cfg.variant = .mbc1 → a.toNat ≤ 0x1FFF → a.getLsbD 8 = true →
      decode .mbc1 (writeWord a v) o = .ok (.mbc1WrRamenAlias a v) ∧
      ∃ ds, exec (.mbc1WrRamenAlias a v) s = .next (s.afterControl s.mapper { diagnostics := ds })) ∧
    (s.cfg.variant = .mbc2 → a.toNat ≤ 0x1FFF → a.getLsbD 8 = true →
      decode .mbc2 (writeWord a v) o = .ok (.mbc2WrRamenAlias a v) ∧
      ∃ ds, exec (.mbc2WrRamenAlias a v) s = .next (s.afterControl s.mapper { diagnostics := ds })) ∧
    (s.cfg.variant = .mbc2 → 0x2000 ≤ a.toNat → a.toNat ≤ 0x3FFF → a.getLsbD 8 = false →
      decode .mbc2 (writeWord a v) o = .ok (.mbc2WrRomselAlias a v) ∧
      ∃ ds, exec (.mbc2WrRomselAlias a v) s = .next (s.afterControl s.mapper { diagnostics := ds })) ∧
    (s.cfg.variant = .mbc2 → 0x4000 ≤ a.toNat → a.toNat ≤ 0x7FFF →
      decode .mbc2 (writeWord a v) o = .ok (.mbc2WrRomRej a v) ∧
      ∃ ds, exec (.mbc2WrRomRej a v) s = .next (s.afterControl s.mapper { diagnostics := ds }))

/-! ## MBC1 banking -/

/-- R222: the combined index, promoted by one where it is 0x00, 0x20, 0x40 or 0x60, then reduced to the ROM-bank count; the offset is
written with the index. -/
def Obligations.Mbc1RomIndexPromotesThenMasks : Prop :=
  (∀ (c : Cfg) (low5 high2 : Nat), c.wf = true → low5 < 32 → high2 < 4 →
    mbc1RomIndex c low5 high2 = (if low5 = 0 then 32 * high2 + 1 else 32 * high2 + low5) % c.romBankCount ∧
    mbc1RomIndex c low5 high2 ≤ 0x7F) ∧
  (∀ (m : Mapper) (x : Nat),
    m.setRom x = { m with currentRomBankIndex := x, currentRomByteOffset := 0x4000 * x })

/-- R231: with 128 banks the selectable indices are exactly 0x01..0x7F without 0x20, 0x40, 0x60: 124 of them. -/
def Obligations.Mbc1Capacity : Prop :=
  ∀ n ∈ List.range 256,
    ((∃ l ∈ List.range 32, ∃ h ∈ List.range 4, mbc1RomIndex resetCfg l h = n) ↔
      1 ≤ n ∧ n ≤ 0x7F ∧ n ≠ 0x20 ∧ n ≠ 0x40 ∧ n ≠ 0x60)

/-- R223: a low ROM bank select uses `v[4:0]` and, in mode 0 only, the cached high bits, which it does not write. Every
view ends (R180; the spec's own choice D17, log 17). -/
def Obligations.Mbc1LowRomBankSelect : Prop :=
  ∀ (a : Addr) (v : Byte) (o : HostOperands) (s : State), s.Ready → s.cfg.variant = .mbc1 →
    0x2000 ≤ a.toNat → a.toNat ≤ 0x3FFF →
    decode .mbc1 (writeWord a v) o = .ok (.mbc1WrRomlo a v) ∧
    ∃ ds, exec (.mbc1WrRomlo a v) s = .next (s.afterControl
      (s.mapper.setRom (mbc1RomIndex s.cfg (v.toNat % 32)
        (if s.mapper.bankingMode = 0 then s.mapper.higherRomBankBits else 0))) { diagnostics := ds })

/-- R225: in mode 1 the low two bits select the RAM bank; in mode 0 they become the high ROM bits and are folded with the low five bits of
the current index (the last by the spec's own choice D27, log 22). Every view ends (R180; the spec's own choice D17, log 17). -/
def Obligations.Mbc1BankHighWrite : Prop :=
  ∀ (a : Addr) (v : Byte) (o : HostOperands) (s : State), s.Ready → s.cfg.variant = .mbc1 →
    0x4000 ≤ a.toNat → a.toNat ≤ 0x5FFF →
    decode .mbc1 (writeWord a v) o = .ok (.mbc1WrBankhi a v) ∧
    (s.mapper.bankingMode = 1 → ∃ ds, exec (.mbc1WrBankhi a v) s = .next (s.afterControl
      { s.mapper with
        currentRamBankIndex := v.toNat % 4 &&& (s.cfg.ramBankCount - 1)
        currentRamByteOffset := (v.toNat % 4 &&& (s.cfg.ramBankCount - 1)) * 0x2000 } { diagnostics := ds })) ∧
    (s.mapper.bankingMode ≠ 1 → ∃ ds, exec (.mbc1WrBankhi a v) s = .next (s.afterControl
      { s.mapper with
        higherRomBankBits := v.toNat % 4
        currentRomBankIndex := mbc1RomIndex s.cfg (s.mapper.currentRomBankIndex % 32) (v.toNat % 4)
        currentRomByteOffset := mbc1RomIndex s.cfg (s.mapper.currentRomBankIndex % 32) (v.toNat % 4) * 0x4000 }
      { diagnostics := ds }))

/-- R226: `v[0]` is the requested mode; mode 1 is taken only with size class 3, else the mode stays; no bank or offset changes (the
bit and the lack of recomputation: the spec's own choices D4 and D5, log 7). Every view ends (R180; the spec's own choice D17, log 17). -/
def Obligations.Mbc1ModeSelect : Prop :=
  ∀ (a : Addr) (v : Byte) (o : HostOperands) (s : State), s.Ready → s.cfg.variant = .mbc1 →
    0x6000 ≤ a.toNat → a.toNat ≤ 0x7FFF →
    decode .mbc1 (writeWord a v) o = .ok (.mbc1WrMode a v) ∧
    ∃ ds, exec (.mbc1WrMode a v) s = .next (s.afterControl
      (if v.toNat % 2 = 1 ∧ s.cfg.ramSizeClass ≠ 3 then s.mapper
       else { s.mapper with bankingMode := v.toNat % 2 }) { diagnostics := ds })

/-- R230: after any sequence of MBC1 bus operations, a mode-0 low ROM bank select uses the high bits last written outside mode 1, or the
ones the sequence started with (0 after construction and RESET). -/
def Obligations.Mbc1ModeSwitchLaw : Prop :=
  ∀ (ops : List Instr) (s t : State) (a : Addr) (v : Byte), s.Ready → s.cfg.variant = .mbc1 →
    (∀ i ∈ ops, Instr.isRead i ∨ Instr.isWrite i) → runOps ops s = some t → t.mapper.bankingMode = 0 →
    0x2000 ≤ a.toNat → a.toNat ≤ 0x3FFF →
    ∃ u, exec (.mbc1WrRomlo a v) t = .next u ∧
      u.mapper.currentRomBankIndex =
        mbc1RomIndex s.cfg (v.toNat % 32) (lastHighBits s.mapper.higherRomBankBits ops s)

/-! ## The switchable ROM window -/

/-- R83, R97, R227, R275: a read of 0x4000–0x7FFF returns the image's byte at `(a - 0x4000) + currentRomByteOffset`, and faults at and
beyond the image's end (the fault is the spec's own choice D7, log 9). -/
def Obligations.SwitchableRomReads : Prop :=
  ∀ (a : Addr) (o : HostOperands) (s : State), s.Ready → 0x4000 ≤ a.toNat → a.toNat ≤ 0x7FFF →
    (s.cfg.variant = .mbc1 →
      decode .mbc1 (readWord a) o = .ok (.mbc1RdRomx a) ∧
      (a.toNat - 0x4000 + s.mapper.currentRomByteOffset < s.cfg.romLen → ∃ ds, exec (.mbc1RdRomx a) s =
        .next (s.afterRead (Memory.read .rom s.cfg.rom (a.toNat - 0x4000 + s.mapper.currentRomByteOffset)) ds)) ∧
      (s.cfg.romLen ≤ a.toNat - 0x4000 + s.mapper.currentRomByteOffset →
        exec (.mbc1RdRomx a) s = .fault (.romOutOfRange (a.toNat - 0x4000 + s.mapper.currentRomByteOffset)))) ∧
    (s.cfg.variant = .mbc2 →
      decode .mbc2 (readWord a) o = .ok (.mbc2RdRomx a) ∧
      (a.toNat - 0x4000 + s.mapper.currentRomByteOffset < s.cfg.romLen → ∃ ds, exec (.mbc2RdRomx a) s =
        .next (s.afterRead (Memory.read .rom s.cfg.rom (a.toNat - 0x4000 + s.mapper.currentRomByteOffset)) ds)) ∧
      (s.cfg.romLen ≤ a.toNat - 0x4000 + s.mapper.currentRomByteOffset →
        exec (.mbc2RdRomx a) s = .fault (.romOutOfRange (a.toNat - 0x4000 + s.mapper.currentRomByteOffset))))

/-! ## The RAM window -/

/-- R84, R228: an MBC1 RAM read returns 0xFF while disabled, the byte at `a - 0xA000` in mode 0, and the byte at
`(a - 0xA000) + currentRamByteOffset` in mode 1. -/
def Obligations.Mbc1RamReads : Prop :=
  ∀ (a : Addr) (o : HostOperands) (s : State), s.Ready → s.cfg.variant = .mbc1 → s.mapper.inv s.cfg = true →
    0xA000 ≤ a.toNat → a.toNat ≤ 0xBFFF →
    decode .mbc1 (readWord a) o = .ok (.mbc1RdRam a) ∧
    ∃ ds, exec (.mbc1RdRam a) s = .next (s.afterRead
      (if s.mapper.ramEnabled = false then 0xFF
       else if s.mapper.bankingMode = 0 then s.mapper.ramRead (a.toNat - 0xA000)
       else s.mapper.ramRead (a.toNat - 0xA000 + s.mapper.currentRamByteOffset)) ds)

/-- R84, R229: an MBC1 RAM write is dropped while disabled; else it stores all of `v` at the index of R84, every other byte stays, and
nothing else changes. -/
def Obligations.Mbc1RamWrites : Prop :=
  ∀ (a : Addr) (v : Byte) (o : HostOperands) (s : State), s.Ready → s.cfg.variant = .mbc1 → s.mapper.inv s.cfg = true →
    0xA000 ≤ a.toNat → a.toNat ≤ 0xBFFF →
    decode .mbc1 (writeWord a v) o = .ok (.mbc1WrRam a v) ∧
    (s.mapper.ramEnabled = false → ∃ ds, exec (.mbc1WrRam a v) s = .next { s with out := { diagnostics := ds } }) ∧
    (s.mapper.ramEnabled = true →
      ∃ mem ds, exec (.mbc1WrRam a v) s =
          .next { s with mapper := { s.mapper with ramBuffer := mem }, out := { diagnostics := ds } } ∧
        ∀ x, Memory.read .ram mem x =
          if x = (if s.mapper.bankingMode = 0 then a.toNat - 0xA000
                  else a.toNat - 0xA000 + s.mapper.currentRamByteOffset) then v
          else s.mapper.ramRead x)

/-- R272: the MBC2 ROM select takes `v[3:0]`, promotes 0 to 1 and reduces to the ROM-bank count (the mask is the spec's own choice D26,
log 21). Every view ends (R180; the spec's own choice D17, log 17). -/
def Obligations.Mbc2RomSelect : Prop :=
  ∀ (a : Addr) (v : Byte) (o : HostOperands) (s : State), s.Ready → s.cfg.variant = .mbc2 →
    0x2000 ≤ a.toNat → a.toNat ≤ 0x3FFF → a.getLsbD 8 = true →
    decode .mbc2 (writeWord a v) o = .ok (.mbc2WrRomsel a v) ∧
    ∃ x ds, x = (if v.toNat % 16 = 0 then 1 else v.toNat % 16) % s.cfg.romBankCount ∧ x ≤ 0x0F ∧
      exec (.mbc2WrRomsel a v) s = .next (s.afterControl
        { s.mapper with currentRomBankIndex := x, currentRomByteOffset := x * 0x4000 } { diagnostics := ds })

/-- R85, R276: an MBC2 RAM read returns 0xFF while disabled, else the stored byte unmasked. -/
def Obligations.Mbc2RamReads : Prop :=
  ∀ (a : Addr) (o : HostOperands) (s : State), s.Ready → s.cfg.variant = .mbc2 → 0xA000 ≤ a.toNat → a.toNat ≤ 0xA1FF →
    decode .mbc2 (readWord a) o = .ok (.mbc2RdRam a) ∧
    ∃ ds, exec (.mbc2RdRam a) s = .next (s.afterRead
      (if s.mapper.ramEnabled = false then 0xFF else s.mapper.ramRead (a.toNat - 0xA000)) ds)

/-- R85, R277: an MBC2 RAM write is dropped while disabled; else it stores the low nibble with upper nibble 0, and every other byte
stays. -/
def Obligations.Mbc2RamWrites : Prop :=
  ∀ (a : Addr) (v : Byte) (o : HostOperands) (s : State), s.Ready → s.cfg.variant = .mbc2 →
    Memory.wf .ram 0x200 s.mapper.ramBuffer = true → 0xA000 ≤ a.toNat → a.toNat ≤ 0xA1FF →
    decode .mbc2 (writeWord a v) o = .ok (.mbc2WrRam a v) ∧
    (s.mapper.ramEnabled = false → ∃ ds, exec (.mbc2WrRam a v) s = .next { s with out := { diagnostics := ds } }) ∧
    (s.mapper.ramEnabled = true →
      ∃ mem ds, exec (.mbc2WrRam a v) s =
          .next { s with mapper := { s.mapper with ramBuffer := mem }, out := { diagnostics := ds } } ∧
        ∀ x, Memory.read .ram mem x = if x = a.toNat - 0xA000 then v &&& 0x0F else s.mapper.ramRead x)

/-- R278, R279, R280: at and above 0xA200 an MBC2 read returns 0x00 and a write is dropped, whatever `ramEnabled` is. -/
def Obligations.Mbc2NonAddressableAccesses : Prop :=
  ∀ (a : Addr) (v : Byte) (o : HostOperands) (s : State), s.Ready → s.cfg.variant = .mbc2 →
    0xA200 ≤ a.toNat → a.toNat ≤ 0xBFFF →
    decode .mbc2 (readWord a) o = .ok (.mbc2RdRamNa a) ∧
    decode .mbc2 (writeWord a v) o = .ok (.mbc2WrRamNa a v) ∧
    (∃ ds, exec (.mbc2RdRamNa a) s = .next (s.afterRead 0x00 ds)) ∧
    (∃ ds, exec (.mbc2WrRamNa a v) s = .next { s with out := { diagnostics := ds } })

/-! ## Reset and life -/

/-- R341: RESET sets the selector state, keeps `ramBuffer` and the callback, emits no event and ends every view, whatever
`isColorMode` is (the spec's own choices: D3, log 6; D6, log 8; D15, log 16; D17, log 17). -/
def Obligations.SoftReset : Prop :=
  ∀ (b : Bool) (s : State), s.Ready →
    (s.cfg.variant = .mbc1 → ∃ ds, exec (.reset b) s = .next (s.afterControl
      { ramEnabled := false, currentRomBankIndex := 1, currentRomByteOffset := 0x4000, bankingMode := 0,
        currentRamBankIndex := 0, currentRamByteOffset := 0, higherRomBankBits := 0,
        ramBuffer := s.mapper.ramBuffer, ramChangedCallback := s.mapper.ramChangedCallback } { diagnostics := ds })) ∧
    (s.cfg.variant = .mbc2 → ∃ ds, exec (.reset b) s = .next (s.afterControl
      { s.mapper with ramEnabled := false, currentRomBankIndex := 1, currentRomByteOffset := 0x4000 }
      { diagnostics := ds }))

/-- R342: two consecutive RESETs leave the state one leaves, and a RESET is always allowed on a ready machine. -/
def Obligations.ResetIsIdempotent : Prop :=
  ∀ (b b' : Bool) (s : State), s.Ready →
    ∃ t, exec (.reset b) s = .next t ∧ exec (.reset b') t = .next t

/-- R324, R93, R321: a power cycle acts as RESET (the spec's own choice D19, log 18); overlapping operations are refused (D22, log 19). -/
def Obligations.PowerCycleAndOverlap : Prop :=
  (∀ (b : Bool) (s : State) (rest : List Request), s.input = .powerCycle :: rest →
    step s = exec (.reset b) { s with input := rest }) ∧
  (∀ (x y : Nat) (s : State) (rest : List Request), s.input = .overlapping x y :: rest →
    step s = .refused .concurrentAccess)

/-- R340, R10: construction is refused for an ill-formed configuration (which ones are is in part the spec's own choice D8, log 10); else it
gives a live mapper with a buffer of 0xFF, no callback and the banking values of RESET (D15, log 16; D23, log 35; the four MBC1 fields are 0
on an MBC2 too, log 24), no event, and the rest as it was: the AddressSpace, the queue behind the request, and the count of ended views
(log 17). -/
def Obligations.Construction : Prop :=
  ∀ (c : Cfg) (s : State) (rest : List Request), s.input = .construct c :: rest → s.live = false →
    (c.wf = false → step s = .refused .illFormedConfig) ∧
    (c.wf = true → ∃ t buffer ds, step s = .next t ∧
      t = { s with
        cfg := c
        live := true
        mapper := { ramEnabled := false, currentRomBankIndex := 1, currentRomByteOffset := 0x4000, bankingMode := 0,
                    currentRamBankIndex := 0, currentRamByteOffset := 0, higherRomBankBits := 0,
                    ramBuffer := buffer, ramChangedCallback := none }
        liveViews := []
        viewsEnded := s.viewsEnded + s.liveViews.length
        input := rest
        out := { diagnostics := ds } } ∧
      (∀ x, Memory.read .ram buffer x = 0xFF) ∧
      ∃ u, exec (.reset false) t = .next u ∧ u.mapper = t.mapper)

/-- R343, R180 (d): destruction releases `ramBuffer` (the model's empty list, log 18) and leaves the rest; after it no operation is defined, a
power cycle and a second destruction included, and every view has ended, so any read or write through one is the fault `StaleView`
(D17, log 17). R30: construction on a live machine is refused. The names of the two refusals are the model's (log 18). -/
def Obligations.LifeOfTheInstance : Prop :=
  (∀ s : State, s.live = true → ∃ t ds, destroy s = .next t ∧
    t = { s with
      live := false
      mapper := { s.mapper with ramBuffer := [] }
      liveViews := []
      viewsEnded := s.viewsEnded + s.liveViews.length
      out := { diagnostics := ds } } ∧
    (∀ i, exec i t = .refused .noInstance) ∧ powerCycle t = .refused .noInstance ∧ destroy t = .refused .noInstance ∧
    (∀ h, h < s.viewsEnded + s.liveViews.length →
      (∀ k, viewRead h k t = .fault .staleView) ∧ ∀ k x, viewWrite h k x t = .fault .staleView)) ∧
  (∀ (c : Cfg) (s : State), s.live = true → construct c s = .refused .alreadyLive)

/-! ## Persistence -/

/-- R170. -/
def Obligations.BatteryLength : Prop :=
  ∀ c : Cfg, c.wf = true →
    (c.variant = .mbc1 → batteryLen c = c.ramBankCount * 0x2000 ∧ batteryLen c ∈ [0, 0x2000, 0x4000, 0x8000]) ∧
    (c.variant = .mbc2 → batteryLen c = 512)

/-- R169: the sink gains exactly the first `BatteryLen` bytes of `ramBuffer`; nothing else changes. -/
def Obligations.SaveBatteryAppendsTheFootprint : Prop :=
  ∀ (sink : Stream) (s : State), s.Ready →
    ∃ p ds, exec (.saveBattery sink) s = .next { s with out := { stream := some (sink ++ p), diagnostics := ds } } ∧
      p.length = batteryLen s.cfg ∧ ∀ x, x < batteryLen s.cfg → p[x]? = some (s.mapper.ramRead x)

/-- R171, R312: the five cases of LOAD_BATTERY: short legacy stream, legacy load with one byte discarded, mismatch without mutation or
consumption, short stream, load. -/
def Obligations.LoadBatteryCases : Prop :=
  ∀ (src : Stream) (n : Nat) (s : State), s.Ready →
    (n = 0 → src.length < 1 + batteryLen s.cfg → exec (.loadBattery src n) s = .refused .shortStream) ∧
    (n = 0 → 1 + batteryLen s.cfg ≤ src.length →
      ∃ mem ds, exec (.loadBattery src n) s = .next { s with
          mapper := { s.mapper with ramBuffer := mem }
          out := { result := .ok, stream := some (src.drop (1 + batteryLen s.cfg)), diagnostics := ds } } ∧
        ∀ x, if x < batteryLen s.cfg then src[1 + x]? = some (Memory.read .ram mem x)
          else Memory.read .ram mem x = s.mapper.ramRead x) ∧
    (n ≠ 0 → n ≠ batteryLen s.cfg →
      ∃ ds, exec (.loadBattery src n) s = .next { s with
        out := { result := .mismatch (batteryLen s.cfg) n, stream := some src, diagnostics := ds } }) ∧
    (n ≠ 0 → n = batteryLen s.cfg → src.length < batteryLen s.cfg →
      exec (.loadBattery src n) s = .refused .shortStream) ∧
    (n ≠ 0 → n = batteryLen s.cfg → batteryLen s.cfg ≤ src.length →
      ∃ mem ds, exec (.loadBattery src n) s = .next { s with
          mapper := { s.mapper with ramBuffer := mem }
          out := { result := .ok, stream := some (src.drop (batteryLen s.cfg)), diagnostics := ds } } ∧
        ∀ x, if x < batteryLen s.cfg then src[x]? = some (Memory.read .ram mem x)
          else Memory.read .ram mem x = s.mapper.ramRead x)

/-- R181 (a): what SAVE_BATTERY wrote, LOAD_BATTERY with the exact nonzero length puts back into any mapper of the same
configuration. -/
def Obligations.BatteryRoundTrip : Prop :=
  ∀ s s' : State, s.Ready → s'.Ready → s'.cfg = s.cfg → batteryLen s.cfg ≠ 0 →
    ∃ t p u, exec (.saveBattery []) s = .next t ∧ t.out.stream = some p ∧
      exec (.loadBattery p (batteryLen s.cfg)) s' = .next u ∧ u.out.result = .ok ∧
      ∀ x, x < batteryLen s.cfg → u.mapper.ramRead x = s.mapper.ramRead x

/-- R174: an integer of `n` bytes is its base-256 digits in `stateByteOrder`, a Bool is 1 or 0, and a value below half the range reads
back. -/
def Obligations.ScalarEncodings : Prop :=
  ∀ (c : Cfg) (n x : Nat),
    (encodeInt c n x).length = n ∧
    (∀ j, j < n → (encodeInt c n x)[(match c.stateByteOrder with | .little => j | .big => n - 1 - j)]? =
      some (BitVec.ofNat 8 (x / 256 ^ j))) ∧
    encodeBool c true = encodeInt c c.boolBytes 1 ∧ encodeBool c false = encodeInt c c.boolBytes 0 ∧
    (2 * x < 256 ^ n → readInt c (encodeInt c n x) = some x)

/-- R172: the MBC1 record, its eight fields in order, the whole 0x8000-byte buffer, the offsets as stored. -/
def Obligations.SaveStateMbc1Record : Prop :=
  ∀ (sink : Stream) (s : State), s.Ready → s.cfg.variant = .mbc1 →
    ∃ p ds, exec (.saveState sink) s = .next { s with
        out := { stream := some (sink ++
          (encodeInt s.cfg s.cfg.intBytes s.mapper.bankingMode ++
            (encodeInt s.cfg s.cfg.intBytes s.mapper.currentRamBankIndex ++
            (encodeInt s.cfg s.cfg.intBytes s.mapper.currentRomBankIndex ++
            (encodeBool s.cfg s.mapper.ramEnabled ++
            ([BitVec.ofNat 8 s.mapper.higherRomBankBits] ++
            (p ++
            (encodeInt s.cfg s.cfg.intBytes s.mapper.currentRomByteOffset ++
            encodeInt s.cfg s.cfg.intBytes s.mapper.currentRamByteOffset)))))))), diagnostics := ds } } ∧
      p.length = 0x8000 ∧ ∀ x, x < 0x8000 → p[x]? = some (s.mapper.ramRead x)

/-- R173, R174: on MBC2, SAVE_STATE writes the four fields in the configured order, each encoded as R172 encodes it and the whole 0x200-byte
buffer (the model's choice, log 13); both state operations are refused `Unmodelled` where the configuration gives no layout (R173, D11) or
one that is not an order of exactly those four fields (log 13). -/
def Obligations.Mbc2StateRecord : Prop :=
  ∀ (sink src : Stream) (s : State), s.Ready → s.cfg.variant = .mbc2 →
    (∀ l, s.cfg.mbc2StateLayout = some l → l.Perm [.ramEnabled, .currentRomBankIndex, .currentRomByteOffset, .ramBuffer] →
      ∃ p ds, exec (.saveState sink) s = .next { s with
          out := { stream := some (sink ++ l.flatMap (fun
            | .ramEnabled => encodeBool s.cfg s.mapper.ramEnabled
            | .currentRomBankIndex => encodeInt s.cfg s.cfg.intBytes s.mapper.currentRomBankIndex
            | .currentRomByteOffset => encodeInt s.cfg s.cfg.intBytes s.mapper.currentRomByteOffset
            | .ramBuffer => p
            | _ => [])), diagnostics := ds } } ∧
        p.length = 0x200 ∧ ∀ x, x < 0x200 → p[x]? = some (s.mapper.ramRead x)) ∧
    ((∀ l, s.cfg.mbc2StateLayout = some l → ¬ l.Perm [.ramEnabled, .currentRomBankIndex, .currentRomByteOffset, .ramBuffer]) →
      exec (.saveState sink) s = .refused .unmodelled ∧ exec (.loadState src) s = .refused .unmodelled)

/-- R175: LOAD_STATE of the record of a mapper state that meets W1–W8 puts that state in place, keeps the callback (the spec's own choice
D15, log 16), emits no event, ends every view (R180 (c); D17, log 17) and leaves the rest of the stream. -/
def Obligations.LoadStateRestoresRecord : Prop :=
  ∀ (s : State) (m : Mapper) (l : List RecordField) (rest : Stream), s.Ready → recordLayout s.cfg = some l →
    3 ≤ s.cfg.intBytes → 1 ≤ s.cfg.boolBytes → m.inv s.cfg = true → m.mbc1FieldsIdle s.cfg →
    s.mapper.mbc1FieldsIdle s.cfg →
    ∃ ds, exec (.loadState (recordBytes s.cfg l m ++ rest)) s = .next (s.afterControl
      { m with ramChangedCallback := s.mapper.ramChangedCallback } { stream := some rest, diagnostics := ds })

/-- R175: LOAD_STATE refuses a short stream, and of a long enough one it accepts only a record whose state meets W1–W8; any other record, one
whose Bool is neither encoding included, is refused `InvalidStateRecord` (the spec's own choices D13 and D12, logs 15 and 14). The state an
accepted record leaves is the one whose record its bytes are, the callback is kept (D15, log 16), the rest of the stream is left and every
view ends (R180 (c); D17, log 17). -/
def Obligations.LoadStateChecksRecord : Prop :=
  ∀ (src : Stream) (s : State) (l : List RecordField), s.Ready → recordLayout s.cfg = some l →
    (src.length < recordLen s.cfg l → exec (.loadState src) s = .refused .shortStream) ∧
    (recordLen s.cfg l ≤ src.length →
      exec (.loadState src) s = .refused .invalidStateRecord ∨
      ∃ m ds, exec (.loadState src) s = .next (s.afterControl m
          { stream := some (src.drop (recordLen s.cfg l)), diagnostics := ds }) ∧
        m.inv s.cfg = true ∧ recordBytes s.cfg l m = src.take (recordLen s.cfg l) ∧
        m.ramChangedCallback = s.mapper.ramChangedCallback ∧
        (s.mapper.mbc1FieldsIdle s.cfg → m.mbc1FieldsIdle s.cfg))

/-- R181 (b): SAVE_STATE and then LOAD_STATE into a freshly constructed mapper of the same configuration gives the same mapper state but
for the callback, and so the same results for every read of both banked windows. -/
def Obligations.StateRoundTrip : Prop :=
  ∀ s s' : State, s.Ready → s'.Ready → s'.cfg = s.cfg → s'.mapper = Mapper.constructed → s.mapper.inv s.cfg = true →
    s.mapper.mbc1FieldsIdle s.cfg → 3 ≤ s.cfg.intBytes → 1 ≤ s.cfg.boolBytes → (recordLayout s.cfg).isSome = true →
    ∃ t r u, exec (.saveState []) s = .next t ∧ t.out.stream = some r ∧ exec (.loadState r) s' = .next u ∧
      u.mapper = { s.mapper with ramChangedCallback := none } ∧
      ∀ (a : Addr) (i : Instr), decode s.cfg.variant (readWord a) {} = .ok i →
        (0x4000 ≤ a.toNat ∧ a.toNat ≤ 0x7FFF ∨ 0xA000 ≤ a.toNat ∧ a.toNat ≤ 0xBFFF) →
        ∀ b, (∃ x, exec i s = .next x ∧ x.out.result = .byte b) ↔ ∃ x, exec i u = .next x ∧ x.out.result = .byte b

/-! ## Callback and views -/

/-- R167: SET_CALLBACK replaces the observer and changes nothing else; an absent handle is refused; a later falling edge notifies the new
observer only. -/
def Obligations.SetCallback : Prop :=
  ∀ (h : Handle) (s : State), s.Ready →
    (∃ t, exec (.setCallback (some h)) s = .next t ∧
      (∃ ds, t = { s with mapper := { s.mapper with ramChangedCallback := some h }, out := { diagnostics := ds } }) ∧
      ∀ i u e, exec i t = .next u → e ∈ u.out.events → e = .ramChanged h) ∧
    exec (.setCallback none) s = .refused .illFormedOperand

/-- R176, R177, R179: these accessors hand out the view the rule gives, live from here on, and change nothing else. -/
def Obligations.ViewAccessors : Prop :=
  ∀ s : State, s.Ready →
    (∃ ds, exec .viewBank0 s = .next { s with
      liveViews := s.liveViews ++ [⟨.addressSpace, 0, 0x4000, true⟩]
      out := { result := .view (s.viewsEnded + s.liveViews.length) ⟨.addressSpace, 0, 0x4000, true⟩
               diagnostics := ds } }) ∧
    (∃ ds, exec .viewRomx s = .next { s with
      liveViews := s.liveViews ++ [⟨.rom, s.mapper.currentRomByteOffset, 0x4000, true⟩]
      out := { result := .view (s.viewsEnded + s.liveViews.length) ⟨.rom, s.mapper.currentRomByteOffset, 0x4000, true⟩
               diagnostics := ds } }) ∧
    (∀ n, n = (match s.cfg.variant with | .mbc1 => 0x8000 | .mbc2 => 0x200) → ∃ ds, exec .viewRamAll s = .next { s with
      liveViews := s.liveViews ++ [⟨.ram, 0, n, false⟩]
      out := { result := .view (s.viewsEnded + s.liveViews.length) ⟨.ram, 0, n, false⟩
               diagnostics := ds } })

/-- R178: the view of the switchable RAM bank, or no view on an MBC1 cartridge without RAM. -/
def Obligations.SwitchableRamView : Prop :=
  ∀ s : State, s.Ready →
    (s.cfg.variant = .mbc1 → s.cfg.ramBankCount = 0 →
      ∃ ds, exec .viewRamx s = .next { s with out := { result := .noView, diagnostics := ds } }) ∧
    (∀ v, (s.cfg.variant = .mbc1 ∧ s.cfg.ramBankCount ≠ 0 ∧
          v = ⟨.ram, s.mapper.currentRamByteOffset, 0x2000, false⟩) ∨
        (s.cfg.variant = .mbc2 ∧ v = ⟨.ram, 0, 0x200, false⟩) →
      ∃ ds, exec .viewRamx s = .next { s with
        liveViews := s.liveViews ++ [v]
        out := { result := .view (s.viewsEnded + s.liveViews.length) v, diagnostics := ds } })

/-- R176, R177: while it is valid, byte `k` of the fixed-window view is what a read of `k` gives, and byte `k` of the ROM view what a read of
`0x4000 + k` gives, its fault included (the fault: the spec's own choice D7, log 9). -/
def Obligations.ViewsAgreeWithBusReads : Prop :=
  ∀ (s : State) (j k : Nat) (v : View) (i : Instr), s.Inv → s.Ready → s.liveViews[j]? = some v → k < 0x4000 →
    (v.space = .addressSpace → decode s.cfg.variant (readWord (BitVec.ofNat 16 k)) {} = .ok i →
      viewRead (s.viewsEnded + j) k s = exec i s) ∧
    (v.space = .rom → decode s.cfg.variant (readWord (BitVec.ofNat 16 (0x4000 + k))) {} = .ok i →
      viewRead (s.viewsEnded + j) k s = exec i s)

/-- R178, R179: an access through a RAM view passes no gate and no mask: a read returns the byte of `ramBuffer`, a write sets it and leaves
every other byte. -/
def Obligations.RamViewsBypassTheGate : Prop :=
  ∀ (s : State) (j k : Nat) (v : View) (x : Byte), s.Inv → s.Ready → s.liveViews[j]? = some v → v.space = .ram →
    k < v.length →
    viewRead (s.viewsEnded + j) k s = .next (s.afterRead (s.mapper.ramRead (v.base + k)) []) ∧
    ∃ mem, viewWrite (s.viewsEnded + j) k x s =
        .next { s with mapper := { s.mapper with ramBuffer := mem }, out := {} } ∧
      ∀ y, Memory.read .ram mem y = if y = v.base + k then x else s.mapper.ramRead y

/-- R180: a bus write to 0x0000–0x7FFF, RESET and LOAD_STATE end every view handed out so far, whose use is then the fault `StaleView`; no
other operation ends one (the set is the spec's own choice D17, log 17). -/
def Obligations.ViewsEndExactlyThen : Prop :=
  ∀ (i : Instr) (s t : State), exec i s = .next t →
    (Instr.endsViews i → ∀ h, h < s.viewsEnded + s.liveViews.length →
      (∀ k, viewRead h k t = .fault .staleView) ∧ ∀ k x, viewWrite h k x t = .fault .staleView) ∧
    (¬ Instr.endsViews i → t.viewsEnded = s.viewsEnded ∧ ∀ (j : Nat) (v : View), s.liveViews[j]? = some v → t.liveViews[j]? = some v)

/-- R133: the pseudo-operations expand to exactly the words given; in mode 0 `MBC1_BANK 0x20` on 128 banks selects 0x21. -/
def Obligations.PseudoOperations : Prop :=
  PseudoOp.ramOn.words = [0x100000A] ∧ PseudoOp.ramOff.words = [0x1000000] ∧
  (∀ n : BitVec 7, (PseudoOp.mbc1Bank n).words =
    [0x1400000 + n.toNat / 32, 0x1200000 + n.toNat % 32]) ∧
  (∀ k : Byte, (PseudoOp.mbc1RamBank k).words = [0x1600001, 0x1400000 + k.toNat]) ∧
  (∀ n : Byte, (PseudoOp.mbc2Bank n).words = [0x1210000 + n.toNat]) ∧
  (runOps [.mbc1WrBankhi 0x4000 1, .mbc1WrRomlo 0x2000 0] State.reset).map (fun t => t.mapper.currentRomBankIndex) =
    some 0x21
end

