-- ==== Sys2Proof/Laws/Memory.lean ====
section
/-! SUPPORT. What the memory operations do: reads after writes, the canonical form every operation keeps, and the byte lists of the
persistence operations. -/

namespace Sys2Proof.Machine

variable {sp : Space} {size lo a b n : Nat} {x y : Byte} {m : Memory} {bs : List Byte}

@[simp] theorem Memory.read_nil : Memory.read sp [] a = sp.unlisted := rfl

theorem Memory.read_cons (k : Nat) (c : Byte) :
    Memory.read sp ((k, c) :: m) a = if k = a then c else Memory.read sp m a := rfl

@[simp] theorem Memory.wfFrom_nil : Memory.wfFrom sp size lo [] = true := rfl

@[simp] theorem Memory.wfFrom_cons (k : Nat) (c : Byte) :
    Memory.wfFrom sp size lo ((k, c) :: m) = true ↔
      lo ≤ k ∧ k < size ∧ c ≠ sp.unlisted ∧ Memory.wfFrom sp size (k + 1) m = true := by
  simp [Memory.wfFrom, and_assoc]

theorem Memory.wfFrom_mono (h : lo ≤ b) (hm : Memory.wfFrom sp size b m = true) :
    Memory.wfFrom sp size lo m = true := by
  cases m with
  | nil => rfl
  | cons c m =>
    obtain ⟨k, c⟩ := c
    rw [Memory.wfFrom_cons] at hm ⊢
    exact ⟨by omega, hm.2⟩

/-- An address below every listed one reads as the unlisted byte. -/
theorem Memory.read_below (hm : Memory.wfFrom sp size lo m = true) (ha : a < lo) :
    Memory.read sp m a = sp.unlisted := by
  induction m generalizing lo with
  | nil => rfl
  | cons c m ih =>
    obtain ⟨k, c⟩ := c
    rw [Memory.wfFrom_cons] at hm
    rw [Memory.read_cons, if_neg (by omega)]
    exact ih hm.2.2.2 (by omega)

/-- An address at or above the size reads as the unlisted byte. -/
theorem Memory.read_above (hm : Memory.wfFrom sp size lo m = true) (ha : size ≤ a) :
    Memory.read sp m a = sp.unlisted := by
  induction m generalizing lo with
  | nil => rfl
  | cons c m ih =>
    obtain ⟨k, c⟩ := c
    rw [Memory.wfFrom_cons] at hm
    rw [Memory.read_cons, if_neg (by omega)]
    exact ih hm.2.2.2

/-- What a canonical memory reads after a write: the byte written there, every other byte as before. -/
theorem Memory.read_write (hm : Memory.wfFrom sp size lo m = true) :
    Memory.read sp (Memory.write sp m a x) b = if b = a then x else Memory.read sp m b := by
  induction m generalizing lo with
  | nil =>
    by_cases hx : x = sp.unlisted
    · simp [Memory.write, hx]
    · simp [Memory.write, hx, Memory.read_cons, eq_comm]
  | cons c m ih =>
    obtain ⟨k, c⟩ := c
    rw [Memory.wfFrom_cons] at hm
    unfold Memory.write
    by_cases hk : k < a
    · rw [if_pos hk, Memory.read_cons, ih hm.2.2.2, Memory.read_cons]
      by_cases hb : b = a
      · rw [if_neg (by omega), if_pos hb, if_pos hb]
      · rw [if_neg hb, if_neg hb]
    · rw [if_neg hk]
      have below : a < k + 1 := by omega
      by_cases hx : x = sp.unlisted
      · rw [if_pos hx, List.nil_append]
        by_cases hka : k = a
        · rw [if_pos hka, Memory.read_cons]
          by_cases hb : b = a
          · rw [if_pos hb, hx, Memory.read_below hm.2.2.2 (by omega)]
          · rw [if_neg hb, if_neg (by omega)]
        · rw [if_neg hka, Memory.read_cons]
          by_cases hb : b = a
          · rw [if_pos hb, hx, if_neg (by omega), Memory.read_below hm.2.2.2 (by omega)]
          · rw [if_neg hb]
      · rw [if_neg hx, List.singleton_append, Memory.read_cons]
        by_cases hb : b = a
        · rw [if_pos hb.symm, if_pos hb]
        · rw [if_neg (fun h => hb h.symm), if_neg hb]
          by_cases hka : k = a
          · rw [if_pos hka, Memory.read_cons, if_neg (by omega)]
          · rw [if_neg hka]

/-- A write inside the memory keeps the canonical form. -/
theorem Memory.wfFrom_write (hm : Memory.wfFrom sp size lo m = true) (h : lo ≤ a) (ha : a < size) :
    Memory.wfFrom sp size lo (Memory.write sp m a x) = true := by
  induction m generalizing lo with
  | nil =>
    by_cases hx : x = sp.unlisted <;> simp [Memory.write, hx, h, ha]
  | cons c m ih =>
    obtain ⟨k, c⟩ := c
    rw [Memory.wfFrom_cons] at hm
    unfold Memory.write
    by_cases hk : k < a
    · rw [if_pos hk, Memory.wfFrom_cons]
      exact ⟨hm.1, hm.2.1, hm.2.2.1, ih hm.2.2.2 (by omega)⟩
    · rw [if_neg hk]
      have tail : Memory.wfFrom sp size (a + 1) (if k = a then m else (k, c) :: m) = true := by
        by_cases hka : k = a
        · rw [if_pos hka, ← hka]; exact hm.2.2.2
        · rw [if_neg hka, Memory.wfFrom_cons]
          exact ⟨by omega, hm.2.1, hm.2.2.1, hm.2.2.2⟩
      by_cases hx : x = sp.unlisted
      · rw [if_pos hx, List.nil_append]
        exact Memory.wfFrom_mono (by omega) tail
      · rw [if_neg hx, List.singleton_append, Memory.wfFrom_cons]
        exact ⟨h, ha, hx, tail⟩

theorem Memory.wf_write (hm : Memory.wf sp size m = true) (ha : a < size) :
    Memory.wf sp size (Memory.write sp m a x) = true :=
  Memory.wfFrom_write hm (Nat.zero_le a) ha

@[simp] theorem Memory.bytes_length : (Memory.bytes sp m a n).length = n := by
  induction n generalizing a with
  | zero => rfl
  | succ n ih => simp [Memory.bytes, ih]

/-- Byte `i` of the byte list is the byte at address `a + i`. -/
theorem Memory.bytes_getElem? (i : Nat) :
    (Memory.bytes sp m a n)[i]? = if i < n then some (Memory.read sp m (a + i)) else none := by
  induction n generalizing a i with
  | zero => simp [Memory.bytes]
  | succ n ih =>
    cases i with
    | zero => simp [Memory.bytes]
    | succ i => simp [Memory.bytes, ih, show a + 1 + i = a + (i + 1) by omega]

/-- The listed bytes are canonical from their first address on. -/
theorem Memory.wfFrom_listed (h : lo ≤ a) (hsize : a + bs.length ≤ size) :
    Memory.wfFrom sp size lo (Memory.listed sp a bs) = true := by
  induction bs generalizing a lo with
  | nil => rfl
  | cons c bs ih =>
    rw [List.length_cons] at hsize
    unfold Memory.listed
    by_cases hc : c = sp.unlisted
    · rw [if_pos hc]; exact ih (by omega) (by omega)
    · rw [if_neg hc, Memory.wfFrom_cons]
      exact ⟨h, by omega, hc, ih (Nat.le_refl _) (by omega)⟩

/-- What the listed bytes read as. -/
theorem Memory.read_listed :
    Memory.read sp (Memory.listed sp a bs) b =
      if a ≤ b then (bs[b - a]?).getD sp.unlisted else sp.unlisted := by
  induction bs generalizing a with
  | nil => simp [Memory.listed]
  | cons c bs ih =>
    unfold Memory.listed
    by_cases hab : a = b
    · subst hab
      have later : ¬ a + 1 ≤ a := by omega
      by_cases hc : c = sp.unlisted
      · simp [hc, ih, later]
      · simp [hc, Memory.read_cons]
    · have step : (if a ≤ b then ((c :: bs)[b - a]?).getD sp.unlisted else sp.unlisted) =
          if a + 1 ≤ b then (bs[b - (a + 1)]?).getD sp.unlisted else sp.unlisted := by
        by_cases h : a + 1 ≤ b
        · rw [if_pos h, if_pos (by omega), show b - a = (b - (a + 1)) + 1 by omega, List.getElem?_cons_succ]
        · rw [if_neg h, if_neg (by omega)]
      rw [step, ← ih]
      by_cases hc : c = sp.unlisted
      · rw [if_pos hc]
      · rw [if_neg hc, Memory.read_cons, if_neg hab]

/-- Listing bytes and reading them all gives them back. -/
theorem Memory.bytes_listed : Memory.bytes sp (Memory.listed sp a bs) a bs.length = bs := by
  refine List.ext_getElem? fun i => ?_
  rw [Memory.bytes_getElem?]
  split
  · rename_i h
    simp [Memory.read_listed, h]
  · rename_i h
    exact (List.getElem?_eq_none (Nat.le_of_not_lt h)).symm

/-- A canonical memory is what its bytes list: reading all bytes and listing them gives the memory back. -/
theorem Memory.listed_bytes (hm : Memory.wfFrom sp (a + n) a m = true) :
    Memory.listed sp a (Memory.bytes sp m a n) = m := by
  induction n generalizing a m with
  | zero =>
    cases m with
    | nil => rfl
    | cons c m =>
      obtain ⟨k, c⟩ := c
      rw [Memory.wfFrom_cons] at hm
      omega
  | succ n ih =>
    have congr_tail : ∀ (m' : Memory), (∀ i, a + 1 ≤ i → Memory.read sp m i = Memory.read sp m' i) →
        Memory.bytes sp m (a + 1) n = Memory.bytes sp m' (a + 1) n := by
      intro m' hread
      refine List.ext_getElem? (fun i => ?_)
      rw [Memory.bytes_getElem?, Memory.bytes_getElem?, hread _ (by omega)]
    rw [show a + (n + 1) = a + 1 + n by omega] at hm
    unfold Memory.bytes Memory.listed
    cases m with
    | nil =>
      rw [Memory.read_nil, if_pos rfl]
      exact ih rfl
    | cons c m =>
      obtain ⟨k, c⟩ := c
      rw [Memory.wfFrom_cons] at hm
      by_cases hk : k = a
      · subst hk
        have hne : Memory.read sp ((k, c) :: m) k ≠ sp.unlisted := by
          rw [Memory.read_cons, if_pos rfl]; exact hm.2.2.1
        rw [if_neg hne, congr_tail m (fun i hi => by rw [Memory.read_cons, if_neg (by omega)]), ih hm.2.2.2,
          Memory.read_cons, if_pos rfl]
      · have heq : Memory.read sp ((k, c) :: m) a = sp.unlisted :=
          Memory.read_below (size := a + 1 + n) (lo := a + 1)
            ((Memory.wfFrom_cons k c).2 ⟨by omega, hm.2⟩) (by omega)
        rw [if_pos heq]
        exact ih ((Memory.wfFrom_cons k c).2 ⟨by omega, hm.2⟩)

theorem Memory.wfFrom_filter (hm : Memory.wfFrom sp size lo m = true) (n : Nat) :
    Memory.wfFrom sp size (max lo n) (m.filter (fun c => decide (n ≤ c.1))) = true := by
  induction m generalizing lo with
  | nil => rfl
  | cons c m ih =>
    obtain ⟨k, c⟩ := c
    rw [Memory.wfFrom_cons] at hm
    by_cases hn : n ≤ k
    · rw [List.filter_cons_of_pos (by simpa using hn), Memory.wfFrom_cons]
      refine ⟨by omega, hm.2.1, hm.2.2.1, ?_⟩
      have := ih hm.2.2.2
      rwa [show max (k + 1) n = k + 1 by omega] at this
    · rw [List.filter_cons_of_neg (by simpa using hn)]
      exact Memory.wfFrom_mono (by omega) (ih hm.2.2.2)

/-- Bytes listed below an address, in front of a memory canonical from it on. -/
theorem Memory.wfFrom_listed_append (h : lo ≤ a) (hsize : a + bs.length ≤ size)
    (hm : Memory.wfFrom sp size (a + bs.length) m = true) :
    Memory.wfFrom sp size lo (Memory.listed sp a bs ++ m) = true := by
  induction bs generalizing a lo with
  | nil => exact Memory.wfFrom_mono (by simpa using h) hm
  | cons c bs ih =>
    rw [List.length_cons] at hsize hm
    have hm' : Memory.wfFrom sp size (a + 1 + bs.length) m = true := by
      rwa [show a + 1 + bs.length = a + (bs.length + 1) by omega]
    unfold Memory.listed
    by_cases hc : c = sp.unlisted
    · rw [if_pos hc]; exact ih (by omega) (by omega) hm'
    · rw [if_neg hc, List.cons_append, Memory.wfFrom_cons]
      exact ⟨h, by omega, hc, ih (Nat.le_refl _) (by omega) hm'⟩

/-- Storing at the front keeps the canonical form. -/
theorem Memory.wf_storeFront (hm : Memory.wf sp size m = true) (hsize : bs.length ≤ size) :
    Memory.wf sp size (Memory.storeFront sp m bs) = true := by
  have := Memory.wfFrom_filter hm bs.length
  exact Memory.wfFrom_listed_append (Nat.le_refl 0) (by omega) (Memory.wfFrom_mono (by omega) this)

theorem Memory.read_append_of_unlisted (l : Memory) (h : ∀ c ∈ l, c.1 ≠ a) :
    Memory.read sp (l ++ m) a = Memory.read sp m a := by
  induction l with
  | nil => rfl
  | cons c l ih =>
    obtain ⟨k, c⟩ := c
    rw [List.cons_append, Memory.read_cons, if_neg (h (k, c) (by simp)), ih (fun d hd => h d (by simp [hd]))]

theorem Memory.listed_range (c : Host.Cell) (h : c ∈ Memory.listed sp a bs) :
    a ≤ c.1 ∧ c.1 < a + bs.length := by
  induction bs generalizing a with
  | nil => simp [Memory.listed] at h
  | cons d bs ih =>
    have later : c ∈ Memory.listed sp (a + 1) bs → a ≤ c.1 ∧ c.1 < a + (d :: bs).length := by
      intro hc
      have := ih hc
      rw [List.length_cons]
      omega
    unfold Memory.listed at h
    by_cases hd : d = sp.unlisted
    · rw [if_pos hd] at h; exact later h
    · rw [if_neg hd, List.mem_cons] at h
      rcases h with h | h
      · subst h; simp
      · exact later h

theorem Memory.read_listed_append (hb : b < a + bs.length) (hm : ∀ c ∈ m, a + bs.length ≤ c.1) :
    Memory.read sp (Memory.listed sp a bs ++ m) b = Memory.read sp (Memory.listed sp a bs) b := by
  have key : ∀ l : Memory, Memory.read sp (l ++ m) b = Memory.read sp l b := by
    have tail : Memory.read sp m b = sp.unlisted := by
      have := Memory.read_append_of_unlisted (sp := sp) (m := []) (a := b) m
        (fun c hc h => by have := hm c hc; omega)
      simpa using this
    intro l
    induction l with
    | nil => simpa using tail
    | cons c l ih =>
      obtain ⟨k, c⟩ := c
      rw [List.cons_append, Memory.read_cons, Memory.read_cons, ih]
  exact key _

/-- What a memory reads after storing at the front: the stored bytes, every later byte as before. -/
theorem Memory.read_storeFront :
    Memory.read sp (Memory.storeFront sp m bs) b =
      if h : b < bs.length then bs[b] else Memory.read sp m b := by
  unfold Memory.storeFront
  by_cases hb : b < bs.length
  · rw [dif_pos hb, Memory.read_listed_append (by omega)
      (fun c hc => by have := (List.mem_filter.1 hc).2; simp at this; omega), Memory.read_listed]
    simp [List.getElem?_eq_getElem hb]
  · rw [dif_neg hb, Memory.read_append_of_unlisted _
      (fun c hc h => by have := Memory.listed_range c hc; omega)]
    induction m with
    | nil => rfl
    | cons c m ih =>
      obtain ⟨k, c⟩ := c
      by_cases hk : bs.length ≤ k
      · rw [List.filter_cons_of_pos (by simpa using hk), Memory.read_cons, Memory.read_cons, ih]
      · rw [List.filter_cons_of_neg (by simpa using hk), ih, Memory.read_cons, if_neg (by omega)]

/-- Every listed address of a canonical memory lies inside it. -/
theorem Memory.wfFrom_lt (h : Memory.wfFrom sp size lo m = true) : ∀ c ∈ m, c.1 < size := by
  induction m generalizing lo with
  | nil => simp
  | cons p m ih =>
    obtain ⟨k, b⟩ := p
    simp only [Memory.wfFrom_cons] at h
    intro c hc
    rcases List.mem_cons.1 hc with rfl | hc
    · exact h.2.1
    · exact ih h.2.2.2 c hc

theorem holds_eq (n : Nat) (src : Stream) : holds n src = decide (n ≤ src.length) := by
  induction n generalizing src with
  | zero => simp [holds]
  | succ n ih => cases src <;> simp [holds, ih]

end Sys2Proof.Machine
end

