-- ==== Sys2Proof/Laws/State.lean ====
section
/-! SUPPORT. One lemma per field per named update of the state, so that no later proof unfolds a record update. -/

namespace Sys2Proof.Machine

variable (s : State) (m : Mapper)

@[simp] theorem State.answer_cfg (o : Output) : (s.answer o).cfg = s.cfg := rfl
@[simp] theorem State.answer_live (o : Output) : (s.answer o).live = s.live := rfl
@[simp] theorem State.answer_mapper (o : Output) : (s.answer o).mapper = s.mapper := rfl
@[simp] theorem State.answer_addressSpace (o : Output) : (s.answer o).addressSpace = s.addressSpace := rfl
@[simp] theorem State.answer_liveViews (o : Output) : (s.answer o).liveViews = s.liveViews := rfl
@[simp] theorem State.answer_viewsEnded (o : Output) : (s.answer o).viewsEnded = s.viewsEnded := rfl
@[simp] theorem State.answer_input (o : Output) : (s.answer o).input = s.input := rfl
@[simp] theorem State.answer_out (o : Output) : (s.answer o).out = o := rfl

@[simp] theorem State.endViews_cfg : (s.endViews).cfg = s.cfg := rfl
@[simp] theorem State.endViews_live : (s.endViews).live = s.live := rfl
@[simp] theorem State.endViews_mapper : (s.endViews).mapper = s.mapper := rfl
@[simp] theorem State.endViews_addressSpace : (s.endViews).addressSpace = s.addressSpace := rfl
@[simp] theorem State.endViews_liveViews : (s.endViews).liveViews = [] := rfl
@[simp] theorem State.endViews_viewsEnded : (s.endViews).viewsEnded = s.viewsEnded + s.liveViews.length := rfl
@[simp] theorem State.endViews_input : (s.endViews).input = s.input := rfl
@[simp] theorem State.endViews_out : (s.endViews).out = s.out := rfl

@[simp] theorem State.load_cfg (a : Nat) (x : Byte) : (s.load a x).cfg = s.cfg := rfl
@[simp] theorem State.load_live (a : Nat) (x : Byte) : (s.load a x).live = s.live := rfl
@[simp] theorem State.load_mapper (a : Nat) (x : Byte) : (s.load a x).mapper = s.mapper := rfl
@[simp] theorem State.load_addressSpace (a : Nat) (x : Byte) : (s.load a x).addressSpace = Memory.write .addressSpace s.addressSpace a x := rfl
@[simp] theorem State.load_liveViews (a : Nat) (x : Byte) : (s.load a x).liveViews = s.liveViews := rfl
@[simp] theorem State.load_viewsEnded (a : Nat) (x : Byte) : (s.load a x).viewsEnded = s.viewsEnded := rfl
@[simp] theorem State.load_input (a : Nat) (x : Byte) : (s.load a x).input = s.input := rfl
@[simp] theorem State.load_out (a : Nat) (x : Byte) : (s.load a x).out = s.out := rfl

@[simp] theorem Mapper.setRom_ramEnabled (x : Nat) : (m.setRom x).ramEnabled = m.ramEnabled := rfl
@[simp] theorem Mapper.setRom_currentRomBankIndex (x : Nat) : (m.setRom x).currentRomBankIndex = x := rfl
@[simp] theorem Mapper.setRom_currentRomByteOffset (x : Nat) : (m.setRom x).currentRomByteOffset = x * 0x4000 := rfl
@[simp] theorem Mapper.setRom_bankingMode (x : Nat) : (m.setRom x).bankingMode = m.bankingMode := rfl
@[simp] theorem Mapper.setRom_currentRamBankIndex (x : Nat) : (m.setRom x).currentRamBankIndex = m.currentRamBankIndex := rfl
@[simp] theorem Mapper.setRom_currentRamByteOffset (x : Nat) : (m.setRom x).currentRamByteOffset = m.currentRamByteOffset := rfl
@[simp] theorem Mapper.setRom_higherRomBankBits (x : Nat) : (m.setRom x).higherRomBankBits = m.higherRomBankBits := rfl
@[simp] theorem Mapper.setRom_ramBuffer (x : Nat) : (m.setRom x).ramBuffer = m.ramBuffer := rfl
@[simp] theorem Mapper.setRom_ramChangedCallback (x : Nat) : (m.setRom x).ramChangedCallback = m.ramChangedCallback := rfl

@[simp] theorem Mapper.setRamBank_ramEnabled (x : Nat) : (m.setRamBank x).ramEnabled = m.ramEnabled := rfl
@[simp] theorem Mapper.setRamBank_currentRomBankIndex (x : Nat) : (m.setRamBank x).currentRomBankIndex = m.currentRomBankIndex := rfl
@[simp] theorem Mapper.setRamBank_currentRomByteOffset (x : Nat) : (m.setRamBank x).currentRomByteOffset = m.currentRomByteOffset := rfl
@[simp] theorem Mapper.setRamBank_bankingMode (x : Nat) : (m.setRamBank x).bankingMode = m.bankingMode := rfl
@[simp] theorem Mapper.setRamBank_currentRamBankIndex (x : Nat) : (m.setRamBank x).currentRamBankIndex = x := rfl
@[simp] theorem Mapper.setRamBank_currentRamByteOffset (x : Nat) : (m.setRamBank x).currentRamByteOffset = x * 0x2000 := rfl
@[simp] theorem Mapper.setRamBank_higherRomBankBits (x : Nat) : (m.setRamBank x).higherRomBankBits = m.higherRomBankBits := rfl
@[simp] theorem Mapper.setRamBank_ramBuffer (x : Nat) : (m.setRamBank x).ramBuffer = m.ramBuffer := rfl
@[simp] theorem Mapper.setRamBank_ramChangedCallback (x : Nat) : (m.setRamBank x).ramChangedCallback = m.ramChangedCallback := rfl

@[simp] theorem Mapper.ramWrite_ramEnabled (i : Nat) (x : Byte) : (m.ramWrite i x).ramEnabled = m.ramEnabled := rfl
@[simp] theorem Mapper.ramWrite_currentRomBankIndex (i : Nat) (x : Byte) : (m.ramWrite i x).currentRomBankIndex = m.currentRomBankIndex := rfl
@[simp] theorem Mapper.ramWrite_currentRomByteOffset (i : Nat) (x : Byte) : (m.ramWrite i x).currentRomByteOffset = m.currentRomByteOffset := rfl
@[simp] theorem Mapper.ramWrite_bankingMode (i : Nat) (x : Byte) : (m.ramWrite i x).bankingMode = m.bankingMode := rfl
@[simp] theorem Mapper.ramWrite_currentRamBankIndex (i : Nat) (x : Byte) : (m.ramWrite i x).currentRamBankIndex = m.currentRamBankIndex := rfl
@[simp] theorem Mapper.ramWrite_currentRamByteOffset (i : Nat) (x : Byte) : (m.ramWrite i x).currentRamByteOffset = m.currentRamByteOffset := rfl
@[simp] theorem Mapper.ramWrite_higherRomBankBits (i : Nat) (x : Byte) : (m.ramWrite i x).higherRomBankBits = m.higherRomBankBits := rfl
@[simp] theorem Mapper.ramWrite_ramBuffer (i : Nat) (x : Byte) : (m.ramWrite i x).ramBuffer = Memory.write .ram m.ramBuffer i x := rfl
@[simp] theorem Mapper.ramWrite_ramChangedCallback (i : Nat) (x : Byte) : (m.ramWrite i x).ramChangedCallback = m.ramChangedCallback := rfl

@[simp] theorem Mapper.softReset_mbc1_ramEnabled : (m.softReset .mbc1).ramEnabled = false := rfl
@[simp] theorem Mapper.softReset_mbc1_currentRomBankIndex : (m.softReset .mbc1).currentRomBankIndex = 1 := rfl
@[simp] theorem Mapper.softReset_mbc1_currentRomByteOffset : (m.softReset .mbc1).currentRomByteOffset = 0x4000 := rfl
@[simp] theorem Mapper.softReset_mbc1_bankingMode : (m.softReset .mbc1).bankingMode = 0 := rfl
@[simp] theorem Mapper.softReset_mbc1_currentRamBankIndex : (m.softReset .mbc1).currentRamBankIndex = 0 := rfl
@[simp] theorem Mapper.softReset_mbc1_currentRamByteOffset : (m.softReset .mbc1).currentRamByteOffset = 0 := rfl
@[simp] theorem Mapper.softReset_mbc1_higherRomBankBits : (m.softReset .mbc1).higherRomBankBits = 0 := rfl
@[simp] theorem Mapper.softReset_mbc1_ramBuffer : (m.softReset .mbc1).ramBuffer = m.ramBuffer := rfl
@[simp] theorem Mapper.softReset_mbc1_ramChangedCallback : (m.softReset .mbc1).ramChangedCallback = m.ramChangedCallback := rfl

@[simp] theorem Mapper.softReset_mbc2_ramEnabled : (m.softReset .mbc2).ramEnabled = false := rfl
@[simp] theorem Mapper.softReset_mbc2_currentRomBankIndex : (m.softReset .mbc2).currentRomBankIndex = 1 := rfl
@[simp] theorem Mapper.softReset_mbc2_currentRomByteOffset : (m.softReset .mbc2).currentRomByteOffset = 0x4000 := rfl
@[simp] theorem Mapper.softReset_mbc2_bankingMode : (m.softReset .mbc2).bankingMode = m.bankingMode := rfl
@[simp] theorem Mapper.softReset_mbc2_currentRamBankIndex : (m.softReset .mbc2).currentRamBankIndex = m.currentRamBankIndex := rfl
@[simp] theorem Mapper.softReset_mbc2_currentRamByteOffset : (m.softReset .mbc2).currentRamByteOffset = m.currentRamByteOffset := rfl
@[simp] theorem Mapper.softReset_mbc2_higherRomBankBits : (m.softReset .mbc2).higherRomBankBits = m.higherRomBankBits := rfl
@[simp] theorem Mapper.softReset_mbc2_ramBuffer : (m.softReset .mbc2).ramBuffer = m.ramBuffer := rfl
@[simp] theorem Mapper.softReset_mbc2_ramChangedCallback : (m.softReset .mbc2).ramChangedCallback = m.ramChangedCallback := rfl

@[simp] theorem Mapper.ramRead_ramWrite (i j : Nat) (x : Byte) :
    (m.ramWrite i x).ramRead j = Memory.read .ram (Memory.write .ram m.ramBuffer i x) j := rfl

end Sys2Proof.Machine
end

