-- ==== Sys2Proof/Laws/Ops.lean ====
section
/-! SUPPORT. One lemma per shared operation that says once what it can do: a proof about a meaning cites these. -/

namespace Sys2Proof.Machine

variable {s t : State} {i : Instr} {k : Outcome} {m : Mapper} {o : Output} {a : Addr} {v : Byte} {n : Nat} {b : Byte}
  {ds : List Diagnostic}

/-- The guard lets a ready machine through. -/
theorem guardedLive_ready (h : s.Ready) : guardedLive s k = k := by
  simp [guardedLive, h.1, h.2]

/-- The guard lets an operation of the live variant through. -/
theorem guarded_ready (h : s.Ready) (hi : i.wf s.cfg.variant = true) : guarded i s k = k := by
  simp [guarded, guardedLive_ready h, hi]

/-- A guarded operation answers a next state only on a ready machine, and then it is the operation's own answer. -/
theorem guardedLive_next : guardedLive s k = .next t ↔ s.Ready ∧ k = .next t := by
  unfold guardedLive State.Ready
  by_cases h : s.live = false
  · simp [h]
  · by_cases hc : s.cfg.wf = false
    · simp [h, hc]
    · simp [h, hc]

/-- As `guardedLive_next`, with the operation's own variant and window. -/
theorem guarded_next : guarded i s k = .next t ↔ s.Ready ∧ i.wf s.cfg.variant = true ∧ k = .next t := by
  unfold guarded
  rw [guardedLive_next]
  by_cases h : i.wf s.cfg.variant = false <;> simp [h]

theorem answerByte_next : answerByte b ds s = .next t ↔ t = s.answer { result := .byte b, diagnostics := ds } := by
  simp [answerByte, eq_comm]

theorem delegatedRead_next :
    delegatedRead a s = .next t ↔ t = s.answer { result := .byte (s.retrieve a.toNat) } := by
  simp [delegatedRead, answerByte, eq_comm]

theorem delegatedWrite_next : delegatedWrite a v s = .next t ↔ t = (s.load a.toNat v).answer {} := by
  simp [delegatedWrite, eq_comm]

/-- A control write changes the mapper state it is given, ends the views and leaves configuration, AddressSpace, input and life. -/
theorem controlWrite_next :
    controlWrite m o s = .next t ↔
      t = { s with mapper := m, liveViews := [], viewsEnded := s.viewsEnded + s.liveViews.length, out := o } := by
  simp [controlWrite, State.endViews, State.answer, eq_comm]

theorem ramEnableWrite_next :
    ramEnableWrite v s = .next t ↔
      t = { s with
        mapper := { s.mapper with ramEnabled := ramEnableTest v }
        liveViews := []
        viewsEnded := s.viewsEnded + s.liveViews.length
        out := { events := ramChangedEvents s.mapper.ramEnabled (ramEnableTest v) s.mapper.ramChangedCallback } } := by
  rw [ramEnableWrite, controlWrite_next]

/-- A ROM read inside the image answers its byte; at and beyond its end it faults (R97). -/
theorem romByte_eq :
    romByte n s =
      if n < s.cfg.romLen then answerByte (Memory.read .rom s.cfg.rom n) [] s else .fault (.romOutOfRange n) := by
  unfold romByte romRead
  by_cases h : n < s.cfg.romLen <;> simp [h]

theorem romByte_next :
    romByte n s = .next t ↔
      n < s.cfg.romLen ∧ t = s.answer { result := .byte (Memory.read .rom s.cfg.rom n) } := by
  rw [romByte_eq]
  by_cases h : n < s.cfg.romLen <;> simp [h, answerByte, eq_comm]

theorem ramByte_next :
    ramByte n ds s = .next t ↔
      n < ramSize s.cfg ∧ t = s.answer { result := .byte (s.mapper.ramRead n), diagnostics := ds } := by
  unfold ramByte
  by_cases h : n < ramSize s.cfg <;> simp [h, answerByte, eq_comm]

theorem setRamByte_next :
    setRamByte n b ds s = .next t ↔
      n < ramSize s.cfg ∧ t = { s with mapper := s.mapper.ramWrite n b, out := { diagnostics := ds } } := by
  unfold setRamByte
  by_cases h : n < ramSize s.cfg <;> simp [h, State.answer, eq_comm]

theorem droppedWrite_next : droppedWrite ds s = .next t ↔ t = s.answer { diagnostics := ds } := by
  simp [droppedWrite, eq_comm]

/-- A view accessor appends one live view and names it; nothing else changes. -/
theorem handOut_next (w : View) :
    handOut w s = .next t ↔
      t = { s with
        liveViews := s.liveViews ++ [w]
        out := { result := .view (s.viewsEnded + s.liveViews.length) w } } := by
  simp [handOut, State.answer, eq_comm]

/-- An access through a handle: stale below `viewsEnded`, never handed out beyond the last, else the live view's. -/
theorem withView_live (f : View → Outcome) (j : Nat) (h : j < s.liveViews.length) :
    withView (s.viewsEnded + j) s f = f s.liveViews[j] := by
  simp [withView, h]

theorem withView_stale (f : View → Outcome) (h : n < s.viewsEnded) : withView n s f = .fault .staleView := by
  simp [withView, h]

theorem withView_next (f : View → Outcome) (h : withView n s f = .next t) : ∃ w ∈ s.liveViews, f w = .next t := by
  unfold withView at h
  by_cases hn : n < s.viewsEnded
  · simp [hn] at h
  · rw [if_neg hn] at h
    cases hw : s.liveViews[n - s.viewsEnded]? with
    | none => simp [hw] at h
    | some w => exact ⟨w, List.mem_of_getElem? hw, by simpa [hw] using h⟩

/-- A view read answers a byte and leaves the rest of the state. -/
theorem viewByte_next (w : View) (h : viewByte w n s = .next t) :
    ∃ c, t = s.answer { result := .byte c } := by
  unfold viewByte at h
  by_cases hn : n < w.length
  · rw [if_pos hn] at h
    cases hsp : w.space with
    | addressSpace => rw [hsp] at h; exact ⟨_, answerByte_next.1 h⟩
    | rom => rw [hsp] at h; exact ⟨_, (romByte_next.1 h).2⟩
    | ram => rw [hsp] at h; exact ⟨_, (ramByte_next.1 h).2⟩
  · simp [hn] at h

/-- A view write sets one byte of `ramBuffer` inside it. -/
theorem setViewByte_next (w : View) (h : setViewByte w n b s = .next t) :
    w.base + n < ramSize s.cfg ∧ t = { s with mapper := s.mapper.ramWrite (w.base + n) b, out := {} } := by
  unfold setViewByte at h
  by_cases hn : n < w.length
  · rw [if_pos hn] at h
    cases hsp : w.space <;> cases hro : w.readOnly <;> simp only [hsp, hro] at h
    all_goals first | exact setRamByte_next.1 h | cases h
  · simp [hn] at h

theorem loadPayload_next {src : Stream} (h : loadPayload n src s = .next t) :
    n + batteryLen s.cfg ≤ src.length ∧
      t = { s with
        mapper := { s.mapper with
          ramBuffer := Memory.storeFront .ram s.mapper.ramBuffer ((src.drop n).take (batteryLen s.cfg)) }
        out := { result := .ok, stream := some (src.drop (n + batteryLen s.cfg)) } } := by
  unfold loadPayload at h
  by_cases hh : holds (n + batteryLen s.cfg) src = true
  · rw [if_pos hh] at h
    refine ⟨by simpa [holds_eq] using hh, ?_⟩
    simpa [State.answer, eq_comm] using h
  · simp [hh] at h

/-- A battery load leaves everything but `ramBuffer` and the output. -/
theorem loadBattery_next {src : Stream} (h : loadBattery src n s = .next t) :
    (∃ o, t = s.answer o) ∨
      ∃ bs o, bs.length = batteryLen s.cfg ∧
        t = { s with
          mapper := { s.mapper with ramBuffer := Memory.storeFront .ram s.mapper.ramBuffer bs }
          out := o } := by
  have payload : ∀ k, loadPayload k src s = .next t → ∃ bs o, bs.length = batteryLen s.cfg ∧
        t = { s with
          mapper := { s.mapper with ramBuffer := Memory.storeFront .ram s.mapper.ramBuffer bs }
          out := o } := by
    intro k hk
    have := loadPayload_next hk
    exact ⟨_, _, by simp; omega, this.2⟩
  unfold loadBattery at h
  by_cases h0 : n = 0
  · rw [if_pos h0] at h; exact .inr (payload _ h)
  · rw [if_neg h0] at h
    by_cases hE : n ≠ batteryLen s.cfg
    · rw [if_pos hE] at h
      exact .inl ⟨_, (Host.Outcome.next.inj h).symm⟩
    · rw [if_neg hE] at h; exact .inr (payload _ h)

/-- A state save changes only the output. -/
theorem saveState_next {sink : Stream} (h : saveState sink s = .next t) : ∃ o, t = s.answer o := by
  unfold saveState at h
  cases hl : recordLayout s.cfg with
  | none => simp [hl] at h
  | some l =>
    rw [hl] at h
    exact ⟨_, (Host.Outcome.next.inj h).symm⟩

/-- A state load puts a mapper state that meets W1–W8 in place of the old one. -/
theorem loadState_next {src : Stream} (h : loadState src s = .next t) :
    ∃ l m o, recordLayout s.cfg = some l ∧ readRecord s.cfg l src s.mapper = some m ∧ m.inv s.cfg = true ∧
      o.events = [] ∧
      t = { s with mapper := m, liveViews := [], viewsEnded := s.viewsEnded + s.liveViews.length, out := o } := by
  unfold loadState at h
  cases hl : recordLayout s.cfg with
  | none => simp [hl] at h
  | some l =>
    rw [hl] at h
    by_cases hh : holds (recordLen s.cfg l) src = true
    · simp only [hh, if_true] at h
      cases hr : readRecord s.cfg l src s.mapper with
      | none => simp [hr] at h
      | some m =>
        simp only [hr] at h
        by_cases hm : m.inv s.cfg = true
        · rw [if_pos hm] at h
          exact ⟨l, m, _, rfl, hr, hm, rfl, controlWrite_next.1 h⟩
        · simp [hm] at h
    · simp [hh] at h

end Sys2Proof.Machine
end

