-- ==== Sys2Proof/Laws/Record.lean ====
section
/-! SUPPORT. The byte formats of the state record: lengths, what reading a field or a record sets, and that it inverts writing it. -/

namespace Sys2Proof.Machine

variable {c : Cfg} {n x : Nat} {f : RecordField} {bs rest : List Byte} {m m' : Mapper} {b : Bool}

@[simp] theorem leBytes_length : (leBytes n x).length = n := by
  induction n generalizing x with
  | zero => rfl
  | succ n ih => simp [leBytes, ih]

/-- Byte `j` of a number is its base-256 digit `j`. -/
theorem leBytes_getElem? {j : Nat} (h : j < n) : (leBytes n x)[j]? = some (BitVec.ofNat 8 (x / 256 ^ j)) := by
  induction n generalizing x j with
  | zero => omega
  | succ n ih =>
    cases j with
    | zero => simp [leBytes]
    | succ j => simp [leBytes, ih (show j < n by omega), Nat.div_div_eq_div_mul, Nat.pow_succ, Nat.mul_comm]

theorem leNat_leBytes : leNat (leBytes n x) = x % 256 ^ n := by
  induction n generalizing x with
  | zero => simp [leNat, leBytes, Nat.mod_one]
  | succ n ih =>
    rw [leBytes, leNat, ih, Nat.pow_succ, Nat.mul_comm (256 ^ n), Nat.mod_mul]
    simp

@[simp] theorem inOrder_length : (inOrder c bs).length = bs.length := by
  unfold inOrder; cases c.stateByteOrder <;> simp

@[simp] theorem inOrder_inOrder : inOrder c (inOrder c bs) = bs := by
  unfold inOrder; cases c.stateByteOrder <;> simp

@[simp] theorem encodeInt_length : (encodeInt c n x).length = n := by simp [encodeInt]

@[simp] theorem encodeBool_length : (encodeBool c b).length = c.boolBytes := by simp [encodeBool]

/-- R174: a value below half the range reads back. -/
theorem readInt_encodeInt (h : 2 * x < 256 ^ n) : readInt c (encodeInt c n x) = some x := by
  have hx : leNat (inOrder c (encodeInt c n x)) = x := by
    rw [encodeInt, inOrder_inOrder, leNat_leBytes]
    exact Nat.mod_eq_of_lt (by omega)
  simp [readInt, hx, h]

/-- R174: with at least one byte the two Bools differ, and each reads back. -/
theorem readBool_encodeBool (h : 1 ≤ c.boolBytes) : readBool c (encodeBool c b) = some b := by
  have hne : encodeBool c false ≠ encodeBool c true := by
    intro he
    have h2 : leBytes c.boolBytes 0 = leBytes c.boolBytes 1 := by
      have := congrArg (inOrder c) he
      simpa [encodeBool, encodeInt] using this
    have h0 := congrArg (fun l => l[0]?) h2
    simp only [leBytes_getElem? (show 0 < c.boolBytes by omega)] at h0
    exact absurd h0 (by decide)
  unfold readBool
  cases b
  · simp [hne]
  · simp

@[simp] theorem fieldBytes_length : (fieldBytes c m f).length = fieldLen c f := by
  cases f <;> simp [fieldBytes, fieldLen]

@[simp] theorem recordBytes_length {l : List RecordField} : (recordBytes c l m).length = recordLen c l := by
  induction l with
  | nil => rfl
  | cons f l ih =>
    simp only [recordBytes, recordLen] at ih
    simp [recordBytes, recordLen, ih]

/-- No record holds the observer (R175). -/
theorem readField_callback (h : readField c f bs m = some m') : m'.ramChangedCallback = m.ramChangedCallback := by
  cases f <;> simp only [readField, Option.map_eq_some_iff, Option.some.injEq] at h
  all_goals (obtain ⟨_, _, rfl⟩ := h; rfl)

theorem readRecord_callback {l : List RecordField} (h : readRecord c l bs m = some m') :
    m'.ramChangedCallback = m.ramChangedCallback := by
  induction l generalizing bs m with
  | nil => cases h; rfl
  | cons f l ih =>
    simp only [readRecord] at h
    cases hf : readField c f (bs.take (fieldLen c f)) m with
    | none => simp [hf] at h
    | some m1 => rw [hf] at h; rw [ih h, readField_callback hf]

/-- `m'` with one field taken from `m`. -/
def Mapper.takeField (m m' : Mapper) : RecordField → Mapper
  | .bankingMode => { m' with bankingMode := m.bankingMode }
  | .currentRamBankIndex => { m' with currentRamBankIndex := m.currentRamBankIndex }
  | .currentRomBankIndex => { m' with currentRomBankIndex := m.currentRomBankIndex }
  | .ramEnabled => { m' with ramEnabled := m.ramEnabled }
  | .higherRomBankBits => { m' with higherRomBankBits := m.higherRomBankBits }
  | .ramBuffer => { m' with ramBuffer := m.ramBuffer }
  | .currentRomByteOffset => { m' with currentRomByteOffset := m.currentRomByteOffset }
  | .currentRamByteOffset => { m' with currentRamByteOffset := m.currentRamByteOffset }

/-- The fields of a mapper state fit their encodings (R174). -/
structure Mapper.Fits (c : Cfg) (m : Mapper) : Prop where
  boolBytes : 1 ≤ c.boolBytes
  bankingMode : 2 * m.bankingMode < 256 ^ c.intBytes
  currentRamBankIndex : 2 * m.currentRamBankIndex < 256 ^ c.intBytes
  currentRomBankIndex : 2 * m.currentRomBankIndex < 256 ^ c.intBytes
  currentRomByteOffset : 2 * m.currentRomByteOffset < 256 ^ c.intBytes
  currentRamByteOffset : 2 * m.currentRamByteOffset < 256 ^ c.intBytes
  higherRomBankBits : m.higherRomBankBits < 256
  ramBuffer : Memory.wf .ram (ramSize c) m.ramBuffer = true

/-- Reading a field's own bytes sets that field. -/
theorem readField_fieldBytes (h : m.Fits c) : readField c f (fieldBytes c m f) m' = some (m.takeField m' f) := by
  cases f <;> simp only [readField, fieldBytes, Mapper.takeField]
  · rw [readInt_encodeInt h.bankingMode]; rfl
  · rw [readInt_encodeInt h.currentRamBankIndex]; rfl
  · rw [readInt_encodeInt h.currentRomBankIndex]; rfl
  · rw [readBool_encodeBool h.boolBytes]; rfl
  · rw [leNat_leBytes, Nat.pow_one, Nat.mod_eq_of_lt h.higherRomBankBits]
  · rw [Memory.listed_bytes (by rw [Nat.zero_add]; exact h.ramBuffer)]
  · rw [readInt_encodeInt h.currentRomByteOffset]; rfl
  · rw [readInt_encodeInt h.currentRamByteOffset]; rfl

/-- Reading a record's own bytes sets its fields, one after the other, and looks at nothing after them. -/
theorem readRecord_recordBytes {l : List RecordField} (h : m.Fits c) :
    readRecord c l (recordBytes c l m ++ rest) m' = some (l.foldl m.takeField m') := by
  induction l generalizing m' with
  | nil => rfl
  | cons f l ih =>
    have hb : recordBytes c (f :: l) m ++ rest = fieldBytes c m f ++ (recordBytes c l m ++ rest) := by simp [recordBytes]
    rw [readRecord, hb, List.take_left' fieldBytes_length, List.drop_left' fieldBytes_length, readField_fieldBytes h]
    exact ih

/-- The layouts an MBC2 configuration may give are the orders of the four fields (R173, log 13). -/
theorem mbc2LayoutValid_iff {l : List RecordField} :
    mbc2LayoutValid l = true ↔ l.Perm [.ramEnabled, .currentRomBankIndex, .currentRomByteOffset, .ramBuffer] := by
  simp only [mbc2LayoutValid, Bool.and_eq_true, beq_iff_eq, List.contains_iff_mem]
  constructor
  · rintro ⟨⟨⟨⟨h0, h1⟩, h2⟩, h3⟩, h4⟩
    symm
    refine List.Subperm.perm_of_length_le (List.subperm_of_subset (by decide) ?_) (by simp [h0])
    intro f hf
    simp only [List.mem_cons, List.not_mem_nil, or_false] at hf
    rcases hf with rfl | rfl | rfl | rfl <;> assumption
  · intro h
    refine ⟨⟨⟨⟨h.length_eq, ?_⟩, ?_⟩, ?_⟩, ?_⟩ <;> exact h.mem_iff.2 (by decide)

/-- The layout of an MBC2 record is an order of its four fields (R173). -/
theorem recordLayout_mbc2 {l : List RecordField} (hv : c.variant = .mbc2) (h : recordLayout c = some l) :
    l.Perm [.ramEnabled, .currentRomBankIndex, .currentRomByteOffset, .ramBuffer] := by
  simp only [recordLayout, hv, Option.filter_eq_some_iff] at h
  exact mbc2LayoutValid_iff.1 h.2

/-- No layout holds a field twice (R172, R173). -/
theorem recordLayout_nodup {l : List RecordField} (h : recordLayout c = some l) : l.Nodup := by
  cases hv : c.variant
  · simp only [recordLayout, hv, Option.some.injEq] at h
    subst h; decide
  · exact (recordLayout_mbc2 hv h).nodup_iff.2 (by decide)

/-- Reading a record of MBC2 fields leaves the four fields an MBC2 lacks (R32, log 24). -/
theorem readRecord_mbc1Fields {l : List RecordField}
    (hl : ∀ f ∈ l, f ∈ [RecordField.ramEnabled, .currentRomBankIndex, .currentRomByteOffset, .ramBuffer])
    (h : readRecord c l bs m = some m') :
    m'.bankingMode = m.bankingMode ∧ m'.currentRamBankIndex = m.currentRamBankIndex ∧
      m'.currentRamByteOffset = m.currentRamByteOffset ∧ m'.higherRomBankBits = m.higherRomBankBits := by
  induction l generalizing bs m with
  | nil => cases h; exact ⟨rfl, rfl, rfl, rfl⟩
  | cons f l ih =>
    have hf := hl f List.mem_cons_self
    simp only [readRecord] at h
    cases hr : readField c f (bs.take (fieldLen c f)) m with
    | none => simp [hr] at h
    | some m1 =>
      rw [hr] at h
      have hm := ih (fun g hg => hl g (List.mem_cons_of_mem f hg)) h
      simp only [List.mem_cons, List.not_mem_nil, or_false] at hf
      rcases hf with rfl | rfl | rfl | rfl <;>
        simp only [readField, Option.map_eq_some_iff, Option.some.injEq] at hr
      case inr.inr.inr => subst hr; exact hm
      all_goals (obtain ⟨_, _, rfl⟩ := hr; exact hm)

/-- Fields taken from one mapper state can be taken in any order. -/
theorem Mapper.takeField_perm {l l' : List RecordField} (h : l.Perm l') : l.foldl m.takeField m' = l'.foldl m.takeField m' :=
  h.foldl_eq' (fun x _ y _ z => by cases x <;> cases y <;> rfl) m'

/-! ### What an accepted record says: its bytes are the record of the state it leaves -/

theorem leBytes_leNat : leBytes bs.length (leNat bs) = bs := by
  induction bs with
  | nil => rfl
  | cons y bs ih =>
    have hy := y.isLt
    rw [List.length_cons, leBytes, leNat, show (y.toNat + 256 * leNat bs) / 256 = leNat bs by omega, ih]
    congr 1
    apply BitVec.eq_of_toNat_eq
    simp only [BitVec.toNat_ofNat]
    omega

/-- An integer that was read encodes to the bytes it was read from. -/
theorem encodeInt_of_readInt (h : readInt c bs = some x) : encodeInt c bs.length x = bs := by
  unfold readInt at h
  split at h
  · cases h
    have := leBytes_leNat (bs := inOrder c bs)
    rw [inOrder_length] at this
    rw [encodeInt, this, inOrder_inOrder]
  · cases h

/-- A Bool that was read encodes to the bytes it was read from. -/
theorem encodeBool_of_readBool (h : readBool c bs = some b) : encodeBool c b = bs := by
  unfold readBool at h
  split at h
  · cases h; exact Eq.symm ‹_›
  · split at h
    · cases h; exact Eq.symm ‹_›
    · cases h

/-- The field just read has the bytes it was read from. -/
theorem fieldBytes_of_readField (h : readField c f bs m = some m') (hl : bs.length = fieldLen c f) : fieldBytes c m' f = bs := by
  cases f <;> simp only [readField, Option.map_eq_some_iff, Option.some.injEq] at h <;> simp only [fieldLen] at hl
  case ramEnabled => obtain ⟨b, hb, rfl⟩ := h; exact encodeBool_of_readBool hb
  case higherRomBankBits => subst h; rw [fieldBytes, ← hl]; exact leBytes_leNat
  case ramBuffer => subst h; rw [fieldBytes, ← hl]; exact Memory.bytes_listed
  all_goals (obtain ⟨y, hy, rfl⟩ := h; rw [fieldBytes, ← hl]; exact encodeInt_of_readInt hy)

/-- Reading one field leaves the bytes of the others. -/
theorem fieldBytes_readField_of_ne {g : RecordField} (h : readField c f bs m = some m') (hg : g ≠ f) :
    fieldBytes c m' g = fieldBytes c m g := by
  cases f <;> simp only [readField, Option.map_eq_some_iff, Option.some.injEq] at h
  all_goals (obtain ⟨_, _, rfl⟩ := h; cases g)
  all_goals first | rfl | exact absurd rfl hg

/-- Reading a record leaves the bytes of the fields it does not hold. -/
theorem fieldBytes_readRecord_of_not_mem {l : List RecordField} (h : readRecord c l bs m = some m') (hf : f ∉ l) :
    fieldBytes c m' f = fieldBytes c m f := by
  induction l generalizing bs m with
  | nil => cases h; rfl
  | cons g l ih =>
    simp only [List.mem_cons, not_or] at hf
    simp only [readRecord] at h
    cases hr : readField c g (bs.take (fieldLen c g)) m with
    | none => simp [hr] at h
    | some m1 => rw [hr] at h; rw [ih h hf.2, fieldBytes_readField_of_ne hr hf.1]

/-- The state a record leaves is one whose record its bytes are. -/
theorem recordBytes_of_readRecord {l : List RecordField} (hl : l.Nodup) (h : readRecord c l bs m = some m')
    (hb : recordLen c l ≤ bs.length) : recordBytes c l m' = bs.take (recordLen c l) := by
  induction l generalizing bs m with
  | nil => simp [recordBytes, recordLen]
  | cons f l ih =>
    rw [List.nodup_cons] at hl
    simp only [recordLen, List.map_cons, List.sum_cons] at hb
    simp only [readRecord] at h
    cases hr : readField c f (bs.take (fieldLen c f)) m with
    | none => simp [hr] at h
    | some m1 =>
      rw [hr] at h
      have hf : fieldBytes c m' f = bs.take (fieldLen c f) := by
        rw [fieldBytes_readRecord_of_not_mem h hl.1, fieldBytes_of_readField hr (by rw [List.length_take]; omega)]
      have ht : recordBytes c l m' = (bs.drop (fieldLen c f)).take (recordLen c l) :=
        ih hl.2 h (by simp only [recordLen, List.length_drop]; omega)
      rw [show recordBytes c (f :: l) m' = fieldBytes c m' f ++ recordBytes c l m' from rfl, hf, ht,
        show recordLen c (f :: l) = fieldLen c f + recordLen c l from rfl, List.take_add]

end Sys2Proof.Machine
end

