-- ==== Sys2Proof/Laws/Banking.lean ====
section
/-! SUPPORT. The bank arithmetic in plain numbers: the bits of a data value, the masks as remainders, and the ranges they give. -/

namespace Sys2Proof.Machine

variable {c : Cfg} {m : Mapper} {v : Byte} {x l h : Nat}

theorem lowFive_eq : lowFive v = v.toNat % 32 := Nat.and_two_pow_sub_one_eq_mod v.toNat 5

theorem lowTwo_eq : lowTwo v = v.toNat % 4 := Nat.and_two_pow_sub_one_eq_mod v.toNat 2

theorem modeBit_eq : modeBit v = v.toNat % 2 := Nat.and_two_pow_sub_one_eq_mod v.toNat 1

theorem lowNibble_eq : lowNibble v = v.toNat % 16 := Nat.and_two_pow_sub_one_eq_mod v.toNat 4

theorem ramEnableTest_eq : ramEnableTest v = decide (v.toNat % 16 = 0xA) := by
  simp [ramEnableTest, lowNibble_eq, beq_eq_decide]

/-- Masking by a power of two less one is the remainder. -/
theorem and_sub_one_eq_mod (hx : x = 2 ^ x.log2) : l &&& (x - 1) = l % x := by
  rw [hx, Nat.and_two_pow_sub_one_eq_mod]

theorem romBankCount_pow (hc : c.wf = true) : c.romBankCount = 2 ^ c.romBankCount.log2 := by
  simp only [Cfg.wf, Bool.and_eq_true, beq_iff_eq] at hc
  exact hc.1

theorem romBankCount_pos (hc : c.wf = true) : 0 < c.romBankCount := by
  rw [romBankCount_pow hc]; positivity

/-- R222 in plain numbers. -/
theorem mbc1RomIndex_eq (hc : c.wf = true) (hl : l < 32) :
    mbc1RomIndex c l h =
      (if 32 * h + l = 0 ∨ 32 * h + l = 32 ∨ 32 * h + l = 64 ∨ 32 * h + l = 96 then 32 * h + l + 1 else 32 * h + l) %
        c.romBankCount := by
  have hx : l ||| h <<< 5 = 32 * h + l := by
    rw [Nat.or_comm, ← Nat.shiftLeft_add_eq_or_of_lt (i := 5) hl h, Nat.shiftLeft_eq]; omega
  simp only [mbc1RomIndex, hx]
  rw [and_sub_one_eq_mod (romBankCount_pow hc)]

/-- An MBC1 ROM index is at most 0x7F and below the bank count. -/
theorem mbc1RomIndex_le (hc : c.wf = true) (hl : l < 32) (hh : h < 4) :
    mbc1RomIndex c l h ≤ 0x7F ∧ mbc1RomIndex c l h ≤ c.romBankCount - 1 := by
  rw [mbc1RomIndex_eq hc hl]
  have hp := romBankCount_pos hc
  refine ⟨le_trans (Nat.mod_le _ _) ?_, Nat.le_sub_one_of_lt (Nat.mod_lt _ hp)⟩
  split <;> omega

/-- R272 in plain numbers. -/
theorem mbc2RomIndex_eq (hc : c.wf = true) :
    mbc2RomIndex c v = (if v.toNat % 16 = 0 then 1 else v.toNat % 16) % c.romBankCount := by
  rw [mbc2RomIndex, lowNibble_eq, and_sub_one_eq_mod (romBankCount_pow hc)]

/-- An MBC2 ROM index is at most 0x0F and below the bank count. -/
theorem mbc2RomIndex_le (hc : c.wf = true) :
    mbc2RomIndex c v ≤ 0x0F ∧ mbc2RomIndex c v ≤ c.romBankCount - 1 := by
  rw [mbc2RomIndex_eq hc]
  have hp := romBankCount_pos hc
  refine ⟨le_trans (Nat.mod_le _ _) ?_, Nat.le_sub_one_of_lt (Nat.mod_lt _ hp)⟩
  split <;> omega

/-- A mode-1 RAM bank is at most 3 and below the bank count. -/
theorem mbc1RamBank_le : mbc1RamBank c v ≤ 3 ∧ mbc1RamBank c v ≤ c.ramBankCount - 1 := by
  refine ⟨le_trans Nat.and_le_left ?_, Nat.and_le_right⟩
  rw [lowTwo_eq]; omega

/-- R46 item by item for an MBC1 mapper. -/
theorem inv_mbc1 (hv : c.variant = .mbc1) :
    m.inv c = true ↔
      m.bankingMode ≤ 1 ∧ (m.bankingMode = 1 → c.ramSizeClass = 3) ∧ m.higherRomBankBits ≤ 3 ∧
      (m.currentRomBankIndex ≤ 0x7F ∧ (m.currentRomBankIndex = 1 ∨ m.currentRomBankIndex ≤ c.romBankCount - 1)) ∧
      m.currentRomByteOffset = m.currentRomBankIndex * 0x4000 ∧
      (m.currentRamBankIndex ≤ 3 ∧ (m.currentRamBankIndex = 0 ∨ m.currentRamBankIndex ≤ c.ramBankCount - 1)) ∧
      m.currentRamByteOffset = m.currentRamBankIndex * 0x2000 ∧
      Memory.wf .ram 0x8000 m.ramBuffer = true := by
  simp [Mapper.inv, Mapper.w1, Mapper.w2, Mapper.w3, Mapper.w4, Mapper.w5, Mapper.w6, Mapper.w7, Mapper.w8, hv,
    maxRomIndex, ramSize, and_assoc, imp_iff_not_or]

/-- R46 item by item for an MBC2 mapper. -/
theorem inv_mbc2 (hv : c.variant = .mbc2) :
    m.inv c = true ↔
      (m.currentRomBankIndex ≤ 0x0F ∧ (m.currentRomBankIndex = 1 ∨ m.currentRomBankIndex ≤ c.romBankCount - 1)) ∧
      m.currentRomByteOffset = m.currentRomBankIndex * 0x4000 ∧
      Memory.wf .ram 0x200 m.ramBuffer = true := by
  simp [Mapper.inv, Mapper.w1, Mapper.w2, Mapper.w3, Mapper.w4, Mapper.w5, Mapper.w6, Mapper.w7, Mapper.w8, hv,
    maxRomIndex, ramSize, and_assoc]

/-- W8 alone, for either variant. -/
theorem inv_ramBuffer (hi : m.inv c = true) : Memory.wf .ram (ramSize c) m.ramBuffer = true := by
  simp only [Mapper.inv, Bool.and_eq_true] at hi
  exact hi.2

/-- The invariants look at no other field than these, and of the buffer only at its form. -/
theorem inv_congr {m' : Mapper} (hi : m.inv c = true) (h1 : m'.bankingMode = m.bankingMode)
    (h2 : m'.higherRomBankBits = m.higherRomBankBits) (h3 : m'.currentRomBankIndex = m.currentRomBankIndex)
    (h4 : m'.currentRomByteOffset = m.currentRomByteOffset) (h5 : m'.currentRamBankIndex = m.currentRamBankIndex)
    (h6 : m'.currentRamByteOffset = m.currentRamByteOffset) (h7 : Memory.wf .ram (ramSize c) m'.ramBuffer = true) :
    m'.inv c = true := by
  simp only [Mapper.inv, Bool.and_eq_true] at hi ⊢
  simp only [Mapper.w1, Mapper.w2, Mapper.w3, Mapper.w4, Mapper.w5, Mapper.w6, Mapper.w7, Mapper.w8, h1, h2, h3, h4, h5, h6,
    h7] at hi ⊢
  tauto

/-- A mapper state that meets W1–W8 fits its record from three bytes an integer on (R174). -/
theorem fits_of_inv (hi : 3 ≤ c.intBytes) (hb : 1 ≤ c.boolBytes) (h : m.inv c = true) (hid : m.mbc1FieldsIdle c) :
    m.Fits c := by
  have hp : 256 ^ 3 ≤ 256 ^ c.intBytes := Nat.pow_le_pow_right (by omega) hi
  have hw := inv_ramBuffer h
  cases hv : c.variant
  · have h := (inv_mbc1 hv).1 h
    constructor <;> first | assumption | omega
  · have h := (inv_mbc2 hv).1 h
    obtain ⟨i1, i2, i3, i4⟩ := hid hv
    constructor <;> first | assumption | omega

/-- The MBC2 write mask keeps the low nibble (R128). -/
theorem ofNat_lowNibble : BitVec.ofNat 8 (lowNibble v) = v &&& 0x0F := by
  apply BitVec.eq_of_toNat_eq
  simp only [lowNibble, BitVec.toNat_ofNat, BitVec.toNat_and]
  exact Nat.mod_eq_of_lt (lt_of_le_of_lt Nat.and_le_left v.isLt)

/-- `a & 0xE000` is the base of the 8 KiB region `a` lies in (R81). -/
theorem and_regionMask (h : x < 0x10000) : x &&& 0xE000 = x / 0x2000 * 0x2000 := by
  apply Nat.eq_of_testBit_eq
  intro i
  rw [show (0x2000 : Nat) = 2 ^ 13 from rfl, Nat.testBit_and, ← Nat.shiftRight_eq_div_pow, ← Nat.shiftLeft_eq,
    Nat.testBit_shiftLeft, Nat.testBit_shiftRight]
  by_cases hi : 13 ≤ i
  · simp only [hi, decide_true, Bool.true_and, show 13 + (i - 13) = i by omega]
    by_cases hi2 : i < 16
    · have : i = 13 ∨ i = 14 ∨ i = 15 := by omega
      have e : Nat.testBit 0xE000 13 = true ∧ Nat.testBit 0xE000 14 = true ∧ Nat.testBit 0xE000 15 = true := by decide
      rcases this with rfl | rfl | rfl <;> simp [e.1, e.2.1, e.2.2]
    · have hx : x < 2 ^ i := lt_of_lt_of_le (show x < 2 ^ 16 from h) (Nat.pow_le_pow_right (by omega) (by omega))
      rw [Nat.testBit_lt_two_pow hx]; rfl
  · have hi : i < 13 := by omega
    have : Nat.testBit 0xE000 i = false := by interval_cases i <;> decide
    simp [this, show ¬ 13 ≤ i by omega]

end Sys2Proof.Machine
end

