-- ==== Sys2Proof/Laws/Decode.lean ====
section
/-! SUPPORT. The words as sums of their fields (R121, R122), and the address bits the decoder reads. -/

namespace Sys2Proof

theorem readWord_eq (a : Addr) : readWord a = a.toNat * 256 := by
  simp [readWord, Nat.shiftLeft_eq]

theorem writeWord_eq (a : Addr) (v : Byte) : writeWord a v = 2 ^ 24 + a.toNat * 256 + v.toNat := by
  have ha := a.isLt
  have hv := v.isLt
  have h1 : (1 <<< 24 ||| a.toNat <<< 8) = 1 <<< 24 + a.toNat <<< 8 := by
    have := Nat.shiftLeft_add_eq_or_of_lt (i := 24) (b := a.toNat <<< 8) (by rw [Nat.shiftLeft_eq]; omega) 1
    exact this.symm
  have h2 : ((2 ^ 16 + a.toNat) <<< 8 ||| v.toNat) = (2 ^ 16 + a.toNat) <<< 8 + v.toNat :=
    (Nat.shiftLeft_add_eq_or_of_lt (i := 8) hv _).symm
  have h3 : 1 <<< 24 + a.toNat <<< 8 = (2 ^ 16 + a.toNat) <<< 8 := by
    simp only [Nat.shiftLeft_eq]; omega
  unfold writeWord
  rw [h1, h3, h2, Nat.shiftLeft_eq]
  omega

theorem hostWord_eq (op : Nat) (h : op < 256) : hostWord op = 2 ^ 25 + op := by
  have := Nat.shiftLeft_add_eq_or_of_lt (i := 25) (b := op) (by omega) 1
  unfold hostWord
  rw [← this, Nat.shiftLeft_eq]
  omega

/-- `a[8]` as the decoder and as WellFormed read it. -/
theorem getLsbD_eight (a : Addr) : a.getLsbD 8 = decide (bits 8 8 a.toNat = 1) := by
  rw [BitVec.getLsbD, Nat.testBit_eq_decide_div_mod_eq]
  rfl

@[simp] theorem Addr.within_iff (lo hi : Nat) (a : Addr) :
    a.within lo hi = true ↔ lo ≤ a.toNat ∧ a.toNat ≤ hi := by
  simp [Addr.within]

/-- A read word decodes to the row of its address, whatever stands beside it (R121). -/
theorem decode_readWord (v : Variant) (a : Addr) (o : HostOperands) : decode v (readWord a) o = .ok (decodeRead v a) := by
  have ha := a.isLt
  have h23 : bits 23 8 (readWord a) = a.toNat := by rw [readWord_eq]; unfold bits; omega
  have h26 : ¬ 0x4000000 ≤ readWord a := by rw [readWord_eq]; omega
  have h25 : ¬ bits 25 25 (readWord a) = 1 := by rw [readWord_eq]; unfold bits; omega
  have h24 : ¬ bits 24 24 (readWord a) = 1 := by rw [readWord_eq]; unfold bits; omega
  have h7 : bits 7 0 (readWord a) = 0 := by rw [readWord_eq]; unfold bits; omega
  unfold decode
  simp [h26, h25, h24, h7, h23]

/-- A write word decodes to the row of its address, with its data byte (R121). -/
theorem decode_writeWord (v : Variant) (a : Addr) (d : Byte) (o : HostOperands) :
    decode v (writeWord a d) o = .ok (decodeWrite v a d) := by
  have ha := a.isLt
  have hd := d.isLt
  have h23 : bits 23 8 (writeWord a d) = a.toNat := by rw [writeWord_eq]; unfold bits; omega
  have h26 : ¬ 0x4000000 ≤ writeWord a d := by rw [writeWord_eq]; omega
  have h25 : ¬ bits 25 25 (writeWord a d) = 1 := by rw [writeWord_eq]; unfold bits; omega
  have h24 : bits 24 24 (writeWord a d) = 1 := by rw [writeWord_eq]; unfold bits; omega
  have h7 : bits 7 0 (writeWord a d) = d.toNat := by rw [writeWord_eq]; unfold bits; omega
  unfold decode
  simp [h26, h25, h24, h7, h23]

/-! ## The row of each address window (R126, R127) -/

section Windows

variable {a : Addr} {d : Byte}

theorem decodeRead_mbc1RdRom0 (h' : a.toNat ≤ 0x3FFF) :
    decodeRead .mbc1 a = .mbc1RdRom0 a := by
  have ha := a.isLt
  simp only [decodeRead]
  rw [if_pos (by unfold bits; omega)]

theorem decodeRead_mbc1RdRomx (h : 0x4000 ≤ a.toNat) (h' : a.toNat ≤ 0x7FFF) :
    decodeRead .mbc1 a = .mbc1RdRomx a := by
  have ha := a.isLt
  simp only [decodeRead]
  rw [if_neg (by unfold bits; omega), if_pos (by unfold bits; omega)]

theorem decodeRead_mbc1RdExt8000 (h : 0x8000 ≤ a.toNat) (h' : a.toNat ≤ 0x9FFF) :
    decodeRead .mbc1 a = .mbc1RdExt8000 a := by
  have ha := a.isLt
  simp only [decodeRead]
  rw [if_neg (by unfold bits; omega), if_neg (by unfold bits; omega), if_pos (by unfold bits; omega)]

theorem decodeRead_mbc1RdRam (h : 0xA000 ≤ a.toNat) (h' : a.toNat ≤ 0xBFFF) :
    decodeRead .mbc1 a = .mbc1RdRam a := by
  have ha := a.isLt
  simp only [decodeRead]
  rw [if_neg (by unfold bits; omega), if_neg (by unfold bits; omega), if_neg (by unfold bits; omega), if_pos (by unfold bits; omega)]

theorem decodeRead_mbc1RdExtC000 (h : 0xC000 ≤ a.toNat) :
    decodeRead .mbc1 a = .mbc1RdExtC000 a := by
  have ha := a.isLt
  simp only [decodeRead]
  rw [if_neg (by unfold bits; omega), if_neg (by unfold bits; omega), if_neg (by unfold bits; omega), if_neg (by unfold bits; omega)]

theorem decodeWrite_mbc1WrRamen (h' : a.toNat ≤ 0x1FFF) (h8 : a.getLsbD 8 = false) :
    decodeWrite .mbc1 a d = .mbc1WrRamen a d := by
  have ha := a.isLt
  rw [getLsbD_eight] at h8
  have h8 := of_decide_eq_false h8
  unfold bits at h8
  simp only [decodeWrite]
  rw [if_pos (by unfold bits; omega), if_pos (by unfold bits; omega)]

theorem decodeWrite_mbc1WrRamenAlias (h' : a.toNat ≤ 0x1FFF) (h8 : a.getLsbD 8 = true) :
    decodeWrite .mbc1 a d = .mbc1WrRamenAlias a d := by
  have ha := a.isLt
  rw [getLsbD_eight] at h8
  have h8 := of_decide_eq_true h8
  unfold bits at h8
  simp only [decodeWrite]
  rw [if_pos (by unfold bits; omega), if_neg (by unfold bits; omega)]

theorem decodeWrite_mbc1WrRomlo (h : 0x2000 ≤ a.toNat) (h' : a.toNat ≤ 0x3FFF) :
    decodeWrite .mbc1 a d = .mbc1WrRomlo a d := by
  have ha := a.isLt
  simp only [decodeWrite]
  rw [if_neg (by unfold bits; omega), if_pos (by unfold bits; omega)]

theorem decodeWrite_mbc1WrBankhi (h : 0x4000 ≤ a.toNat) (h' : a.toNat ≤ 0x5FFF) :
    decodeWrite .mbc1 a d = .mbc1WrBankhi a d := by
  have ha := a.isLt
  simp only [decodeWrite]
  rw [if_neg (by unfold bits; omega), if_neg (by unfold bits; omega), if_pos (by unfold bits; omega)]

theorem decodeWrite_mbc1WrMode (h : 0x6000 ≤ a.toNat) (h' : a.toNat ≤ 0x7FFF) :
    decodeWrite .mbc1 a d = .mbc1WrMode a d := by
  have ha := a.isLt
  simp only [decodeWrite]
  rw [if_neg (by unfold bits; omega), if_neg (by unfold bits; omega), if_neg (by unfold bits; omega), if_pos (by unfold bits; omega)]

theorem decodeWrite_mbc1WrExt8000 (h : 0x8000 ≤ a.toNat) (h' : a.toNat ≤ 0x9FFF) :
    decodeWrite .mbc1 a d = .mbc1WrExt8000 a d := by
  have ha := a.isLt
  simp only [decodeWrite]
  rw [if_neg (by unfold bits; omega), if_neg (by unfold bits; omega), if_neg (by unfold bits; omega), if_neg (by unfold bits; omega), if_pos (by unfold bits; omega)]

theorem decodeWrite_mbc1WrRam (h : 0xA000 ≤ a.toNat) (h' : a.toNat ≤ 0xBFFF) :
    decodeWrite .mbc1 a d = .mbc1WrRam a d := by
  have ha := a.isLt
  simp only [decodeWrite]
  rw [if_neg (by unfold bits; omega), if_neg (by unfold bits; omega), if_neg (by unfold bits; omega), if_neg (by unfold bits; omega), if_neg (by unfold bits; omega), if_pos (by unfold bits; omega)]

theorem decodeWrite_mbc1WrExtC000 (h : 0xC000 ≤ a.toNat) :
    decodeWrite .mbc1 a d = .mbc1WrExtC000 a d := by
  have ha := a.isLt
  simp only [decodeWrite]
  rw [if_neg (by unfold bits; omega), if_neg (by unfold bits; omega), if_neg (by unfold bits; omega), if_neg (by unfold bits; omega), if_neg (by unfold bits; omega), if_neg (by unfold bits; omega)]

theorem decodeRead_mbc2RdRom0 (h' : a.toNat ≤ 0x3FFF) :
    decodeRead .mbc2 a = .mbc2RdRom0 a := by
  have ha := a.isLt
  simp only [decodeRead]
  rw [if_pos (by unfold bits; omega)]

theorem decodeRead_mbc2RdRomx (h : 0x4000 ≤ a.toNat) (h' : a.toNat ≤ 0x7FFF) :
    decodeRead .mbc2 a = .mbc2RdRomx a := by
  have ha := a.isLt
  simp only [decodeRead]
  rw [if_neg (by unfold bits; omega), if_pos (by unfold bits; omega)]

theorem decodeRead_mbc2RdExt8000 (h : 0x8000 ≤ a.toNat) (h' : a.toNat ≤ 0x9FFF) :
    decodeRead .mbc2 a = .mbc2RdExt8000 a := by
  have ha := a.isLt
  simp only [decodeRead]
  rw [if_neg (by unfold bits; omega), if_neg (by unfold bits; omega), if_pos (by unfold bits; omega)]

theorem decodeRead_mbc2RdRam (h : 0xA000 ≤ a.toNat) (h' : a.toNat ≤ 0xA1FF) :
    decodeRead .mbc2 a = .mbc2RdRam a := by
  have ha := a.isLt
  simp only [decodeRead]
  rw [if_neg (by unfold bits; omega), if_neg (by unfold bits; omega), if_neg (by unfold bits; omega), if_pos (by unfold bits; omega)]

theorem decodeRead_mbc2RdRamNa (h : 0xA200 ≤ a.toNat) (h' : a.toNat ≤ 0xBFFF) :
    decodeRead .mbc2 a = .mbc2RdRamNa a := by
  have ha := a.isLt
  simp only [decodeRead]
  rw [if_neg (by unfold bits; omega), if_neg (by unfold bits; omega), if_neg (by unfold bits; omega), if_neg (by unfold bits; omega), if_pos (by unfold bits; omega)]

theorem decodeRead_mbc2RdExtC000 (h : 0xC000 ≤ a.toNat) :
    decodeRead .mbc2 a = .mbc2RdExtC000 a := by
  have ha := a.isLt
  simp only [decodeRead]
  rw [if_neg (by unfold bits; omega), if_neg (by unfold bits; omega), if_neg (by unfold bits; omega), if_neg (by unfold bits; omega), if_neg (by unfold bits; omega)]

theorem decodeWrite_mbc2WrRamen (h' : a.toNat ≤ 0x1FFF) (h8 : a.getLsbD 8 = false) :
    decodeWrite .mbc2 a d = .mbc2WrRamen a d := by
  have ha := a.isLt
  rw [getLsbD_eight] at h8
  have h8 := of_decide_eq_false h8
  unfold bits at h8
  simp only [decodeWrite]
  rw [if_pos (by unfold bits; omega), if_pos (by unfold bits; omega)]

theorem decodeWrite_mbc2WrRamenAlias (h' : a.toNat ≤ 0x1FFF) (h8 : a.getLsbD 8 = true) :
    decodeWrite .mbc2 a d = .mbc2WrRamenAlias a d := by
  have ha := a.isLt
  rw [getLsbD_eight] at h8
  have h8 := of_decide_eq_true h8
  unfold bits at h8
  simp only [decodeWrite]
  rw [if_pos (by unfold bits; omega), if_neg (by unfold bits; omega)]

theorem decodeWrite_mbc2WrRomsel (h : 0x2000 ≤ a.toNat) (h' : a.toNat ≤ 0x3FFF) (h8 : a.getLsbD 8 = true) :
    decodeWrite .mbc2 a d = .mbc2WrRomsel a d := by
  have ha := a.isLt
  rw [getLsbD_eight] at h8
  have h8 := of_decide_eq_true h8
  unfold bits at h8
  simp only [decodeWrite]
  rw [if_neg (by unfold bits; omega), if_pos (by unfold bits; omega), if_pos (by unfold bits; omega)]

theorem decodeWrite_mbc2WrRomselAlias (h : 0x2000 ≤ a.toNat) (h' : a.toNat ≤ 0x3FFF) (h8 : a.getLsbD 8 = false) :
    decodeWrite .mbc2 a d = .mbc2WrRomselAlias a d := by
  have ha := a.isLt
  rw [getLsbD_eight] at h8
  have h8 := of_decide_eq_false h8
  unfold bits at h8
  simp only [decodeWrite]
  rw [if_neg (by unfold bits; omega), if_pos (by unfold bits; omega), if_neg (by unfold bits; omega)]

theorem decodeWrite_mbc2WrRomRej (h : 0x4000 ≤ a.toNat) (h' : a.toNat ≤ 0x7FFF) :
    decodeWrite .mbc2 a d = .mbc2WrRomRej a d := by
  have ha := a.isLt
  simp only [decodeWrite]
  rw [if_neg (by unfold bits; omega), if_neg (by unfold bits; omega), if_pos (by unfold bits; omega)]

theorem decodeWrite_mbc2WrExt8000 (h : 0x8000 ≤ a.toNat) (h' : a.toNat ≤ 0x9FFF) :
    decodeWrite .mbc2 a d = .mbc2WrExt8000 a d := by
  have ha := a.isLt
  simp only [decodeWrite]
  rw [if_neg (by unfold bits; omega), if_neg (by unfold bits; omega), if_neg (by unfold bits; omega), if_pos (by unfold bits; omega)]

theorem decodeWrite_mbc2WrRam (h : 0xA000 ≤ a.toNat) (h' : a.toNat ≤ 0xA1FF) :
    decodeWrite .mbc2 a d = .mbc2WrRam a d := by
  have ha := a.isLt
  simp only [decodeWrite]
  rw [if_neg (by unfold bits; omega), if_neg (by unfold bits; omega), if_neg (by unfold bits; omega), if_neg (by unfold bits; omega), if_pos (by unfold bits; omega)]

theorem decodeWrite_mbc2WrRamNa (h : 0xA200 ≤ a.toNat) (h' : a.toNat ≤ 0xBFFF) :
    decodeWrite .mbc2 a d = .mbc2WrRamNa a d := by
  have ha := a.isLt
  simp only [decodeWrite]
  rw [if_neg (by unfold bits; omega), if_neg (by unfold bits; omega), if_neg (by unfold bits; omega), if_neg (by unfold bits; omega), if_neg (by unfold bits; omega), if_pos (by unfold bits; omega)]

theorem decodeWrite_mbc2WrExtC000 (h : 0xC000 ≤ a.toNat) :
    decodeWrite .mbc2 a d = .mbc2WrExtC000 a d := by
  have ha := a.isLt
  simp only [decodeWrite]
  rw [if_neg (by unfold bits; omega), if_neg (by unfold bits; omega), if_neg (by unfold bits; omega), if_neg (by unfold bits; omega), if_neg (by unfold bits; omega), if_neg (by unfold bits; omega)]

end Windows

/-- The row a read address selects belongs to the variant, its window holds the address, and its word is the read word. -/
theorem decodeRead_spec (v : Variant) (a : Addr) :
    (decodeRead v a).wf v = true ∧ encode (decodeRead v a) = readWord a := by
  have ha := a.isLt
  cases v <;> simp only [decodeRead] <;> (repeat' split) <;> simp [Instr.wf, encode] <;> unfold bits at * <;> omega

end Sys2Proof
end

