-- ==== Sys2Proof/Laws/Exec.lean ====
section
/-! SUPPORT. What an operation can do when it answers a next state: one inversion lemma per constructor, and the facts about all of
them that only the guards decide. -/

namespace Sys2Proof.Machine

variable {s t : State} {a : Addr} {v : Byte} {b : Bool} {st : Stream} {n : Nat} {ob : Option Handle}

/-- No guard and no meaning refuses a word: only the decoder does. -/
theorem guarded_ne_illFormedWord {i : Instr} {k : Outcome} {e : DecodeError} (h : k ≠ .refused (.illFormedWord e)) :
    guarded i s k ≠ .refused (.illFormedWord e) := by
  unfold guarded guardedLive
  repeat' split
  all_goals first | exact h | simp

theorem exec_mbc1RdRom0_next :
    exec (.mbc1RdRom0 a) s = .next t ↔
      s.Ready ∧ Instr.wf s.cfg.variant (.mbc1RdRom0 a) = true ∧
        t = s.answer { result := .byte (s.retrieve a.toNat) } := by
  simp only [exec, execMbc1RdRom0, guarded_next, delegatedRead_next]

theorem exec_mbc1RdRomx_next :
    exec (.mbc1RdRomx a) s = .next t ↔
      s.Ready ∧ Instr.wf s.cfg.variant (.mbc1RdRomx a) = true ∧
        s.mapper.romIndex a < s.cfg.romLen ∧
        t = s.answer { result := .byte (Memory.read .rom s.cfg.rom (s.mapper.romIndex a)) } := by
  simp only [exec, execMbc1RdRomx, guarded_next, romByte_next]

theorem exec_mbc1RdExt8000_next :
    exec (.mbc1RdExt8000 a) s = .next t ↔
      s.Ready ∧ Instr.wf s.cfg.variant (.mbc1RdExt8000 a) = true ∧
        t = s.answer { result := .byte (s.retrieve a.toNat) } := by
  simp only [exec, execMbc1RdExt8000, guarded_next, delegatedRead_next]

theorem exec_mbc1RdRam_next :
    exec (.mbc1RdRam a) s = .next t ↔
      s.Ready ∧ Instr.wf s.cfg.variant (.mbc1RdRam a) = true ∧
        ((s.mapper.ramEnabled = false ∧ t = s.answer { result := .byte 0xFF, diagnostics := [.disabledRamRead] }) ∨
          (s.mapper.ramEnabled = true ∧ s.mapper.mbc1RamIndex a < ramSize s.cfg ∧
            t = s.answer { result := .byte (s.mapper.ramRead (s.mapper.mbc1RamIndex a)), diagnostics := smallRamDiagnostic s.cfg s.mapper a })) := by
  simp only [exec, execMbc1RdRam, guarded_next]
  cases s.mapper.ramEnabled <;> simp [answerByte_next, ramByte_next]

theorem exec_mbc1RdExtC000_next :
    exec (.mbc1RdExtC000 a) s = .next t ↔
      s.Ready ∧ Instr.wf s.cfg.variant (.mbc1RdExtC000 a) = true ∧
        t = s.answer { result := .byte (s.retrieve a.toNat) } := by
  simp only [exec, execMbc1RdExtC000, guarded_next, delegatedRead_next]

theorem exec_mbc1WrRamen_next :
    exec (.mbc1WrRamen a v) s = .next t ↔
      s.Ready ∧ Instr.wf s.cfg.variant (.mbc1WrRamen a v) = true ∧
        t = s.afterControl { s.mapper with ramEnabled := ramEnableTest v }
          { events := ramChangedEvents s.mapper.ramEnabled (ramEnableTest v) s.mapper.ramChangedCallback } := by
  simp only [exec, execMbc1WrRamen, guarded_next, ramEnableWrite_next, State.afterControl]

theorem exec_mbc1WrRamenAlias_next :
    exec (.mbc1WrRamenAlias a v) s = .next t ↔
      s.Ready ∧ Instr.wf s.cfg.variant (.mbc1WrRamenAlias a v) = true ∧
        t = s.afterControl s.mapper {} := by
  simp only [exec, execMbc1WrRamenAlias, guarded_next, ignoredControlWrite, controlWrite_next, State.afterControl]

theorem exec_mbc1WrRomlo_next :
    exec (.mbc1WrRomlo a v) s = .next t ↔
      s.Ready ∧ Instr.wf s.cfg.variant (.mbc1WrRomlo a v) = true ∧
        t = s.afterControl
          (s.mapper.setRom (mbc1RomIndex s.cfg (lowFive v)
            (if s.mapper.bankingMode = 0 then s.mapper.higherRomBankBits else 0))) {} := by
  simp only [exec, execMbc1WrRomlo, guarded_next]
  split <;> simp only [controlWrite_next, State.afterControl]

theorem exec_mbc1WrBankhi_next :
    exec (.mbc1WrBankhi a v) s = .next t ↔
      s.Ready ∧ Instr.wf s.cfg.variant (.mbc1WrBankhi a v) = true ∧
        t = s.afterControl
          (if s.mapper.bankingMode = 1 then s.mapper.setRamBank (mbc1RamBank s.cfg v)
           else ({ s.mapper with higherRomBankBits := lowTwo v } : Mapper).setRom
             (mbc1RomIndex s.cfg (s.mapper.currentRomBankIndex &&& 0x1F) (lowTwo v))) {} := by
  simp only [exec, execMbc1WrBankhi, guarded_next]
  split <;> simp only [controlWrite_next, State.afterControl]

theorem exec_mbc1WrMode_next :
    exec (.mbc1WrMode a v) s = .next t ↔
      s.Ready ∧ Instr.wf s.cfg.variant (.mbc1WrMode a v) = true ∧
        t = (if modeAccepted s.cfg (modeBit v) = true then s.afterControl { s.mapper with bankingMode := modeBit v } {}
          else s.afterControl s.mapper { diagnostics := [.modeOneRejected] }) := by
  simp only [exec, execMbc1WrMode, guarded_next]
  split <;> simp only [ignoredControlWrite, controlWrite_next, State.afterControl]

theorem exec_mbc1WrExt8000_next :
    exec (.mbc1WrExt8000 a v) s = .next t ↔
      s.Ready ∧ Instr.wf s.cfg.variant (.mbc1WrExt8000 a v) = true ∧
        t = (s.load a.toNat v).answer {} := by
  simp only [exec, execMbc1WrExt8000, guarded_next, delegatedWrite_next]

theorem exec_mbc1WrRam_next :
    exec (.mbc1WrRam a v) s = .next t ↔
      s.Ready ∧ Instr.wf s.cfg.variant (.mbc1WrRam a v) = true ∧
        ((s.mapper.ramEnabled = false ∧ t = s.answer { diagnostics := [.disabledRamWrite] }) ∨
          (s.mapper.ramEnabled = true ∧ s.mapper.mbc1RamIndex a < ramSize s.cfg ∧
            t = { s with mapper := s.mapper.ramWrite (s.mapper.mbc1RamIndex a) v, out := { diagnostics := smallRamDiagnostic s.cfg s.mapper a } })) := by
  simp only [exec, execMbc1WrRam, guarded_next]
  cases s.mapper.ramEnabled <;> simp [droppedWrite_next, setRamByte_next]

theorem exec_mbc1WrExtC000_next :
    exec (.mbc1WrExtC000 a v) s = .next t ↔
      s.Ready ∧ Instr.wf s.cfg.variant (.mbc1WrExtC000 a v) = true ∧
        t = (s.load a.toNat v).answer {} := by
  simp only [exec, execMbc1WrExtC000, guarded_next, delegatedWrite_next]

theorem exec_mbc2RdRom0_next :
    exec (.mbc2RdRom0 a) s = .next t ↔
      s.Ready ∧ Instr.wf s.cfg.variant (.mbc2RdRom0 a) = true ∧
        t = s.answer { result := .byte (s.retrieve a.toNat) } := by
  simp only [exec, execMbc2RdRom0, guarded_next, delegatedRead_next]

theorem exec_mbc2RdRomx_next :
    exec (.mbc2RdRomx a) s = .next t ↔
      s.Ready ∧ Instr.wf s.cfg.variant (.mbc2RdRomx a) = true ∧
        s.mapper.romIndex a < s.cfg.romLen ∧
        t = s.answer { result := .byte (Memory.read .rom s.cfg.rom (s.mapper.romIndex a)) } := by
  simp only [exec, execMbc2RdRomx, guarded_next, romByte_next]

theorem exec_mbc2RdExt8000_next :
    exec (.mbc2RdExt8000 a) s = .next t ↔
      s.Ready ∧ Instr.wf s.cfg.variant (.mbc2RdExt8000 a) = true ∧
        t = s.answer { result := .byte (s.retrieve a.toNat) } := by
  simp only [exec, execMbc2RdExt8000, guarded_next, delegatedRead_next]

theorem exec_mbc2RdRam_next :
    exec (.mbc2RdRam a) s = .next t ↔
      s.Ready ∧ Instr.wf s.cfg.variant (.mbc2RdRam a) = true ∧
        ((s.mapper.ramEnabled = false ∧ t = s.answer { result := .byte 0xFF, diagnostics := [.disabledRamRead] }) ∨
          (s.mapper.ramEnabled = true ∧ mbc2RamIndex a < ramSize s.cfg ∧
            t = s.answer { result := .byte (s.mapper.ramRead (mbc2RamIndex a)) })) := by
  simp only [exec, execMbc2RdRam, guarded_next]
  cases s.mapper.ramEnabled <;> simp [answerByte_next, ramByte_next]

theorem exec_mbc2RdRamNa_next :
    exec (.mbc2RdRamNa a) s = .next t ↔
      s.Ready ∧ Instr.wf s.cfg.variant (.mbc2RdRamNa a) = true ∧
        t = s.answer { result := .byte 0x00, diagnostics := [.nonAddressableRead] } := by
  simp only [exec, execMbc2RdRamNa, guarded_next, answerByte_next]

theorem exec_mbc2RdExtC000_next :
    exec (.mbc2RdExtC000 a) s = .next t ↔
      s.Ready ∧ Instr.wf s.cfg.variant (.mbc2RdExtC000 a) = true ∧
        t = s.answer { result := .byte (s.retrieve a.toNat) } := by
  simp only [exec, execMbc2RdExtC000, guarded_next, delegatedRead_next]

theorem exec_mbc2WrRamen_next :
    exec (.mbc2WrRamen a v) s = .next t ↔
      s.Ready ∧ Instr.wf s.cfg.variant (.mbc2WrRamen a v) = true ∧
        t = s.afterControl { s.mapper with ramEnabled := ramEnableTest v }
          { events := ramChangedEvents s.mapper.ramEnabled (ramEnableTest v) s.mapper.ramChangedCallback } := by
  simp only [exec, execMbc2WrRamen, guarded_next, ramEnableWrite_next, State.afterControl]

theorem exec_mbc2WrRamenAlias_next :
    exec (.mbc2WrRamenAlias a v) s = .next t ↔
      s.Ready ∧ Instr.wf s.cfg.variant (.mbc2WrRamenAlias a v) = true ∧
        t = s.afterControl s.mapper {} := by
  simp only [exec, execMbc2WrRamenAlias, guarded_next, ignoredControlWrite, controlWrite_next, State.afterControl]

theorem exec_mbc2WrRomsel_next :
    exec (.mbc2WrRomsel a v) s = .next t ↔
      s.Ready ∧ Instr.wf s.cfg.variant (.mbc2WrRomsel a v) = true ∧
        t = s.afterControl (s.mapper.setRom (mbc2RomIndex s.cfg v)) {} := by
  simp only [exec, execMbc2WrRomsel, guarded_next, controlWrite_next, State.afterControl]

theorem exec_mbc2WrRomselAlias_next :
    exec (.mbc2WrRomselAlias a v) s = .next t ↔
      s.Ready ∧ Instr.wf s.cfg.variant (.mbc2WrRomselAlias a v) = true ∧
        t = s.afterControl s.mapper {} := by
  simp only [exec, execMbc2WrRomselAlias, guarded_next, ignoredControlWrite, controlWrite_next, State.afterControl]

theorem exec_mbc2WrRomRej_next :
    exec (.mbc2WrRomRej a v) s = .next t ↔
      s.Ready ∧ Instr.wf s.cfg.variant (.mbc2WrRomRej a v) = true ∧
        t = s.afterControl s.mapper { diagnostics := [.romRegionWriteRejected] } := by
  simp only [exec, execMbc2WrRomRej, guarded_next, ignoredControlWrite, controlWrite_next, State.afterControl]

theorem exec_mbc2WrExt8000_next :
    exec (.mbc2WrExt8000 a v) s = .next t ↔
      s.Ready ∧ Instr.wf s.cfg.variant (.mbc2WrExt8000 a v) = true ∧
        t = (s.load a.toNat v).answer {} := by
  simp only [exec, execMbc2WrExt8000, guarded_next, delegatedWrite_next]

theorem exec_mbc2WrRam_next :
    exec (.mbc2WrRam a v) s = .next t ↔
      s.Ready ∧ Instr.wf s.cfg.variant (.mbc2WrRam a v) = true ∧
        ((s.mapper.ramEnabled = false ∧ t = s.answer { diagnostics := [.disabledRamWrite] }) ∨
          (s.mapper.ramEnabled = true ∧ mbc2RamIndex a < ramSize s.cfg ∧
            t = { s with mapper := s.mapper.ramWrite (mbc2RamIndex a) (BitVec.ofNat 8 (lowNibble v)), out := {} })) := by
  simp only [exec, execMbc2WrRam, guarded_next]
  cases s.mapper.ramEnabled <;> simp [droppedWrite_next, setRamByte_next]

theorem exec_mbc2WrRamNa_next :
    exec (.mbc2WrRamNa a v) s = .next t ↔
      s.Ready ∧ Instr.wf s.cfg.variant (.mbc2WrRamNa a v) = true ∧
        t = s.answer { diagnostics := [.nonAddressableWrite] } := by
  simp only [exec, execMbc2WrRamNa, guarded_next, droppedWrite_next]

theorem exec_mbc2WrExtC000_next :
    exec (.mbc2WrExtC000 a v) s = .next t ↔
      s.Ready ∧ Instr.wf s.cfg.variant (.mbc2WrExtC000 a v) = true ∧
        t = (s.load a.toNat v).answer {} := by
  simp only [exec, execMbc2WrExtC000, guarded_next, delegatedWrite_next]

theorem exec_reset_next :
    exec (.reset b) s = .next t ↔
      s.Ready ∧ Instr.wf s.cfg.variant (.reset b) = true ∧
        t = s.afterControl (s.mapper.softReset s.cfg.variant) {} := by
  simp only [exec, execReset, guarded_next, softReset, controlWrite_next, State.afterControl]

theorem exec_saveBattery_next :
    exec (.saveBattery st) s = .next t ↔
      s.Ready ∧ t = s.answer { stream := some (st ++ Memory.bytes .ram s.mapper.ramBuffer 0 (batteryLen s.cfg)) } := by
  simp only [exec, execSaveBattery, guarded_next, saveBattery, Host.Outcome.next.injEq, Instr.wf, true_and]
  rw [eq_comm (a := t)]

theorem exec_loadBattery_next :
    exec (.loadBattery st n) s = .next t ↔ s.Ready ∧ loadBattery st n s = .next t := by
  simp only [exec, execLoadBattery, guarded_next, Instr.wf, true_and]

theorem exec_saveState_next :
    exec (.saveState st) s = .next t ↔
      s.Ready ∧ ∃ l, recordLayout s.cfg = some l ∧ t = s.answer { stream := some (st ++ recordBytes s.cfg l s.mapper) } := by
  simp only [exec, execSaveState, guarded_next, saveState, Instr.wf, true_and]
  cases recordLayout s.cfg <;> simp [eq_comm]

theorem exec_loadState_next :
    exec (.loadState st) s = .next t ↔
      s.Ready ∧ ∃ l m, recordLayout s.cfg = some l ∧ recordLen s.cfg l ≤ st.length ∧
        readRecord s.cfg l st s.mapper = some m ∧ m.inv s.cfg = true ∧
        t = s.afterControl m { stream := some (st.drop (recordLen s.cfg l)) } := by
  simp only [exec, execLoadState, guarded_next, loadState, Instr.wf, true_and, holds_eq]
  cases recordLayout s.cfg with
  | none => simp
  | some l =>
    by_cases hl : recordLen s.cfg l ≤ st.length
    · cases hr : readRecord s.cfg l st s.mapper with
      | none => simp [hl, hr]
      | some m => by_cases hm : m.inv s.cfg = true <;> simp [hl, hr, hm, controlWrite_next, State.afterControl]
    · simp [hl]

theorem exec_setCallback_next :
    exec (.setCallback ob) s = .next t ↔
      s.Ready ∧ ∃ h, ob = some h ∧ t = { s with mapper := { s.mapper with ramChangedCallback := some h }, out := {} } := by
  simp only [exec, execSetCallback, guarded_next, Instr.wf, true_and]
  cases ob <;> simp [State.answer, eq_comm]

theorem exec_viewBank0_next :
    exec .viewBank0 s = .next t ↔
      s.Ready ∧ t = s.afterHandOut { space := .addressSpace, base := 0, length := 0x4000, readOnly := true } := by
  simp only [exec, execViewBank0, guarded_next, Instr.wf, true_and, handOut_next, State.afterHandOut]

theorem exec_viewRomx_next :
    exec .viewRomx s = .next t ↔
      s.Ready ∧ t = s.afterHandOut
        { space := .rom, base := s.mapper.currentRomByteOffset, length := 0x4000, readOnly := true } := by
  simp only [exec, execViewRomx, guarded_next, Instr.wf, true_and, handOut_next, State.afterHandOut]

theorem exec_viewRamx_next :
    exec .viewRamx s = .next t ↔
      s.Ready ∧
        ((s.cfg.variant = .mbc1 ∧ s.cfg.ramBankCount = 0 ∧ t = s.answer { result := .noView }) ∨
          (s.cfg.variant = .mbc1 ∧ s.cfg.ramBankCount ≠ 0 ∧ t = s.afterHandOut
            { space := .ram, base := s.mapper.currentRamByteOffset, length := 0x2000, readOnly := false }) ∨
          (s.cfg.variant = .mbc2 ∧ t = s.afterHandOut
            { space := .ram, base := 0, length := 0x200, readOnly := false })) := by
  simp only [exec, execViewRamx, guarded_next, Instr.wf, true_and]
  cases s.cfg.variant
  · by_cases h : s.cfg.ramBankCount = 0
    · simp [h, eq_comm]
    · simp [h, handOut_next, State.afterHandOut]
  · simp [handOut_next, State.afterHandOut]

theorem exec_viewRamAll_next :
    exec .viewRamAll s = .next t ↔
      s.Ready ∧ t = s.afterHandOut { space := .ram, base := 0, length := ramSize s.cfg, readOnly := false } := by
  simp only [exec, execViewRamAll, guarded_next, Instr.wf, true_and, handOut_next, State.afterHandOut]

/-- An operation answers a next state only on a ready machine and only of its own variant and window. -/
theorem exec_next_ready {i : Instr} (h : exec i s = .next t) : s.Ready ∧ i.wf s.cfg.variant = true := by
  cases i <;> exact ⟨(guarded_next.1 h).1, (guarded_next.1 h).2.1⟩

end Sys2Proof.Machine
end

