-- ==== Sys2Proof/Laws/PerInstr.lean ====
section
/-! SUPPORT. Statements about every operation as syntax, one lemma per constructor. -/

namespace Sys2Proof.Laws

/-- The word of an operation fits the 26 bits of R120 and carries its format in bit 25. -/
def WordInRange.Statement (i : Instr) : Prop :=
  encode i < 0x4000000 ∧ (bits 25 25 (encode i) = 1 ↔ ∀ v, i.wf v = true)

theorem WordInRange.of_read {i : Instr} (a : Addr) (h : encode i = readWord a) (hv : ∃ v, i.wf v = false) :
    WordInRange.Statement i := by
  have ha := a.isLt
  obtain ⟨v, hv⟩ := hv
  unfold Statement
  rw [h, readWord_eq]
  refine ⟨by omega, ⟨fun hb => by unfold bits at hb; omega, fun hall => by simp [hall v] at hv⟩⟩

theorem WordInRange.of_write {i : Instr} (a : Addr) (d : Byte) (h : encode i = writeWord a d) (hv : ∃ v, i.wf v = false) :
    WordInRange.Statement i := by
  have ha := a.isLt
  have hd := d.isLt
  obtain ⟨v, hv⟩ := hv
  unfold Statement
  rw [h, writeWord_eq]
  refine ⟨by omega, ⟨fun hb => by unfold bits at hb; omega, fun hall => by simp [hall v] at hv⟩⟩

theorem WordInRange.of_host {i : Instr} (op : Nat) (hop : op < 256) (h : encode i = hostWord op) (hv : ∀ v, i.wf v = true) :
    WordInRange.Statement i := by
  unfold Statement
  rw [h, hostWord_eq op hop]
  refine ⟨by omega, ⟨fun _ => hv, fun _ => by unfold bits; omega⟩⟩

theorem WordInRange.mbc1RdRom0 (a : Addr) : WordInRange.Statement (.mbc1RdRom0 a) :=
  WordInRange.of_read a rfl ⟨.mbc2, by simp [Instr.wf]⟩

theorem WordInRange.mbc1RdRomx (a : Addr) : WordInRange.Statement (.mbc1RdRomx a) :=
  WordInRange.of_read a rfl ⟨.mbc2, by simp [Instr.wf]⟩

theorem WordInRange.mbc1RdExt8000 (a : Addr) : WordInRange.Statement (.mbc1RdExt8000 a) :=
  WordInRange.of_read a rfl ⟨.mbc2, by simp [Instr.wf]⟩

theorem WordInRange.mbc1RdRam (a : Addr) : WordInRange.Statement (.mbc1RdRam a) :=
  WordInRange.of_read a rfl ⟨.mbc2, by simp [Instr.wf]⟩

theorem WordInRange.mbc1RdExtC000 (a : Addr) : WordInRange.Statement (.mbc1RdExtC000 a) :=
  WordInRange.of_read a rfl ⟨.mbc2, by simp [Instr.wf]⟩

theorem WordInRange.mbc1WrRamen (a : Addr) (v : Byte) : WordInRange.Statement (.mbc1WrRamen a v) :=
  WordInRange.of_write a v rfl ⟨.mbc2, by simp [Instr.wf]⟩

theorem WordInRange.mbc1WrRamenAlias (a : Addr) (v : Byte) : WordInRange.Statement (.mbc1WrRamenAlias a v) :=
  WordInRange.of_write a v rfl ⟨.mbc2, by simp [Instr.wf]⟩

theorem WordInRange.mbc1WrRomlo (a : Addr) (v : Byte) : WordInRange.Statement (.mbc1WrRomlo a v) :=
  WordInRange.of_write a v rfl ⟨.mbc2, by simp [Instr.wf]⟩

theorem WordInRange.mbc1WrBankhi (a : Addr) (v : Byte) : WordInRange.Statement (.mbc1WrBankhi a v) :=
  WordInRange.of_write a v rfl ⟨.mbc2, by simp [Instr.wf]⟩

theorem WordInRange.mbc1WrMode (a : Addr) (v : Byte) : WordInRange.Statement (.mbc1WrMode a v) :=
  WordInRange.of_write a v rfl ⟨.mbc2, by simp [Instr.wf]⟩

theorem WordInRange.mbc1WrExt8000 (a : Addr) (v : Byte) : WordInRange.Statement (.mbc1WrExt8000 a v) :=
  WordInRange.of_write a v rfl ⟨.mbc2, by simp [Instr.wf]⟩

theorem WordInRange.mbc1WrRam (a : Addr) (v : Byte) : WordInRange.Statement (.mbc1WrRam a v) :=
  WordInRange.of_write a v rfl ⟨.mbc2, by simp [Instr.wf]⟩

theorem WordInRange.mbc1WrExtC000 (a : Addr) (v : Byte) : WordInRange.Statement (.mbc1WrExtC000 a v) :=
  WordInRange.of_write a v rfl ⟨.mbc2, by simp [Instr.wf]⟩

theorem WordInRange.mbc2RdRom0 (a : Addr) : WordInRange.Statement (.mbc2RdRom0 a) :=
  WordInRange.of_read a rfl ⟨.mbc1, by simp [Instr.wf]⟩

theorem WordInRange.mbc2RdRomx (a : Addr) : WordInRange.Statement (.mbc2RdRomx a) :=
  WordInRange.of_read a rfl ⟨.mbc1, by simp [Instr.wf]⟩

theorem WordInRange.mbc2RdExt8000 (a : Addr) : WordInRange.Statement (.mbc2RdExt8000 a) :=
  WordInRange.of_read a rfl ⟨.mbc1, by simp [Instr.wf]⟩

theorem WordInRange.mbc2RdRam (a : Addr) : WordInRange.Statement (.mbc2RdRam a) :=
  WordInRange.of_read a rfl ⟨.mbc1, by simp [Instr.wf]⟩

theorem WordInRange.mbc2RdRamNa (a : Addr) : WordInRange.Statement (.mbc2RdRamNa a) :=
  WordInRange.of_read a rfl ⟨.mbc1, by simp [Instr.wf]⟩

theorem WordInRange.mbc2RdExtC000 (a : Addr) : WordInRange.Statement (.mbc2RdExtC000 a) :=
  WordInRange.of_read a rfl ⟨.mbc1, by simp [Instr.wf]⟩

theorem WordInRange.mbc2WrRamen (a : Addr) (v : Byte) : WordInRange.Statement (.mbc2WrRamen a v) :=
  WordInRange.of_write a v rfl ⟨.mbc1, by simp [Instr.wf]⟩

theorem WordInRange.mbc2WrRamenAlias (a : Addr) (v : Byte) : WordInRange.Statement (.mbc2WrRamenAlias a v) :=
  WordInRange.of_write a v rfl ⟨.mbc1, by simp [Instr.wf]⟩

theorem WordInRange.mbc2WrRomsel (a : Addr) (v : Byte) : WordInRange.Statement (.mbc2WrRomsel a v) :=
  WordInRange.of_write a v rfl ⟨.mbc1, by simp [Instr.wf]⟩

theorem WordInRange.mbc2WrRomselAlias (a : Addr) (v : Byte) : WordInRange.Statement (.mbc2WrRomselAlias a v) :=
  WordInRange.of_write a v rfl ⟨.mbc1, by simp [Instr.wf]⟩

theorem WordInRange.mbc2WrRomRej (a : Addr) (v : Byte) : WordInRange.Statement (.mbc2WrRomRej a v) :=
  WordInRange.of_write a v rfl ⟨.mbc1, by simp [Instr.wf]⟩

theorem WordInRange.mbc2WrExt8000 (a : Addr) (v : Byte) : WordInRange.Statement (.mbc2WrExt8000 a v) :=
  WordInRange.of_write a v rfl ⟨.mbc1, by simp [Instr.wf]⟩

theorem WordInRange.mbc2WrRam (a : Addr) (v : Byte) : WordInRange.Statement (.mbc2WrRam a v) :=
  WordInRange.of_write a v rfl ⟨.mbc1, by simp [Instr.wf]⟩

theorem WordInRange.mbc2WrRamNa (a : Addr) (v : Byte) : WordInRange.Statement (.mbc2WrRamNa a v) :=
  WordInRange.of_write a v rfl ⟨.mbc1, by simp [Instr.wf]⟩

theorem WordInRange.mbc2WrExtC000 (a : Addr) (v : Byte) : WordInRange.Statement (.mbc2WrExtC000 a v) :=
  WordInRange.of_write a v rfl ⟨.mbc1, by simp [Instr.wf]⟩

theorem WordInRange.reset (isColorMode : Bool) : WordInRange.Statement (.reset isColorMode) :=
  WordInRange.of_host _ (by decide) rfl (fun _ => rfl)

theorem WordInRange.saveBattery (sink : Stream) : WordInRange.Statement (.saveBattery sink) :=
  WordInRange.of_host _ (by decide) rfl (fun _ => rfl)

theorem WordInRange.loadBattery (source : Stream) (knownLength : Nat) : WordInRange.Statement (.loadBattery source knownLength) :=
  WordInRange.of_host _ (by decide) rfl (fun _ => rfl)

theorem WordInRange.saveState (sink : Stream) : WordInRange.Statement (.saveState sink) :=
  WordInRange.of_host _ (by decide) rfl (fun _ => rfl)

theorem WordInRange.loadState (source : Stream) : WordInRange.Statement (.loadState source) :=
  WordInRange.of_host _ (by decide) rfl (fun _ => rfl)

theorem WordInRange.setCallback (observer : Option Handle) : WordInRange.Statement (.setCallback observer) :=
  WordInRange.of_host _ (by decide) rfl (fun _ => rfl)

theorem WordInRange.viewBank0 : WordInRange.Statement (.viewBank0) :=
  WordInRange.of_host _ (by decide) rfl (fun _ => rfl)

theorem WordInRange.viewRomx : WordInRange.Statement (.viewRomx) :=
  WordInRange.of_host _ (by decide) rfl (fun _ => rfl)

theorem WordInRange.viewRamx : WordInRange.Statement (.viewRamx) :=
  WordInRange.of_host _ (by decide) rfl (fun _ => rfl)

theorem WordInRange.viewRamAll : WordInRange.Statement (.viewRamAll) :=
  WordInRange.of_host _ (by decide) rfl (fun _ => rfl)

end Sys2Proof.Laws
end

