-- ==== Sys2Proof/Tests/Slice0.lean ====
section
/-! SUPPORT. Tests. Expected values come from spec/95_test_vectors.md (S1–S16, L2, P1–P5) or from the worked examples of the rules named;
the last part shows, for each obligation with hypotheses, a state and operands that meet them. -/

namespace Sys2Proof.Tests

open Sys2Proof Sys2Proof.Machine

/-! ## Machines -/

/-- Configuration A, with the bytes of `rom[o] = o >> 14` that the tests read. -/
def cfgA : Cfg := { resetCfg with rom := [(0x14000, 5), (0x84000, 0x21), (0x87FFF, 0x21), (0x94000, 0x25), (0x1FFFFF, 0x7F)] }

/-- Configuration B. -/
def cfgB : Cfg where
  variant := .mbc1
  rom := [(0x4000, 1), (0xC000, 3)]
  romLen := 0x10000
  romBankCount := 4
  ramBankCount := 1
  ramSizeClass := 1

/-- Configuration D. -/
def cfgD : Cfg where
  variant := .mbc1
  rom := []
  romLen := 0x8000
  romBankCount := 2
  ramBankCount := 0
  ramSizeClass := 0

/-- Configuration C. -/
def cfgC : Cfg where
  variant := .mbc2
  rom := [(0x4000, 1), (0xC000, 3), (0xD000, 3)]
  romLen := 0x40000
  romBankCount := 16
  ramBankCount := 0
  ramSizeClass := 0
  mbc2StateLayout := some [.ramEnabled, .currentRomBankIndex, .currentRomByteOffset, .ramBuffer]

/-- A machine of a configuration in a mapper state. -/
def machine (c : Cfg) (m : Mapper) : State := { State.reset with cfg := c, mapper := m }

/-- The mapper state after construction, with observer 7 registered. -/
def fresh : Mapper := { Mapper.constructed with ramChangedCallback := some 7 }

/-- As `fresh`, with RAM enabled. -/
def enabled : Mapper := { fresh with ramEnabled := true }

/-- What a test looks at: the next state, if there is one. -/
def nextOf : Host.Outcome State Fault Refusal → Option State
  | .next t => some t
  | _ => none

/-- The fault, if there is one. -/
def faultOf : Host.Outcome State Fault Refusal → Option Fault
  | .fault f => some f
  | _ => none

/-- The refusal, if there is one. -/
def refusalOf : Host.Outcome State Fault Refusal → Option Refusal
  | .refused r => some r
  | _ => none

/-- One operation, and a look at the next state. -/
def look (i : Instr) (s : State) (f : State → α) : Option α := (nextOf (exec i s)).map f

/-- One operation, and a look at the next mapper state. -/
def lookM (i : Instr) (s : State) (f : Mapper → α) : Option α := look i s (fun t => f t.mapper)

theorem exists_next_of {o : Host.Outcome State Fault Refusal} (h : (nextOf o).isSome = true) : ∃ t, o = .next t := by
  cases o with
  | next t => exact ⟨t, rfl⟩
  | fault f => cases h
  | refused r => cases h

/-! ## Well-formedness: an ill-formed term for each check -/

/-- R10: the configurations of the test vectors are well-formed. -/
theorem test_cfg_wf_of_the_vectors : [resetCfg, cfgA, cfgB, cfgC, cfgD].all Cfg.wf = true := by decide

/-- R10 (a). -/
theorem test_cfg_refuses_bank_count_3 : ({ cfgA with romBankCount := 3 } : Cfg).wf = false := by decide

/-- R10 (a), on MBC2. -/
theorem test_cfg_refuses_bank_count_0 : ({ cfgC with romBankCount := 0 } : Cfg).wf = false := by decide

/-- R10 (b). -/
theorem test_cfg_refuses_ram_bank_count_3 : ({ cfgA with ramBankCount := 3 } : Cfg).wf = false := by decide

/-- R10 (c). -/
theorem test_cfg_refuses_class_3_without_ram : ({ cfgA with ramBankCount := 0 } : Cfg).wf = false := by decide

/-- R10, D29: MBC2 looks at neither. -/
theorem test_cfg_mbc2_ignores_ram_parameters : ({ cfgC with ramBankCount := 7, ramSizeClass := 3 } : Cfg).wf = true := by decide

/-- R126: the first and the last address of each row's window. -/
theorem test_instr_wf_mbc1_window_ends :
    [.mbc1RdRom0 0x0000, .mbc1RdRom0 0x3FFF, .mbc1RdRomx 0x4000, .mbc1RdRomx 0x7FFF, .mbc1RdExt8000 0x8000,
      .mbc1RdExt8000 0x9FFF, .mbc1RdRam 0xA000, .mbc1RdRam 0xBFFF, .mbc1RdExtC000 0xC000, .mbc1RdExtC000 0xFFFF,
      .mbc1WrRamen 0x0000 0, .mbc1WrRamen 0x1EFF 0, .mbc1WrRamenAlias 0x0100 0, .mbc1WrRamenAlias 0x1FFF 0,
      .mbc1WrRomlo 0x2000 0, .mbc1WrRomlo 0x3FFF 0, .mbc1WrBankhi 0x4000 0, .mbc1WrBankhi 0x5FFF 0,
      .mbc1WrMode 0x6000 0, .mbc1WrMode 0x7FFF 0, .mbc1WrExt8000 0x8000 0, .mbc1WrExt8000 0x9FFF 0,
      .mbc1WrRam 0xA000 0, .mbc1WrRam 0xBFFF 0, .mbc1WrExtC000 0xC000 0, .mbc1WrExtC000 0xFFFF 0].all (Instr.wf .mbc1) = true := by decide

/-- The addresses just outside each row's window. -/
theorem test_instr_refuses_mbc1_outside_window :
    [.mbc1RdRom0 0x4000, .mbc1RdRomx 0x3FFF, .mbc1RdRomx 0x8000, .mbc1RdExt8000 0x7FFF, .mbc1RdExt8000 0xA000,
      .mbc1RdRam 0x9FFF, .mbc1RdRam 0xC000, .mbc1RdExtC000 0xBFFF, .mbc1WrRamen 0x2000 0, .mbc1WrRamenAlias 0x00FF 0,
      .mbc1WrRamenAlias 0x2100 0, .mbc1WrRomlo 0x1FFF 0, .mbc1WrRomlo 0x4000 0, .mbc1WrBankhi 0x3FFF 0,
      .mbc1WrBankhi 0x6000 0, .mbc1WrMode 0x5FFF 0, .mbc1WrMode 0x8000 0, .mbc1WrExt8000 0x7FFF 0,
      .mbc1WrExt8000 0xA000 0, .mbc1WrRam 0x9FFF 0, .mbc1WrRam 0xC000 0, .mbc1WrExtC000 0xBFFF 0].all (fun i => !Instr.wf .mbc1 i) = true := by decide

/-- R124: a row of the other variant. -/
theorem test_instr_refuses_mbc1_rows_under_mbc2 :
    [.mbc1RdRom0 0x0000, .mbc1RdRomx 0x4000, .mbc1RdExt8000 0x8000, .mbc1RdRam 0xA000, .mbc1RdExtC000 0xC000,
      .mbc1WrRamen 0x0000 0, .mbc1WrRamenAlias 0x0100 0, .mbc1WrRomlo 0x2000 0, .mbc1WrBankhi 0x4000 0,
      .mbc1WrMode 0x6000 0, .mbc1WrExt8000 0x8000 0, .mbc1WrRam 0xA000 0, .mbc1WrExtC000 0xC000 0].all (fun i => !Instr.wf .mbc2 i) = true := by decide

/-- R127: the first and the last address of each row's window. -/
theorem test_instr_wf_mbc2_window_ends :
    [.mbc2RdRom0 0x0000, .mbc2RdRom0 0x3FFF, .mbc2RdRomx 0x4000, .mbc2RdRomx 0x7FFF, .mbc2RdExt8000 0x8000,
      .mbc2RdExt8000 0x9FFF, .mbc2RdRam 0xA000, .mbc2RdRam 0xA1FF, .mbc2RdRamNa 0xA200, .mbc2RdRamNa 0xBFFF,
      .mbc2RdExtC000 0xC000, .mbc2RdExtC000 0xFFFF, .mbc2WrRamen 0x0000 0, .mbc2WrRamen 0x1EFF 0,
      .mbc2WrRamenAlias 0x0100 0, .mbc2WrRamenAlias 0x1FFF 0, .mbc2WrRomsel 0x2100 0, .mbc2WrRomsel 0x3FFF 0,
      .mbc2WrRomselAlias 0x2000 0, .mbc2WrRomselAlias 0x3EFF 0, .mbc2WrRomRej 0x4000 0, .mbc2WrRomRej 0x7FFF 0,
      .mbc2WrExt8000 0x8000 0, .mbc2WrExt8000 0x9FFF 0, .mbc2WrRam 0xA000 0, .mbc2WrRam 0xA1FF 0,
      .mbc2WrRamNa 0xA200 0, .mbc2WrRamNa 0xBFFF 0, .mbc2WrExtC000 0xC000 0, .mbc2WrExtC000 0xFFFF 0].all (Instr.wf .mbc2) = true := by decide

/-- The addresses just outside each row's window. -/
theorem test_instr_refuses_mbc2_outside_window :
    [.mbc2RdRom0 0x4000, .mbc2RdRomx 0x3FFF, .mbc2RdRomx 0x8000, .mbc2RdExt8000 0x7FFF, .mbc2RdExt8000 0xA000,
      .mbc2RdRam 0x9FFF, .mbc2RdRam 0xA200, .mbc2RdRamNa 0xA1FF, .mbc2RdRamNa 0xC000, .mbc2RdExtC000 0xBFFF,
      .mbc2WrRamen 0x2000 0, .mbc2WrRamenAlias 0x00FF 0, .mbc2WrRamenAlias 0x2100 0, .mbc2WrRomsel 0x1FFF 0,
      .mbc2WrRomsel 0x4100 0, .mbc2WrRomselAlias 0x1EFF 0, .mbc2WrRomselAlias 0x4000 0, .mbc2WrRomRej 0x3FFF 0,
      .mbc2WrRomRej 0x8000 0, .mbc2WrExt8000 0x7FFF 0, .mbc2WrExt8000 0xA000 0, .mbc2WrRam 0x9FFF 0,
      .mbc2WrRam 0xA200 0, .mbc2WrRamNa 0xA1FF 0, .mbc2WrRamNa 0xC000 0, .mbc2WrExtC000 0xBFFF 0].all (fun i => !Instr.wf .mbc2 i) = true := by decide

/-- R124: a row of the other variant. -/
theorem test_instr_refuses_mbc2_rows_under_mbc1 :
    [.mbc2RdRom0 0x0000, .mbc2RdRomx 0x4000, .mbc2RdExt8000 0x8000, .mbc2RdRam 0xA000, .mbc2RdRamNa 0xA200,
      .mbc2RdExtC000 0xC000, .mbc2WrRamen 0x0000 0, .mbc2WrRamenAlias 0x0100 0, .mbc2WrRomsel 0x2100 0,
      .mbc2WrRomselAlias 0x2000 0, .mbc2WrRomRej 0x4000 0, .mbc2WrExt8000 0x8000 0, .mbc2WrRam 0xA000 0,
      .mbc2WrRamNa 0xA200 0, .mbc2WrExtC000 0xC000 0].all (fun i => !Instr.wf .mbc1 i) = true := by decide

/-- R92: `a[8]`. -/
theorem test_instr_refuses_wrong_address_bit_8 :
    [.mbc1WrRamen 0x0100 0, .mbc1WrRamenAlias 0x0000 0].all (fun i => !Instr.wf .mbc1 i) = true ∧
    [.mbc2WrRamen 0x1FFF 0, .mbc2WrRamenAlias 0x1E00 0, .mbc2WrRomsel 0x2000 0, .mbc2WrRomselAlias 0x2100 0].all (fun i => !Instr.wf .mbc2 i) = true := by decide

/-! ## Decoding: every constructor, by a word written out from R121, R122, R126 and R127 -/

theorem test_decode_mbc1_rd_rom0 :
    decode .mbc1 0x0015000 {} = .ok (.mbc1RdRom0 0x0150) ∧ encode (.mbc1RdRom0 0x0150) = 0x0015000 := by decide

theorem test_decode_mbc1_rd_romx :
    decode .mbc1 0x0400000 {} = .ok (.mbc1RdRomx 0x4000) ∧ encode (.mbc1RdRomx 0x4000) = 0x0400000 := by decide

theorem test_decode_mbc1_rd_ext8000 :
    decode .mbc1 0x09FFF00 {} = .ok (.mbc1RdExt8000 0x9FFF) ∧ encode (.mbc1RdExt8000 0x9FFF) = 0x09FFF00 := by decide

theorem test_decode_mbc1_rd_ram :
    decode .mbc1 0x0A20000 {} = .ok (.mbc1RdRam 0xA200) ∧ encode (.mbc1RdRam 0xA200) = 0x0A20000 := by decide

theorem test_decode_mbc1_rd_ext_c000 :
    decode .mbc1 0x0C00000 {} = .ok (.mbc1RdExtC000 0xC000) ∧ encode (.mbc1RdExtC000 0xC000) = 0x0C00000 := by decide

theorem test_decode_mbc1_wr_ramen :
    decode .mbc1 0x11E000A {} = .ok (.mbc1WrRamen 0x1E00 0x0A) ∧ encode (.mbc1WrRamen 0x1E00 0x0A) = 0x11E000A := by decide

theorem test_decode_mbc1_wr_ramen_alias :
    decode .mbc1 0x11FFF0A {} = .ok (.mbc1WrRamenAlias 0x1FFF 0x0A) ∧ encode (.mbc1WrRamenAlias 0x1FFF 0x0A) = 0x11FFF0A := by decide

theorem test_decode_mbc1_wr_romlo :
    decode .mbc1 0x1210003 {} = .ok (.mbc1WrRomlo 0x2100 0x03) ∧ encode (.mbc1WrRomlo 0x2100 0x03) = 0x1210003 := by decide

theorem test_decode_mbc1_wr_bankhi :
    decode .mbc1 0x1400002 {} = .ok (.mbc1WrBankhi 0x4000 0x02) ∧ encode (.mbc1WrBankhi 0x4000 0x02) = 0x1400002 := by decide

theorem test_decode_mbc1_wr_mode :
    decode .mbc1 0x1600001 {} = .ok (.mbc1WrMode 0x6000 0x01) ∧ encode (.mbc1WrMode 0x6000 0x01) = 0x1600001 := by decide

theorem test_decode_mbc1_wr_ext8000 :
    decode .mbc1 0x1800077 {} = .ok (.mbc1WrExt8000 0x8000 0x77) ∧ encode (.mbc1WrExt8000 0x8000 0x77) = 0x1800077 := by decide

theorem test_decode_mbc1_wr_ram :
    decode .mbc1 0x1A1235A {} = .ok (.mbc1WrRam 0xA123 0x5A) ∧ encode (.mbc1WrRam 0xA123 0x5A) = 0x1A1235A := by decide

theorem test_decode_mbc1_wr_ext_c000 :
    decode .mbc1 0x1FFFF12 {} = .ok (.mbc1WrExtC000 0xFFFF 0x12) ∧ encode (.mbc1WrExtC000 0xFFFF 0x12) = 0x1FFFF12 := by decide

theorem test_decode_mbc2_rd_rom0 :
    decode .mbc2 0x0015000 {} = .ok (.mbc2RdRom0 0x0150) ∧ encode (.mbc2RdRom0 0x0150) = 0x0015000 := by decide

theorem test_decode_mbc2_rd_romx :
    decode .mbc2 0x0500000 {} = .ok (.mbc2RdRomx 0x5000) ∧ encode (.mbc2RdRomx 0x5000) = 0x0500000 := by decide

theorem test_decode_mbc2_rd_ext8000 :
    decode .mbc2 0x0800000 {} = .ok (.mbc2RdExt8000 0x8000) ∧ encode (.mbc2RdExt8000 0x8000) = 0x0800000 := by decide

theorem test_decode_mbc2_rd_ram :
    decode .mbc2 0x0A1FF00 {} = .ok (.mbc2RdRam 0xA1FF) ∧ encode (.mbc2RdRam 0xA1FF) = 0x0A1FF00 := by decide

theorem test_decode_mbc2_rd_ram_na :
    decode .mbc2 0x0A20000 {} = .ok (.mbc2RdRamNa 0xA200) ∧ encode (.mbc2RdRamNa 0xA200) = 0x0A20000 := by decide

theorem test_decode_mbc2_rd_ext_c000 :
    decode .mbc2 0x0E00000 {} = .ok (.mbc2RdExtC000 0xE000) ∧ encode (.mbc2RdExtC000 0xE000) = 0x0E00000 := by decide

theorem test_decode_mbc2_wr_ramen :
    decode .mbc2 0x100000A {} = .ok (.mbc2WrRamen 0x0000 0x0A) ∧ encode (.mbc2WrRamen 0x0000 0x0A) = 0x100000A := by decide

theorem test_decode_mbc2_wr_ramen_alias :
    decode .mbc2 0x1010000 {} = .ok (.mbc2WrRamenAlias 0x0100 0x00) ∧ encode (.mbc2WrRamenAlias 0x0100 0x00) = 0x1010000 := by decide

theorem test_decode_mbc2_wr_romsel :
    decode .mbc2 0x1210003 {} = .ok (.mbc2WrRomsel 0x2100 0x03) ∧ encode (.mbc2WrRomsel 0x2100 0x03) = 0x1210003 := by decide

theorem test_decode_mbc2_wr_romsel_alias :
    decode .mbc2 0x1200003 {} = .ok (.mbc2WrRomselAlias 0x2000 0x03) ∧ encode (.mbc2WrRomselAlias 0x2000 0x03) = 0x1200003 := by decide

theorem test_decode_mbc2_wr_rom_rej :
    decode .mbc2 0x1600001 {} = .ok (.mbc2WrRomRej 0x6000 0x01) ∧ encode (.mbc2WrRomRej 0x6000 0x01) = 0x1600001 := by decide

theorem test_decode_mbc2_wr_ext8000 :
    decode .mbc2 0x19FFF01 {} = .ok (.mbc2WrExt8000 0x9FFF 0x01) ∧ encode (.mbc2WrExt8000 0x9FFF 0x01) = 0x19FFF01 := by decide

theorem test_decode_mbc2_wr_ram :
    decode .mbc2 0x1A1FF3C {} = .ok (.mbc2WrRam 0xA1FF 0x3C) ∧ encode (.mbc2WrRam 0xA1FF 0x3C) = 0x1A1FF3C := by decide

theorem test_decode_mbc2_wr_ram_na :
    decode .mbc2 0x1A20005 {} = .ok (.mbc2WrRamNa 0xA200 0x05) ∧ encode (.mbc2WrRamNa 0xA200 0x05) = 0x1A20005 := by decide

theorem test_decode_mbc2_wr_ext_c000 :
    decode .mbc2 0x1C00042 {} = .ok (.mbc2WrExtC000 0xC000 0x42) ∧ encode (.mbc2WrExtC000 0xC000 0x42) = 0x1C00042 := by decide

theorem test_decode_reset :
    decode .mbc2 0x2000001 { isColorMode := true } = .ok (.reset true) ∧ encode (.reset true) = 0x2000001 := by decide

theorem test_decode_save_battery :
    decode .mbc2 0x2000002 { stream := [1, 2] } = .ok (.saveBattery [1, 2]) ∧ encode (.saveBattery [1, 2]) = 0x2000002 := by decide

theorem test_decode_load_battery :
    decode .mbc2 0x2000003 { stream := [9], knownLength := 5 } = .ok (.loadBattery [9] 5) ∧ encode (.loadBattery [9] 5) = 0x2000003 := by decide

theorem test_decode_save_state :
    decode .mbc2 0x2000004 { stream := [3] } = .ok (.saveState [3]) ∧ encode (.saveState [3]) = 0x2000004 := by decide

theorem test_decode_load_state :
    decode .mbc2 0x2000005 { stream := [4] } = .ok (.loadState [4]) ∧ encode (.loadState [4]) = 0x2000005 := by decide

theorem test_decode_set_callback :
    decode .mbc2 0x2000006 { observer := some 8 } = .ok (.setCallback (some 8)) ∧ encode (.setCallback (some 8)) = 0x2000006 := by decide

theorem test_decode_view_bank0 : decode .mbc2 0x2000007 {} = .ok (.viewBank0) ∧ encode (.viewBank0) = 0x2000007 := by decide

theorem test_decode_view_romx : decode .mbc2 0x2000008 {} = .ok (.viewRomx) ∧ encode (.viewRomx) = 0x2000008 := by decide

theorem test_decode_view_ramx : decode .mbc2 0x2000009 {} = .ok (.viewRamx) ∧ encode (.viewRamx) = 0x2000009 := by decide

theorem test_decode_view_ram_all : decode .mbc2 0x200000A {} = .ok (.viewRamAll) ∧ encode (.viewRamAll) = 0x200000A := by decide

/-- R125, L2 Decode: the refused words. -/
theorem test_decode_refusals :
    decode .mbc1 0x0000001 {} = .error .readWithData ∧ decode .mbc1 0x2000000 {} = .error .reservedOp ∧
    decode .mbc2 0x200000B {} = .error .reservedOp ∧ decode .mbc2 0x2000101 {} = .error .reservedBits ∧
    decode .mbc1 0x4000000 {} = .error .bitAbove25 := by decide

/-- Log 5: a table word is read under MBC1. -/
theorem test_table_word_reads_under_mbc1 :
    decodeTableWord 32 0x1210003 = some (.mbc1WrRomlo 0x2100 0x03) ∧ decodeTableWord 32 0x0000001 = none := by decide

/-- R2: the placed word runs at the very next step, and is gone. -/
theorem test_fetch_word_runs_next :
    (nextOf (step (State.reset.withFetchWord 32 0x100000A))).map (fun t => (t.mapper.ramEnabled, t.input)) = some (true, []) := by decide

/-! ## One step per operation -/

/-- R162, L2 Delegation. -/
theorem test_rd_rom0_is_delegated :
    look (.mbc1RdRom0 0x0150) { machine cfgA fresh with addressSpace := [(0x0150, 0xC3)] } (fun t => t.out.result) =
      some (.byte 0xC3) := by decide

/-- L2 Delegation: mode 1, `h = 3`. -/
theorem test_rd_rom0_ignores_mode_1 :
    look (.mbc1RdRom0 0x0000) (machine cfgA { fresh with bankingMode := 1, higherRomBankBits := 3 }) (fun t => t.out.result) =
      some (.byte 0x00) := by decide

/-- R227. -/
theorem test_rd_romx_reads_bank_0x21 :
    look (.mbc1RdRomx 0x7FFF) (machine cfgA (fresh.setRom 0x21)) (fun t => t.out.result) = some (.byte 0x21) := by decide

/-- L2: `romBankCount = 1`, `romLen = 0x4000`, after reset (R97). -/
theorem test_rd_romx_past_the_image_faults :
    faultOf (exec (.mbc1RdRomx 0x4000) (machine { cfgA with romBankCount := 1, romLen := 0x4000 } fresh)) =
      some (.romOutOfRange 0x4000) := by decide

/-- R163. -/
theorem test_rd_ext_reads_what_wr_ext_wrote :
    look (.mbc1RdExt8000 0x9FFF) { machine cfgA fresh with addressSpace := [(0x9FFF, 0x01)] } (fun t => t.out.result) =
      some (.byte 0x01) := by decide

/-- R163, S1. -/
theorem test_rd_ext_c000 :
    look (.mbc1RdExtC000 0xC000) { machine cfgA fresh with addressSpace := [(0xC000, 0x42)] } (fun t => t.out.result) =
      some (.byte 0x42) := by decide

/-- R164, L2. -/
theorem test_wr_ext_8000 :
    look (.mbc1WrExt8000 0x8000 0x77) (machine cfgA fresh) (fun t => (t.addressSpace, t.mapper)) = some ([(0x8000, 0x77)], fresh) := by decide

/-- R164, L2. -/
theorem test_wr_ext_c000 :
    look (.mbc1WrExtC000 0xE000 0x55) (machine cfgA fresh) (fun t => (t.addressSpace, t.mapper)) = some ([(0xE000, 0x55)], fresh) := by decide

/-- R228, L2. -/
theorem test_rd_ram_disabled_is_0xff :
    look (.mbc1RdRam 0xA000) (machine cfgA { fresh with ramBuffer := [(0, 0x12)] }) (fun t => (t.out.result, t.out.diagnostics)) =
      some (.byte 0xFF, [.disabledRamRead]) := by decide

/-- P2 step 11. -/
theorem test_rd_ram_mode_1_bank_3 :
    look (.mbc1RdRam 0xA000)
      (machine cfgA (({ enabled with bankingMode := 1, ramBuffer := [(0, 0x33), (0x6000, 0x22)] } : Mapper).setRamBank 3))
      (fun t => t.out.result) = some (.byte 0x22) := by decide

/-- R165: `v[7:4]` is ignored. -/
theorem test_wr_ramen_enables_on_0xfa :
    lookM (.mbc1WrRamen 0x1E00 0xFA) (machine cfgA fresh) (fun m => m.ramEnabled) = some true := by decide

/-- L2 RAM enable. -/
theorem test_wr_ramen_falling_edge_notifies_once :
    look (.mbc1WrRamen 0x0000 0x0B) (machine cfgA enabled) (fun t => (t.mapper.ramEnabled, t.out.events)) =
      some (false, [.ramChanged 7]) := by decide

/-- S3. -/
theorem test_wr_ramen_second_disable_is_silent :
    look (.mbc2WrRamen 0x0000 0x00) (machine cfgC fresh) (fun t => t.out.events) = some [] := by decide

/-- R224. -/
theorem test_wr_ramen_alias_is_ignored :
    look (.mbc1WrRamenAlias 0x0100 0x00) (machine cfgA enabled) (fun t => (t.mapper, t.out.events)) = some (enabled, []) := by decide

/-- R223. -/
theorem test_wr_romlo_high_bits :
    lookM (.mbc1WrRomlo 0x2000 0x05) (machine cfgA { fresh with higherRomBankBits := 1 })
      (fun m => (m.currentRomBankIndex, m.currentRomByteOffset, m.higherRomBankBits)) = some (0x25, 0x94000, 1) := by decide

/-- R222: promote, then mask. -/
theorem test_wr_romlo_promotes_then_masks :
    lookM (.mbc1WrRomlo 0x2000 0x04) (machine cfgB fresh) (fun m => m.currentRomBankIndex) = some 0 ∧
    lookM (.mbc1WrRomlo 0x2000 0xE0) (machine cfgA { fresh with higherRomBankBits := 3 }) (fun m => m.currentRomBankIndex) = some 0x61 := by decide

/-- R225, L2. -/
theorem test_wr_bankhi_mode_0 :
    lookM (.mbc1WrBankhi 0x4000 0x03) (machine cfgA (fresh.setRom 5))
      (fun m => (m.higherRomBankBits, m.currentRomBankIndex, m.currentRomByteOffset)) = some (3, 0x65, 0x194000) := by decide

/-- R225, L2. -/
theorem test_wr_bankhi_mode_1 :
    lookM (.mbc1WrBankhi 0x4000 0x07) (machine cfgA { fresh with bankingMode := 1 })
      (fun m => (m.currentRamBankIndex, m.currentRamByteOffset, m.higherRomBankBits)) = some (3, 0x6000, 0) := by decide

/-- R226, L2. -/
theorem test_wr_mode_uses_bit_0 :
    lookM (.mbc1WrMode 0x6000 0x02) (machine cfgA { fresh with bankingMode := 1 }) (fun m => m.bankingMode) = some 0 ∧
    lookM (.mbc1WrMode 0x7FFF 0xFF) (machine cfgA fresh) (fun m => m.bankingMode) = some 1 := by decide

/-- S6. -/
theorem test_wr_mode_rejected_without_class_3 :
    look (.mbc1WrMode 0x6000 0x01) (machine cfgB fresh) (fun t => (t.mapper.bankingMode, t.out.diagnostics)) =
      some (0, [.modeOneRejected]) := by decide

/-- S15. -/
theorem test_wr_ram_small_cartridge :
    look (.mbc1WrRam 0xA900 0x44) (machine cfgB enabled) (fun t => (t.mapper.ramBuffer, t.out.diagnostics)) =
      some ([(0x900, 0x44)], [.smallRamOutOfRange]) := by decide

/-- L2. -/
theorem test_wr_ram_disabled_is_dropped :
    look (.mbc1WrRam 0xA000 0x12) (machine cfgA fresh) (fun t => (t.mapper, t.out.diagnostics)) =
      some (fresh, [.disabledRamWrite]) := by decide

/-- R162. -/
theorem test_mbc2_rd_rom0 :
    look (.mbc2RdRom0 0x3000) { machine cfgC fresh with addressSpace := [(0x3000, 0x99)] } (fun t => t.out.result) =
      some (.byte 0x99) := by decide

/-- R275. -/
theorem test_mbc2_rd_romx :
    look (.mbc2RdRomx 0x5000) (machine cfgC (fresh.setRom 3)) (fun t => t.out.result) = some (.byte 3) := by decide

/-- R163. -/
theorem test_mbc2_rd_ext :
    look (.mbc2RdExt8000 0x8000) { machine cfgC fresh with addressSpace := [(0x8000, 0x77)] } (fun t => t.out.result) = some (.byte 0x77) ∧
    look (.mbc2RdExtC000 0xFFFF) { machine cfgC fresh with addressSpace := [(0xFFFF, 0x12)] } (fun t => t.out.result) = some (.byte 0x12) := by decide

/-- R164. -/
theorem test_mbc2_wr_ext :
    look (.mbc2WrExt8000 0x9FFF 0x01) (machine cfgC fresh) (fun t => t.addressSpace) = some [(0x9FFF, 0x01)] ∧
    look (.mbc2WrExtC000 0xC000 0x42) (machine cfgC fresh) (fun t => t.addressSpace) = some [(0xC000, 0x42)] := by decide

/-- R276, C4. -/
theorem test_mbc2_rd_ram_is_unmasked :
    look (.mbc2RdRam 0xA007) (machine cfgC { enabled with ramBuffer := [(7, 0xA5)] }) (fun t => t.out.result) = some (.byte 0xA5) ∧
    look (.mbc2RdRam 0xA010) (machine cfgC enabled) (fun t => t.out.result) = some (.byte 0xFF) := by decide

/-- S14. -/
theorem test_mbc2_rd_ram_disabled :
    look (.mbc2RdRam 0xA000) (machine cfgC { fresh with ramBuffer := [(0, 0x0B)] }) (fun t => t.out.result) = some (.byte 0xFF) := by decide

/-- S8, S14. -/
theorem test_mbc2_rd_ram_na_before_the_gate :
    look (.mbc2RdRamNa 0xA200) (machine cfgC fresh) (fun t => t.out.result) = some (.byte 0x00) ∧
    look (.mbc2RdRamNa 0xBFFF) (machine cfgC enabled) (fun t => t.out.result) = some (.byte 0x00) := by decide

/-- R277, S7. -/
theorem test_mbc2_wr_ram_keeps_the_low_nibble :
    lookM (.mbc2WrRam 0xA1FF 0x3C) (machine cfgC enabled) (fun m => m.ramBuffer) = some [(0x1FF, 0x0C)] ∧
    lookM (.mbc2WrRam 0xA000 0xFF) (machine cfgC enabled) (fun m => m.ramBuffer) = some [(0, 0x0F)] := by decide

/-- L2. -/
theorem test_mbc2_wr_ram_disabled :
    lookM (.mbc2WrRam 0xA005 0x07) (machine cfgC fresh) (fun m => m.ramBuffer) = some [] := by decide

/-- R279. -/
theorem test_mbc2_wr_ram_na_is_dropped :
    look (.mbc2WrRamNa 0xA200 0x05) (machine cfgC enabled) (fun t => (t.mapper, t.out.diagnostics)) =
      some (enabled, [.nonAddressableWrite]) := by decide

/-- R270. -/
theorem test_mbc2_wr_ramen :
    look (.mbc2WrRamen 0x0000 0x00) (machine cfgC enabled) (fun t => (t.mapper.ramEnabled, t.out.events)) =
      some (false, [.ramChanged 7]) := by decide

/-- R271. -/
theorem test_mbc2_wr_ramen_alias :
    lookM (.mbc2WrRamenAlias 0x0100 0x00) (machine cfgC enabled) (fun m => m) = some enabled := by decide

/-- L2: `v[7:4]` is ignored, 0 is promoted. -/
theorem test_mbc2_wr_romsel :
    lookM (.mbc2WrRomsel 0x2100 0x10) (machine cfgC (fresh.setRom 9)) (fun m => (m.currentRomBankIndex, m.currentRomByteOffset)) =
      some (1, 0x4000) := by decide

/-- R272. -/
theorem test_mbc2_wr_romsel_masks_after_promotion :
    lookM (.mbc2WrRomsel 0x3FFF 0x04) (machine { cfgC with romBankCount := 4 } fresh) (fun m => m.currentRomBankIndex) = some 0 := by decide

/-- R273. -/
theorem test_mbc2_wr_romsel_alias :
    lookM (.mbc2WrRomselAlias 0x2000 0x07) (machine cfgC (fresh.setRom 3)) (fun m => m.currentRomBankIndex) = some 3 := by decide

/-- R274. -/
theorem test_mbc2_wr_rom_rej :
    look (.mbc2WrRomRej 0x4000 0x07) (machine cfgC (fresh.setRom 3)) (fun t => (t.mapper.currentRomBankIndex, t.out.diagnostics)) =
      some (3, [.romRegionWriteRejected]) := by decide

/-- L2: RESET(true). -/
theorem test_reset_keeps_the_buffer :
    look (.reset true)
      (machine cfgA (({ enabled with bankingMode := 1, ramBuffer := [(0x10, 0x99)] } : Mapper).setRamBank 3))
      (fun t => (t.mapper, t.out.events)) = some ({ fresh with ramBuffer := [(0x10, 0x99)] }, []) := by decide

/-- S13. -/
theorem test_save_battery_lengths : [cfgA, cfgB, cfgD, cfgC].map batteryLen = [0x8000, 0x2000, 0, 512] := by decide

/-- R169. -/
theorem test_save_battery_appends :
    look (.saveBattery [0xEE]) (machine cfgC { enabled with ramBuffer := [(1, 0x0B)] })
      (fun t => t.out.stream.map (fun p => (p.length, p.take 4))) = some (some (513, [0xEE, 0xFF, 0x0B, 0xFF])) := by decide +kernel

/-- L2: D, one byte consumed, nothing stored. -/
theorem test_load_battery_legacy_without_ram :
    look (.loadBattery [0x07] 0) (machine cfgD fresh) (fun t => (t.out.result, t.out.stream, t.mapper)) = some (.ok, some [], fresh) := by decide

/-- L2: B. -/
theorem test_load_battery_mismatch :
    look (.loadBattery [1, 2] 0x2001) (machine cfgB fresh) (fun t => (t.out.result, t.out.stream, t.mapper)) =
      some (.mismatch 0x2000 0x2001, some [1, 2], fresh) := by decide

/-- S16. -/
theorem test_save_state_after_construction :
    look (.saveState []) (machine cfgA fresh)
      (fun t => t.out.stream.map (fun r => (r.length, r.take 15, r.drop 32782))) =
      some (some (32790, [0, 0, 0, 0, 0, 0, 0, 0, 1, 0, 0, 0, 0, 0, 0xFF], [0, 0x40, 0, 0, 0, 0, 0, 0])) := by decide +kernel

/-- L2: C without layout. -/
theorem test_save_state_mbc2_unmodelled :
    refusalOf (exec (.saveState []) (machine { cfgC with mbc2StateLayout := none } fresh)) = some .unmodelled := by decide

/-- R175, D13. -/
theorem test_load_state_short : refusalOf (exec (.loadState [0]) (machine cfgC fresh)) = some .shortStream := by decide

/-- R175: the buffer unmasked, the observer kept. -/
theorem test_load_state_mbc2 :
    look (.loadState (recordBytes cfgC [.ramEnabled, .currentRomBankIndex, .currentRomByteOffset, .ramBuffer]
        { enabled with currentRomBankIndex := 3, currentRomByteOffset := 0xC000, ramBuffer := [(5, 0xAB)] }))
      (machine cfgC fresh) (fun t => (t.mapper, t.out.events)) =
      some ({ enabled with currentRomBankIndex := 3, currentRomByteOffset := 0xC000, ramBuffer := [(5, 0xAB)] }, []) := by decide +kernel

/-- R167. -/
theorem test_set_callback :
    lookM (.setCallback (some 2)) (machine cfgA fresh) (fun m => m.ramChangedCallback) = some (some 2) ∧
    refusalOf (exec (.setCallback none) (machine cfgA fresh)) = some .illFormedOperand := by decide

/-- R176. -/
theorem test_view_bank0 :
    look .viewBank0 (machine cfgA fresh) (fun t => t.liveViews) = some [⟨.addressSpace, 0, 0x4000, true⟩] := by decide

/-- R177. -/
theorem test_view_romx :
    look .viewRomx (machine cfgA (fresh.setRom 5)) (fun t => (nextOf (viewRead 0 0 t)).map (fun u => u.out.result)) =
      some (some (.byte 5)) := by decide

/-- L2: StaleView. -/
theorem test_view_romx_ends_with_a_bank_select :
    look (.mbc1WrRomlo 0x2000 0x06) { machine cfgA (fresh.setRom 5) with liveViews := [⟨.rom, 0x14000, 0x4000, true⟩] }
      (fun t => faultOf (viewRead 0 0 t)) = some (some .staleView) := by decide

/-- R178. -/
theorem test_view_ramx :
    look .viewRamx (machine cfgA (({ fresh with bankingMode := 1 } : Mapper).setRamBank 2)) (fun t => t.out.result) =
      some (.view 0 ⟨.ram, 0x4000, 0x2000, false⟩) ∧
    look .viewRamx (machine cfgD fresh) (fun t => t.out.result) = some .noView := by decide

/-- R179, L2. -/
theorem test_view_ram_all_bypasses_the_gate :
    look .viewRamAll (machine cfgA fresh) (fun t => (nextOf (viewWrite 0 0x10 0x77 t)).map (fun u => u.mapper.ramBuffer)) =
      some (some [(0x10, 0x77)]) := by decide

/-- R343, R30. -/
theorem test_construct_and_destroy :
    (nextOf (destroy (machine cfgA fresh))).map (fun t => refusalOf (exec .viewBank0 t)) = some (some .noInstance) ∧
    refusalOf (construct cfgC (machine cfgA fresh)) = some .alreadyLive := by decide

/-- Log 17. -/
theorem test_view_access_refusals :
    refusalOf (viewRead 0 0 State.reset) = some .noSuchView ∧
    refusalOf (viewRead 0 0x4000 { State.reset with liveViews := [⟨.addressSpace, 0, 0x4000, true⟩] }) = some .outsideView ∧
    refusalOf (viewWrite 0 0 1 { State.reset with liveViews := [⟨.addressSpace, 0, 0x4000, true⟩] }) = some .readOnlyView := by decide

/-- R93, D22. -/
theorem test_overlap_is_refused :
    refusalOf (step { State.reset with input := [.overlapping 0x100000A 0x0400000] }) = some .concurrentAccess := by decide

/-- Log 25: a state that breaks W7. -/
theorem test_ram_out_of_range_is_reached_only_past_w7 :
    faultOf (exec (.mbc1RdRam 0xBFFF) (machine cfgA { enabled with bankingMode := 1, currentRamByteOffset := 0x8000 })) =
      some (.ramOutOfRange 0x9FFF) := by decide

/-- Log 27. -/
theorem test_ill_formed_instr_is_refused :
    refusalOf (exec (.mbc2RdRam 0xA000) (machine cfgA fresh)) = some .illFormedInstr ∧
    refusalOf (exec (.mbc1RdRom0 0x4000) (machine cfgA fresh)) = some .illFormedInstr := by decide

/-- R10. -/
theorem test_ill_formed_config_is_refused :
    refusalOf (exec .viewBank0 (machine { cfgA with romBankCount := 3 } fresh)) = some .illFormedConfig := by decide

/-! ## Witnesses: the hypotheses of each obligation can be met, clause by clause, at the ends of the ranges -/

/-- A ready MBC1 machine with everything set: mode 1, RAM bank 3, RAM enabled, bytes in all three spaces, one view of each kind. -/
def busyA : State where
  cfg := cfgA
  live := true
  mapper := ({ enabled with bankingMode := 1, higherRomBankBits := 3, ramBuffer := [(0, 0x33), (0x7FFF, 0x9C)] } : Mapper).setRom 0x7F
    |>.setRamBank 3
  addressSpace := [(0, 0x31), (0x3FFF, 1), (0x8000, 2), (0xFFFF, 3)]
  liveViews := [⟨.addressSpace, 0, 0x4000, true⟩, ⟨.rom, 0x1FC000, 0x4000, true⟩, ⟨.ram, 0x6000, 0x2000, false⟩,
    ⟨.ram, 0, 0x8000, false⟩]
  viewsEnded := 2
  input := []
  out := {}

/-- A ready MBC2 machine: RAM enabled, bank 3, a byte with its upper nibble set. -/
def busyC : State where
  cfg := cfgC
  live := true
  mapper := ({ enabled with ramBuffer := [(0, 0x0B), (0x1FF, 0xA5)] } : Mapper).setRom 3
  addressSpace := [(0x3FFF, 1)]
  liveViews := [⟨.ram, 0, 0x200, false⟩]
  viewsEnded := 0
  input := []
  out := {}

theorem busyA_ready : busyA.Ready := ⟨rfl, by decide⟩

theorem busyC_ready : busyC.Ready := ⟨rfl, by decide⟩

theorem busyA_mapper_inv : busyA.mapper.inv busyA.cfg = true := by decide

theorem busyC_mapper_inv : busyC.mapper.inv busyC.cfg = true := by decide

theorem busyA_inv : busyA.Inv where
  cfgWf := fun _ => by decide
  mapperInv := fun _ => busyA_mapper_inv
  idle := fun _ h => by cases h
  addressSpaceWf := by decide
  romWf := by decide
  imagesWf := fun c h => by cases h
  viewsLive := fun h => by cases h
  viewsShow := fun v hv => by
    simp only [busyA, List.mem_cons, List.not_mem_nil, or_false] at hv
    rcases hv with rfl | rfl | rfl | rfl
    · exact .inl rfl
    · exact .inr (.inl rfl)
    · exact .inr (.inr (.inl ⟨rfl, by decide, rfl⟩))
    · exact .inr (.inr (.inr rfl))

theorem witness_DecodeEncodeRoundTrip :
    Instr.wf .mbc1 (.mbc1RdRomx 0x7FFF) = true ∧ Instr.wf .mbc1 (.mbc1WrRamenAlias 0x1FFF 0xFF) = true ∧
    Instr.wf .mbc2 (.mbc2RdRam 0xA1FF) = true ∧ Instr.wf .mbc2 (.mbc2WrRamNa 0xA200 0xFF) = true ∧
    Instr.wf .mbc2 (.loadBattery [0xFF] 512) = true := by decide

theorem witness_EncodeDecodeRoundTrip :
    decode .mbc1 0x0FFFF00 {} = .ok (.mbc1RdExtC000 0xFFFF) ∧
    decode .mbc2 0x1A1FFFF {} = .ok (.mbc2WrRam 0xA1FF 0xFF) ∧
    decode .mbc2 0x200000A {} = .ok .viewRamAll := by decide

theorem witness_DecoderFollowsOpcodeTable :
    (0x3FFFFFF < 0x4000000 ∧ decode .mbc1 0x3FFFFFF {} = .error .reservedBits) ∧
    (0x0A1FF00 < 0x4000000 ∧ decode .mbc2 0x0A1FF00 {} = .ok (.mbc2RdRam 0xA1FF)) := by decide

/-- One state for each of the four kinds, and one whose word is well-formed. -/
theorem witness_IllFormedWordsAreRefused :
    ∀ t ∈ [0x4000000, 0x0FFFF01, 0x3000001, 0x2000000, 0x20000FF, 0x200000A],
      ({ State.reset with input := [.operation t {}] } : State).input = [.operation t {}] := fun _ _ => rfl

theorem witness_StepRunsDecodedOperation :
    ({ State.reset with input := [.operation 0x1A1235A {}] } : State).input = .operation 0x1A1235A {} :: [] ∧
    decode State.reset.cfg.variant 0x1A1235A {} = .ok (.mbc1WrRam 0xA123 0x5A) ∧ State.reset.input = [] := by decide

/-- One state for each kind of request outside the opcode table. -/
theorem witness_StepRunsDecodedOperation_requests :
    ∀ r ∈ [Request.viewRead 3 0x3FFF, .viewWrite 4 0x1FFF 0x12, .construct cfgC, .destroy, .powerCycle, .overlapping 0x100000A 0x2000001],
      ({ busyA with input := [r] } : State).input = r :: [] := fun _ _ => rfl

theorem witness_StepKeepsInvariant : State.Inv busyA ∧ ∃ t, step busyA = .next t := ⟨busyA_inv, _, rfl⟩

/-- An operation, a power cycle, a view write and a destruction as the step's request. -/
theorem witness_StepKeepsInvariant_requests :
    ∀ r ∈ [Request.operation 0x1200000 {}, .powerCycle, .viewWrite 4 0x1FFF 0x12, .destroy],
      State.Inv { busyA with input := [r] } ∧ ∃ t, step { busyA with input := [r] } = .next t := by
  intro r hr
  refine ⟨⟨busyA_inv.cfgWf, busyA_inv.mapperInv, busyA_inv.idle, busyA_inv.addressSpaceWf, busyA_inv.romWf, fun c hc => ?_,
    busyA_inv.viewsLive, busyA_inv.viewsShow⟩, exists_next_of ?_⟩
  · simp only [List.mem_cons, List.not_mem_nil, or_false] at hr hc
    subst hc
    rcases hr with h | h | h | h <;> cases h
  · simp only [List.mem_cons, List.not_mem_nil, or_false] at hr
    rcases hr with rfl | rfl | rfl | rfl <;> decide

theorem witness_OperationsKeepMapperInvariants :
    (busyA.mapper.inv busyA.cfg = true ∧ ∃ t, exec (.mbc1WrRomlo 0x3FFF 0x20) busyA = .next t) ∧
    (busyC.mapper.inv busyC.cfg = true ∧ ∃ t, exec (.mbc2WrRomsel 0x2100 0xFF) busyC = .next t) :=
  ⟨⟨busyA_mapper_inv, exists_next_of (by decide)⟩, busyC_mapper_inv, exists_next_of (by decide)⟩

/-- A ROM image shorter than the selected bank: the fault's clause. -/
theorem witness_BusReadFollowsTranslator_fault :
    (machine cfgD (fresh.setRom 1)).Ready ∧ (fresh.setRom 1).inv cfgD = true ∧
    (machine { cfgD with romLen := 0x4000 } fresh).Ready ∧ fresh.inv { cfgD with romLen := 0x4000 } = true ∧
    busTarget .mbc1 .read 0x4000 fresh = .rom 0x4000 := ⟨⟨rfl, by decide⟩, by decide, ⟨rfl, by decide⟩, by decide, by decide⟩

/-- Every target of R82 on a read. -/
theorem witness_BusReadFollowsTranslator :
    busyA.Ready ∧ busyA.mapper.inv busyA.cfg = true ∧ busyC.Ready ∧ busyC.mapper.inv busyC.cfg = true ∧
    busTarget .mbc1 .read 0x3FFF busyA.mapper = .addressSpace 0x3FFF ∧
    busTarget .mbc1 .read 0x7FFF busyA.mapper = .rom 0x1FFFFF ∧ busTarget .mbc1 .read 0xBFFF busyA.mapper = .ram 0x7FFF ∧
    busTarget .mbc1 .read 0xA000 fresh = .sentinel 0xFF ∧ busTarget .mbc2 .read 0xA200 busyC.mapper = .sentinel 0x00 ∧
    busTarget .mbc2 .read 0xA1FF busyC.mapper = .ram 0x1FF :=
  ⟨busyA_ready, busyA_mapper_inv, busyC_ready, busyC_mapper_inv, by decide, by decide, by decide, by decide, by decide, by decide⟩

/-- Every target of R82 on a write. -/
theorem witness_BusWriteFollowsTranslator :
    busyA.Ready ∧ busyA.mapper.inv busyA.cfg = true ∧ busyC.Ready ∧ busyC.mapper.inv busyC.cfg = true ∧
    busTarget .mbc1 .write 0x8000 busyA.mapper = .addressSpace 0x8000 ∧ busTarget .mbc1 .write 0xBFFF busyA.mapper = .ram 0x7FFF ∧
    busTarget .mbc2 .write 0xA1FF busyC.mapper = .ram 0x1FF ∧ busTarget .mbc2 .write 0xBFFF busyC.mapper = .drop ∧
    [0x0000, 0x1FFF, 0x3FFF, 0x5FFF, 0x7FFF].map (fun a => busTarget .mbc1 .write a busyA.mapper) =
      [.register .ramEnable, .register .ignored, .register .romLow, .register .bankHigh, .register .mode] ∧
    [0x1E00, 0x0100, 0x2100, 0x2000, 0x4000].map (fun a => busTarget .mbc2 .write a busyC.mapper) =
      [.register .ramEnable, .register .ignored, .register .romSelect, .register .ignored, .register .rejected] :=
  ⟨busyA_ready, busyA_mapper_inv, busyC_ready, busyC_mapper_inv, by decide, by decide, by decide, by decide, by decide, by decide⟩

theorem witness_BusReadIsTotal : busyA.Ready ∧ busyA.mapper.inv busyA.cfg = true := ⟨busyA_ready, busyA_mapper_inv⟩

theorem witness_BusWriteAlwaysCompletes : busyC.Ready ∧ busyC.mapper.inv busyC.cfg = true := ⟨busyC_ready, busyC_mapper_inv⟩

theorem witness_ReadsHaveNoSideEffects :
    (Instr.isRead (.mbc1RdRam 0xBFFF) ∧ ∃ t, exec (.mbc1RdRam 0xBFFF) busyA = .next t) ∧
    (Instr.isRead (.mbc2RdRamNa 0xA200) ∧ ∃ t, exec (.mbc2RdRamNa 0xA200) busyC = .next t) :=
  ⟨⟨by unfold Instr.isRead; decide, exists_next_of (by decide)⟩, by unfold Instr.isRead; decide, exists_next_of (by decide)⟩

theorem witness_RomAndConfigurationAreNeverWritten :
    (∃ t, exec (.mbc1WrRomlo 0x2000 0x1F) busyA = .next t) ∧ (∃ t, viewWrite 4 0x1FFF 0x12 busyA = .next t) ∧
    busyA.liveViews[1]? = some ⟨.rom, 0x1FC000, 0x4000, true⟩ ∧ Space.rom ≠ .ram ∧ 0x3FFF < 0x4000 :=
  ⟨exists_next_of (by decide), exists_next_of (by decide), by decide, by decide, by decide⟩

/-- Each field's clause: an operation that does change the field. -/
theorem witness_MapperFieldWriters :
    lookM (.mbc1WrRamen 0x0000 0x00) busyA (fun m => m.ramEnabled != busyA.mapper.ramEnabled) = some true ∧
    lookM (.mbc1WrRomlo 0x2000 0x01) busyA (fun m => m.currentRomBankIndex != busyA.mapper.currentRomBankIndex) = some true ∧
    lookM (.mbc1WrMode 0x6000 0x00) busyA (fun m => m.bankingMode != busyA.mapper.bankingMode) = some true ∧
    lookM (.mbc1WrBankhi 0x4000 0x01) busyA (fun m => m.currentRamBankIndex != busyA.mapper.currentRamBankIndex) = some true ∧
    lookM (.mbc1WrRam 0xBFFF 0x01) busyA (fun m => m.ramBuffer != busyA.mapper.ramBuffer) = some true ∧
    lookM (.setCallback (some 1)) busyA (fun m => m.ramChangedCallback != busyA.mapper.ramChangedCallback) = some true ∧
    look (.mbc1WrExtC000 0xFFFF 0x04) busyA (fun t => t.addressSpace != busyA.addressSpace) = some true := by decide

theorem witness_DisabledRamIsUntouched :
    (Instr.isWrite (.mbc1WrRam 0xA000 1) ∧ ∃ t, exec (.mbc1WrRam 0xA000 1) (machine cfgA fresh) = .next t) ∧
    (machine cfgA fresh).Ready ∧ (machine cfgC fresh).Ready ∧ fresh.ramEnabled = false ∧
    (0xA000 ≤ (0xBFFF : Addr).toNat ∧ (0xBFFF : Addr).toNat ≤ 0xBFFF) ∧
    (0xA000 ≤ (0xA1FF : Addr).toNat ∧ (0xA1FF : Addr).toNat ≤ 0xA1FF) :=
  ⟨⟨by unfold Instr.isWrite; decide, exists_next_of (by decide)⟩, ⟨rfl, by decide⟩, ⟨rfl, by decide⟩, rfl, by decide, by decide⟩

/-- Each kind of event is recorded somewhere. -/
theorem witness_DiagnosticKinds :
    [look (.mbc1RdRam 0xA000) (machine cfgA fresh) (fun t => t.out.diagnostics),
     look (.mbc2WrRam 0xA1FF 0) (machine cfgC fresh) (fun t => t.out.diagnostics),
     look (.mbc1RdRam 0xA800) (machine cfgB enabled) (fun t => t.out.diagnostics),
     look (.mbc1WrMode 0x6000 3) (machine cfgB fresh) (fun t => t.out.diagnostics),
     look (.mbc2RdRamNa 0xBFFF) (machine cfgC fresh) (fun t => t.out.diagnostics),
     look (.mbc2WrRamNa 0xA200 0) (machine cfgC fresh) (fun t => t.out.diagnostics),
     look (.mbc2WrRomRej 0x7FFF 1) (machine cfgC fresh) (fun t => t.out.diagnostics)] =
    [some [.disabledRamRead], some [.disabledRamWrite], some [.smallRamOutOfRange], some [.modeOneRejected],
     some [.nonAddressableRead], some [.nonAddressableWrite], some [.romRegionWriteRejected]] := by decide

theorem witness_FixedWindowReads :
    busyA.Ready ∧ busyC.Ready ∧ (0x3FFF : Addr).toNat ≤ 0x3FFF ∧ busyA.cfg.variant = .mbc1 ∧ busyC.cfg.variant = .mbc2 :=
  ⟨busyA_ready, busyC_ready, by decide, rfl, rfl⟩

theorem witness_ExternalReads :
    busyA.Ready ∧ busyA.cfg.variant = .mbc1 ∧ busyC.Ready ∧ busyC.cfg.variant = .mbc2 ∧
    (0x8000 ≤ (0x8000 : Addr).toNat ∧ (0x9FFF : Addr).toNat ≤ 0x9FFF) ∧ 0xC000 ≤ (0xC000 : Addr).toNat ∧
    0xC000 ≤ (0xFFFF : Addr).toNat := ⟨busyA_ready, rfl, busyC_ready, rfl, by decide, by decide, by decide⟩

theorem witness_ExternalWrites :
    (busyA.Ready ∧ busyA.cfg.variant = .mbc1 ∧ Memory.wf .addressSpace addressSpaceSize busyA.addressSpace = true) ∧
    (busyC.Ready ∧ busyC.cfg.variant = .mbc2 ∧ Memory.wf .addressSpace addressSpaceSize busyC.addressSpace = true) ∧
    (0x8000 ≤ (0x9FFF : Addr).toNat ∧ (0x9FFF : Addr).toNat ≤ 0x9FFF) ∧ 0xC000 ≤ (0xC000 : Addr).toNat :=
  ⟨⟨busyA_ready, rfl, by decide⟩, ⟨busyC_ready, rfl, by decide⟩, by decide, by decide⟩

theorem witness_RamEnableWrites :
    (busyA.Ready ∧ busyA.cfg.variant = .mbc1) ∧ (busyC.Ready ∧ busyC.cfg.variant = .mbc2) ∧
    ((0x1EFF : Addr).toNat ≤ 0x1FFF ∧ (0x1EFF : Addr).getLsbD 8 = false) := ⟨⟨busyA_ready, rfl⟩, ⟨busyC_ready, rfl⟩, by decide⟩

theorem witness_RamChangedOnlyOnFallingEdge :
    (∃ t, exec (.mbc1WrRamen 0x0000 0x00) busyA = .next t) ∧ (∃ t, exec (.mbc2WrRamen 0x1E00 0x0A) busyC = .next t) :=
  ⟨exists_next_of (by decide), exists_next_of (by decide)⟩

theorem witness_IgnoredControlWrites :
    (busyA.Ready ∧ busyA.cfg.variant = .mbc1) ∧ (busyC.Ready ∧ busyC.cfg.variant = .mbc2) ∧
    ((0x1FFF : Addr).toNat ≤ 0x1FFF ∧ (0x1FFF : Addr).getLsbD 8 = true) ∧
    (0x2000 ≤ (0x3EFF : Addr).toNat ∧ (0x3EFF : Addr).toNat ≤ 0x3FFF ∧ (0x3EFF : Addr).getLsbD 8 = false) ∧
    (0x4000 ≤ (0x7FFF : Addr).toNat ∧ (0x7FFF : Addr).toNat ≤ 0x7FFF) :=
  ⟨⟨busyA_ready, rfl⟩, ⟨busyC_ready, rfl⟩, by decide, by decide, by decide⟩

theorem witness_Mbc1RomIndexPromotesThenMasks :
    cfgA.wf = true ∧ cfgB.wf = true ∧ mbc1RomIndex cfgA 31 3 = 0x7F ∧ mbc1RomIndex cfgA 0 3 = 0x61 ∧ mbc1RomIndex cfgB 4 0 = 0 := by
  decide

theorem witness_Mbc1LowRomBankSelect :
    busyA.Ready ∧ busyA.cfg.variant = .mbc1 ∧ 0x2000 ≤ (0x2000 : Addr).toNat ∧ (0x3FFF : Addr).toNat ≤ 0x3FFF :=
  ⟨busyA_ready, rfl, by decide, by decide⟩

theorem witness_Mbc1BankHighWrite :
    (busyA.Ready ∧ busyA.cfg.variant = .mbc1 ∧ busyA.mapper.bankingMode = 1) ∧
    ((machine cfgB fresh).Ready ∧ (machine cfgB fresh).mapper.bankingMode ≠ 1) ∧
    0x4000 ≤ (0x4000 : Addr).toNat ∧ (0x5FFF : Addr).toNat ≤ 0x5FFF :=
  ⟨⟨busyA_ready, rfl, rfl⟩, ⟨⟨rfl, by decide⟩, by decide⟩, by decide, by decide⟩

theorem witness_Mbc1ModeSelect :
    busyA.Ready ∧ busyA.cfg.variant = .mbc1 ∧ (machine cfgB fresh).Ready ∧ 0x6000 ≤ (0x6000 : Addr).toNat ∧
    (0x7FFF : Addr).toNat ≤ 0x7FFF := ⟨busyA_ready, rfl, ⟨rfl, by decide⟩, by decide, by decide⟩

/-- S5: the high bits 2 written in mode 0, a mode-1 low select between, and mode 0 again. -/
theorem witness_Mbc1ModeSwitchLaw :
    (machine cfgA fresh).Ready ∧
    (∀ i ∈ [Instr.mbc1WrBankhi 0x4000 2, .mbc1WrMode 0x6000 1, .mbc1WrRomlo 0x2000 3, .mbc1WrMode 0x6000 0],
      Instr.isRead i ∨ Instr.isWrite i) ∧
    (runOps [.mbc1WrBankhi 0x4000 2, .mbc1WrMode 0x6000 1, .mbc1WrRomlo 0x2000 3, .mbc1WrMode 0x6000 0] (machine cfgA fresh)).map
      (fun t => (t.mapper.bankingMode, t.mapper.higherRomBankBits)) = some (0, 2) :=
  ⟨⟨rfl, by decide⟩, by unfold Instr.isRead Instr.isWrite; decide, by decide⟩

theorem witness_SwitchableRomReads :
    (busyA.Ready ∧ busyA.cfg.variant = .mbc1 ∧ 0x7FFF - 0x4000 + busyA.mapper.currentRomByteOffset < busyA.cfg.romLen) ∧
    ((machine { cfgA with romLen := 0x4000 } fresh).Ready ∧ 0x4000 ≤ 0x4000 - 0x4000 + fresh.currentRomByteOffset) ∧
    (busyC.Ready ∧ busyC.cfg.variant = .mbc2 ∧ 0x4000 - 0x4000 + busyC.mapper.currentRomByteOffset < busyC.cfg.romLen) ∧
    ((machine { cfgC with romLen := 0x4000 } fresh).Ready ∧ 0x4000 ≤ 0x4000 - 0x4000 + fresh.currentRomByteOffset) :=
  ⟨⟨busyA_ready, rfl, by decide⟩, ⟨⟨rfl, by decide⟩, by decide⟩, ⟨busyC_ready, rfl, by decide⟩, ⟨rfl, by decide⟩, by decide⟩

theorem witness_Mbc1RamReads :
    busyA.Ready ∧ busyA.cfg.variant = .mbc1 ∧ busyA.mapper.inv busyA.cfg = true ∧ 0xA000 ≤ (0xA000 : Addr).toNat ∧
    (0xBFFF : Addr).toNat ≤ 0xBFFF := ⟨busyA_ready, rfl, busyA_mapper_inv, by decide, by decide⟩

theorem witness_Mbc1RamWrites :
    (busyA.Ready ∧ busyA.cfg.variant = .mbc1 ∧ busyA.mapper.inv busyA.cfg = true ∧ busyA.mapper.ramEnabled = true) ∧
    ((machine cfgD fresh).Ready ∧ fresh.inv cfgD = true ∧ fresh.ramEnabled = false) ∧
    0xA000 ≤ (0xA000 : Addr).toNat ∧ (0xBFFF : Addr).toNat ≤ 0xBFFF :=
  ⟨⟨busyA_ready, rfl, busyA_mapper_inv, rfl⟩, ⟨⟨rfl, by decide⟩, by decide, rfl⟩, by decide, by decide⟩

theorem witness_Mbc2RomSelect :
    busyC.Ready ∧ busyC.cfg.variant = .mbc2 ∧ 0x2000 ≤ (0x3FFF : Addr).toNat ∧ (0x3FFF : Addr).toNat ≤ 0x3FFF ∧
    (0x3FFF : Addr).getLsbD 8 = true := ⟨busyC_ready, rfl, by decide, by decide, by decide⟩

theorem witness_Mbc2RamReads :
    busyC.Ready ∧ busyC.cfg.variant = .mbc2 ∧ 0xA000 ≤ (0xA000 : Addr).toNat ∧ (0xA1FF : Addr).toNat ≤ 0xA1FF :=
  ⟨busyC_ready, rfl, by decide, by decide⟩

theorem witness_Mbc2RamWrites :
    (busyC.Ready ∧ busyC.cfg.variant = .mbc2 ∧ Memory.wf .ram 0x200 busyC.mapper.ramBuffer = true ∧ busyC.mapper.ramEnabled = true) ∧
    ((machine cfgC fresh).Ready ∧ Memory.wf .ram 0x200 fresh.ramBuffer = true ∧ fresh.ramEnabled = false) ∧
    0xA000 ≤ (0xA000 : Addr).toNat ∧ (0xA1FF : Addr).toNat ≤ 0xA1FF :=
  ⟨⟨busyC_ready, rfl, by decide, rfl⟩, ⟨⟨rfl, by decide⟩, by decide, rfl⟩, by decide, by decide⟩

theorem witness_Mbc2NonAddressableAccesses :
    busyC.Ready ∧ busyC.cfg.variant = .mbc2 ∧ 0xA200 ≤ (0xA200 : Addr).toNat ∧ (0xBFFF : Addr).toNat ≤ 0xBFFF :=
  ⟨busyC_ready, rfl, by decide, by decide⟩

theorem witness_SoftReset : (busyA.Ready ∧ busyA.cfg.variant = .mbc1) ∧ (busyC.Ready ∧ busyC.cfg.variant = .mbc2) :=
  ⟨⟨busyA_ready, rfl⟩, busyC_ready, rfl⟩

theorem witness_ResetIsIdempotent : busyA.Ready ∧ busyC.Ready := ⟨busyA_ready, busyC_ready⟩

theorem witness_PowerCycleAndOverlap :
    ({ busyA with input := [.powerCycle] } : State).input = [.powerCycle] ∧
    ({ busyA with input := [.overlapping 0x100000A 0x2000001] } : State).input = [.overlapping 0x100000A 0x2000001] := ⟨rfl, rfl⟩

/-- An ill-formed and a well-formed configuration, with no instance live. -/
theorem witness_Construction :
    ∀ c ∈ [{ cfgC with romBankCount := 3 }, cfgC],
      ({ busyA with live := false, liveViews := [], input := [.construct c] } : State).input = [.construct c] ∧
      ({ busyA with live := false, liveViews := [], input := [.construct c] } : State).live = false := fun _ _ => ⟨rfl, rfl⟩

theorem witness_LifeOfTheInstance : busyA.live = true ∧ 5 < busyA.viewsEnded + busyA.liveViews.length := by decide

theorem witness_BatteryLength : cfgA.wf = true ∧ cfgA.variant = .mbc1 ∧ cfgD.wf = true ∧ cfgC.wf = true ∧ cfgC.variant = .mbc2 := by
  decide

theorem witness_SaveBatteryAppendsTheFootprint : busyA.Ready ∧ busyC.Ready ∧ 511 < batteryLen busyC.cfg :=
  ⟨busyA_ready, busyC_ready, by decide⟩

/-- A source of 512, 513 and 511 bytes beside the footprint 512, with each kind of known length. -/
theorem witness_LoadBatteryCases :
    busyC.Ready ∧ batteryLen busyC.cfg = 512 ∧ (List.replicate 512 (0xA5 : Byte)).length < 1 + batteryLen busyC.cfg ∧
    1 + batteryLen busyC.cfg ≤ (List.replicate 513 (0xA5 : Byte)).length ∧ (1 ≠ 0 ∧ 1 ≠ batteryLen busyC.cfg) ∧
    (512 ≠ 0 ∧ 512 = batteryLen busyC.cfg ∧ (List.replicate 511 (0xA5 : Byte)).length < batteryLen busyC.cfg) ∧
    batteryLen busyC.cfg ≤ (List.replicate 512 (0xA5 : Byte)).length := by
  simp only [List.length_replicate]
  exact ⟨busyC_ready, by decide⟩

theorem witness_BatteryRoundTrip :
    busyC.Ready ∧ (machine cfgC fresh).Ready ∧ (machine cfgC fresh).cfg = busyC.cfg ∧ batteryLen busyC.cfg ≠ 0 :=
  ⟨busyC_ready, ⟨rfl, by decide⟩, rfl, by decide⟩

theorem witness_ScalarEncodings : 3 < 4 ∧ 2 * 0x1FC000 < 256 ^ 3 := by decide

theorem witness_SaveStateMbc1Record : busyA.Ready ∧ busyA.cfg.variant = .mbc1 := ⟨busyA_ready, rfl⟩

theorem witness_Mbc2StateRecord :
    (busyC.Ready ∧ busyC.cfg.variant = .mbc2 ∧
      busyC.cfg.mbc2StateLayout = some [.ramEnabled, .currentRomBankIndex, .currentRomByteOffset, .ramBuffer]) ∧
    ((machine { cfgC with mbc2StateLayout := none } fresh).Ready ∧ ({ cfgC with mbc2StateLayout := none } : Cfg).mbc2StateLayout = none) :=
  ⟨⟨busyC_ready, rfl, rfl⟩, ⟨rfl, by decide⟩, rfl⟩

/-- A layout that is present and no order of the four fields: a fifth field, one missing, one twice. -/
theorem witness_Mbc2StateRecord_layouts :
    ∀ l ∈ [[RecordField.ramEnabled, .currentRomBankIndex, .currentRomByteOffset, .ramBuffer, .bankingMode],
        [.ramEnabled, .currentRomBankIndex, .ramBuffer], [.ramEnabled, .ramEnabled, .currentRomBankIndex, .ramBuffer], []],
      (machine { cfgC with mbc2StateLayout := some l } fresh).Ready ∧
      ¬ l.Perm [.ramEnabled, .currentRomBankIndex, .currentRomByteOffset, .ramBuffer] := by
  intro l hl
  simp only [List.mem_cons, List.not_mem_nil, or_false] at hl
  rcases hl with rfl | rfl | rfl | rfl <;> exact ⟨⟨rfl, by decide⟩, by decide⟩

theorem witness_LoadStateRestoresRecord :
    (busyA.Ready ∧ recordLayout busyA.cfg = some mbc1Layout ∧ 3 ≤ busyA.cfg.intBytes ∧ 1 ≤ busyA.cfg.boolBytes ∧
      busyA.mapper.inv busyA.cfg = true ∧ busyA.mapper.mbc1FieldsIdle busyA.cfg) ∧
    (busyC.Ready ∧ recordLayout busyC.cfg = some [.ramEnabled, .currentRomBankIndex, .currentRomByteOffset, .ramBuffer] ∧
      3 ≤ busyC.cfg.intBytes ∧ 1 ≤ busyC.cfg.boolBytes ∧ busyC.mapper.inv busyC.cfg = true ∧ busyC.mapper.mbc1FieldsIdle busyC.cfg) :=
  ⟨⟨busyA_ready, rfl, by decide, by decide, busyA_mapper_inv, fun h => by cases h⟩,
   ⟨busyC_ready, by decide, by decide, by decide, busyC_mapper_inv, fun _ => ⟨rfl, rfl, rfl, rfl⟩⟩⟩

theorem witness_LoadStateChecksRecord :
    busyC.Ready ∧ recordLayout busyC.cfg = some [.ramEnabled, .currentRomBankIndex, .currentRomByteOffset, .ramBuffer] ∧
    (List.replicate 520 (0 : Byte)).length < recordLen busyC.cfg [.ramEnabled, .currentRomBankIndex, .currentRomByteOffset, .ramBuffer] ∧
    recordLen busyC.cfg [.ramEnabled, .currentRomBankIndex, .currentRomByteOffset, .ramBuffer] ≤ (List.replicate 521 (0 : Byte)).length := by
  simp only [List.length_replicate]
  exact ⟨busyC_ready, by decide, by decide, by decide⟩

/-- Both outcomes of a long enough source: a Bool byte of 0x02 is refused (95_test_vectors.md, there on MBC1), 0x01 is accepted. -/
theorem witness_LoadStateChecksRecord_outcomes :
    refusalOf (exec (.loadState ([2, 1, 0, 0, 0, 0, 0x40, 0, 0] ++ List.replicate 512 0xFF)) busyC) = some .invalidStateRecord ∧
    lookM (.loadState ([1, 1, 0, 0, 0, 0, 0x40, 0, 0] ++ List.replicate 512 0xFF)) busyC (fun m => m.currentRomByteOffset) =
      some 0x4000 := by decide +kernel

theorem witness_StateRoundTrip :
    busyC.Ready ∧ (machine cfgC Mapper.constructed).Ready ∧ (machine cfgC Mapper.constructed).cfg = busyC.cfg ∧
    busyC.mapper.inv busyC.cfg = true ∧ busyC.mapper.mbc1FieldsIdle busyC.cfg ∧ 3 ≤ busyC.cfg.intBytes ∧
    1 ≤ busyC.cfg.boolBytes ∧ (recordLayout busyC.cfg).isSome = true ∧
    decode busyC.cfg.variant (readWord 0xA1FF) {} = .ok (.mbc2RdRam 0xA1FF) :=
  ⟨busyC_ready, ⟨rfl, by decide⟩, rfl, busyC_mapper_inv, fun _ => ⟨rfl, rfl, rfl, rfl⟩, by decide, by decide, by decide, by decide⟩

/-- As above on MBC1, from a machine in mode 1 with RAM bank 3. -/
theorem witness_StateRoundTrip_mbc1 :
    busyA.Ready ∧ (machine cfgA Mapper.constructed).Ready ∧ (machine cfgA Mapper.constructed).cfg = busyA.cfg ∧
    busyA.mapper.inv busyA.cfg = true ∧ (recordLayout busyA.cfg).isSome = true ∧
    decode busyA.cfg.variant (readWord 0x4000) {} = .ok (.mbc1RdRomx 0x4000) :=
  ⟨busyA_ready, ⟨rfl, by decide⟩, rfl, busyA_mapper_inv, by decide, by decide⟩

theorem witness_SetCallback : busyA.Ready ∧ look (.setCallback (some 3)) busyA
    (fun t => look (.mbc1WrRamen 0 0) t (fun u => u.out.events)) = some (some [.ramChanged 3]) := ⟨busyA_ready, by decide⟩

theorem witness_ViewAccessors : busyA.Ready ∧ 0x200 = (match busyC.cfg.variant with | .mbc1 => 0x8000 | .mbc2 => 0x200) :=
  ⟨busyA_ready, by decide⟩

theorem witness_SwitchableRamView :
    ((machine cfgD fresh).Ready ∧ cfgD.variant = .mbc1 ∧ cfgD.ramBankCount = 0) ∧
    (busyA.Ready ∧ cfgA.variant = .mbc1 ∧ cfgA.ramBankCount ≠ 0) ∧ (busyC.Ready ∧ cfgC.variant = .mbc2) :=
  ⟨⟨⟨rfl, by decide⟩, rfl, rfl⟩, ⟨busyA_ready, rfl, by decide⟩, busyC_ready, rfl⟩

theorem witness_ViewsAgreeWithBusReads :
    busyA.Inv ∧ busyA.Ready ∧ busyA.liveViews[0]? = some ⟨.addressSpace, 0, 0x4000, true⟩ ∧
    busyA.liveViews[1]? = some ⟨.rom, 0x1FC000, 0x4000, true⟩ ∧ 0x3FFF < 0x4000 ∧
    decode busyA.cfg.variant (readWord (BitVec.ofNat 16 0x3FFF)) {} = .ok (.mbc1RdRom0 0x3FFF) ∧
    decode busyA.cfg.variant (readWord (BitVec.ofNat 16 (0x4000 + 0x3FFF))) {} = .ok (.mbc1RdRomx 0x7FFF) :=
  ⟨busyA_inv, busyA_ready, by decide, by decide, by decide, by decide, by decide⟩

theorem witness_RamViewsBypassTheGate :
    busyA.Inv ∧ busyA.Ready ∧ busyA.liveViews[2]? = some ⟨.ram, 0x6000, 0x2000, false⟩ ∧ 0x1FFF < 0x2000 ∧
    busyA.liveViews[3]? = some ⟨.ram, 0, 0x8000, false⟩ ∧ 0x7FFF < 0x8000 :=
  ⟨busyA_inv, busyA_ready, by decide, by decide, by decide, by decide⟩

theorem witness_ViewsEndExactlyThen :
    ((∃ t, exec (.mbc1WrRamenAlias 0x1FFF 0) busyA = .next t) ∧ Instr.endsViews (.mbc1WrRamenAlias 0x1FFF 0) ∧
      5 < busyA.viewsEnded + busyA.liveViews.length) ∧
    ((∃ t, exec (.reset false) busyA = .next t) ∧ Instr.endsViews (.reset false)) ∧
    ((∃ t, exec (.mbc1WrRam 0xA000 1) busyA = .next t) ∧ ¬ Instr.endsViews (.mbc1WrRam 0xA000 1) ∧
      busyA.liveViews[3]? = some ⟨.ram, 0, 0x8000, false⟩) :=
  ⟨⟨exists_next_of (by decide), .inl ⟨by unfold Instr.isWrite; decide, by decide⟩, by decide⟩,
   ⟨exists_next_of (by decide), .inr (.inl rfl)⟩,
   exists_next_of (by decide), by unfold Instr.endsViews Instr.isWrite; decide, by decide⟩

end Sys2Proof.Tests
end

section
/-! PROOFS. The dispatch of a step (R2, R13): what it does on each form of the queue, and how a word is served. -/

namespace Sys2Proof.Machine

theorem step_of_input_nil {s : State} (h : s.input = []) : step s = .next s := by
  unfold step
  rw [h]

theorem step_of_input_cons {s : State} {r : Request} {rest : List Request} (h : s.input = r :: rest) :
    step s = serve r { s with input := rest } := by
  unfold step
  rw [h]

theorem serve_operation_of_decode_ok {s : State} {w : Nat} {o : HostOperands} {i : Instr}
    (h : decode s.cfg.variant w o = .ok i) : serve (.operation w o) s = exec i s := by
  simp only [serve, h]

/-- Settles O6: the queue's head goes to `serve`, which runs the decoded operation; for the requests outside the opcode table
`serve` is the request's own function by definition. -/
theorem stepRunsDecodedOperation : Obligations.StepRunsDecodedOperation := by
  unfold Obligations.StepRunsDecodedOperation
  exact ⟨fun _ _ _ _ _ hin hdec => (step_of_input_cons hin).trans (serve_operation_of_decode_ok hdec),
    fun _ _ _ _ hin => step_of_input_cons hin, fun _ _ _ _ _ hin => step_of_input_cons hin,
    fun _ _ _ hin => step_of_input_cons hin, fun _ _ hin => step_of_input_cons hin,
    fun _ _ hin => step_of_input_cons hin, fun _ _ _ _ hin => step_of_input_cons hin,
    fun _ hin => step_of_input_nil hin⟩

end Sys2Proof.Machine
end

section
/-! PROOFS. What an operation of the table can do to the state, said once: `exec_effect`. What every operation keeps is then a case
split over seven effects and nine updates of the mapper state. -/

namespace Sys2Proof.Machine

variable {s t : State} {i : Instr}

/-- A row that MBC2 does not have is an MBC1 row. -/
theorem variant_eq_mbc1_of_wf {v : Variant} (h : i.wf v = true) (h2 : i.wf .mbc2 = false) : v = .mbc1 := by
  cases v with
  | mbc1 => rfl
  | mbc2 => rw [h2] at h; cases h

/-- A row that MBC1 does not have is an MBC2 row. -/
theorem variant_eq_mbc2_of_wf {v : Variant} (h : i.wf v = true) (h1 : i.wf .mbc1 = false) : v = .mbc2 := by
  cases v with
  | mbc1 => rw [h1] at h; cases h
  | mbc2 => rfl

/-- `ControlUpdate c m i m'`: an operation `i` that ends the views (R180) may leave mapper state `m'` where it finds `m`. -/
inductive ControlUpdate (c : Cfg) (m : Mapper) : Instr → Mapper → Prop
  /-- R224, R226, R271, R273, R274. -/
  | ignored {i : Instr} : ControlUpdate c m i m
  /-- R221, R270. -/
  | ramEnable {i : Instr} (hi : i.mnemonic ∈ ["MBC1.WR_RAMEN", "MBC2.WR_RAMEN"]) (b : Bool) :
    ControlUpdate c m i { m with ramEnabled := b }
  /-- R223. -/
  | romLow (hv : c.variant = .mbc1) (a : Addr) (v : Byte) :
    ControlUpdate c m (.mbc1WrRomlo a v)
      (m.setRom (mbc1RomIndex c (lowFive v) (if m.bankingMode = 0 then m.higherRomBankBits else 0)))
  /-- R225, mode 1. -/
  | ramBank (hv : c.variant = .mbc1) (a : Addr) (v : Byte) :
    ControlUpdate c m (.mbc1WrBankhi a v) (m.setRamBank (mbc1RamBank c v))
  /-- R225, mode 0. -/
  | romHigh (hv : c.variant = .mbc1) (a : Addr) (v : Byte) :
    ControlUpdate c m (.mbc1WrBankhi a v)
      (({ m with higherRomBankBits := lowTwo v } : Mapper).setRom
        (mbc1RomIndex c (m.currentRomBankIndex &&& 0x1F) (lowTwo v)))
  /-- R226. -/
  | mode (hv : c.variant = .mbc1) (a : Addr) (v : Byte) (hacc : modeAccepted c (modeBit v) = true) :
    ControlUpdate c m (.mbc1WrMode a v) { m with bankingMode := modeBit v }
  /-- R272. -/
  | romSelect (hv : c.variant = .mbc2) (a : Addr) (v : Byte) :
    ControlUpdate c m (.mbc2WrRomsel a v) (m.setRom (mbc2RomIndex c v))
  /-- R341. -/
  | reset (isColorMode : Bool) : ControlUpdate c m (.reset isColorMode) (m.softReset c.variant)
  /-- R175. -/
  | loadState (src : Stream) {l : List RecordField} {m' : Mapper} (hl : recordLayout c = some l)
    (hread : readRecord c l src m = some m') (hinv : m'.inv c = true) : ControlUpdate c m (.loadState src) m'

/-- `Effect s i t`: what an operation `i` may do to a state `s` when it answers the state `t`. -/
inductive Effect (s : State) : Instr → State → Prop
  /-- Nothing but the output differs. -/
  | answer {i : Instr} (o : Output) : Effect s i (s.answer o)
  /-- R164. -/
  | load {i : Instr}
    (hi : i.mnemonic ∈ ["MBC1.WR_EXT_8000", "MBC1.WR_EXT_C000", "MBC2.WR_EXT_8000", "MBC2.WR_EXT_C000"])
    (a : Addr) (b : Byte) : Effect s i ((s.load a.toNat b).answer {})
  /-- R229, R277. -/
  | ramWrite {i : Instr} (hi : i.mnemonic ∈ ["MBC1.WR_RAM", "MBC2.WR_RAM"]) (hen : s.mapper.ramEnabled = true)
    {x : Nat} (hx : x < ramSize s.cfg) (b : Byte) (o : Output) :
    Effect s i { s with mapper := s.mapper.ramWrite x b, out := o }
  /-- R171. -/
  | loadBattery (src : Stream) (n : Nat) {bs : List Byte} (hbs : bs.length = batteryLen s.cfg) (o : Output) :
    Effect s (.loadBattery src n)
      { s with mapper := { s.mapper with ramBuffer := Memory.storeFront .ram s.mapper.ramBuffer bs }, out := o }
  /-- R167. -/
  | callback (ob : Option Handle) (h : Handle) (o : Output) :
    Effect s (.setCallback ob) { s with mapper := { s.mapper with ramChangedCallback := some h }, out := o }
  /-- R176–R179. -/
  | handOut {i : Instr} {v : View} (hv : v.shows s.cfg s.mapper) : Effect s i (s.afterHandOut v)
  /-- R91, R180, R341, R175. -/
  | control {i : Instr} {m : Mapper} (hu : ControlUpdate s.cfg s.mapper i m) (o : Output) :
    Effect s i (s.afterControl m o)

/-- Every operation that answers a next state has one of the effects. -/
theorem exec_effect (h : exec i s = .next t) : Effect s i t := by
  cases i with
  | mbc1RdRom0 a => obtain ⟨-, -, rfl⟩ := exec_mbc1RdRom0_next.1 h; exact .answer _
  | mbc1RdRomx a => obtain ⟨-, -, -, rfl⟩ := exec_mbc1RdRomx_next.1 h; exact .answer _
  | mbc1RdExt8000 a => obtain ⟨-, -, rfl⟩ := exec_mbc1RdExt8000_next.1 h; exact .answer _
  | mbc1RdRam a => obtain ⟨-, -, ⟨-, rfl⟩ | ⟨-, -, rfl⟩⟩ := exec_mbc1RdRam_next.1 h <;> exact .answer _
  | mbc1RdExtC000 a => obtain ⟨-, -, rfl⟩ := exec_mbc1RdExtC000_next.1 h; exact .answer _
  | mbc1WrRamen a v =>
    obtain ⟨-, -, rfl⟩ := exec_mbc1WrRamen_next.1 h
    exact .control (.ramEnable (by simp [Instr.mnemonic]) _) _
  | mbc1WrRamenAlias a v => obtain ⟨-, -, rfl⟩ := exec_mbc1WrRamenAlias_next.1 h; exact .control .ignored _
  | mbc1WrRomlo a v =>
    obtain ⟨-, hw, rfl⟩ := exec_mbc1WrRomlo_next.1 h
    exact .control (.romLow (variant_eq_mbc1_of_wf hw rfl) a v) _
  | mbc1WrBankhi a v =>
    obtain ⟨-, hw, rfl⟩ := exec_mbc1WrBankhi_next.1 h
    have hv := variant_eq_mbc1_of_wf hw rfl
    split
    · exact .control (.ramBank hv a v) _
    · exact .control (.romHigh hv a v) _
  | mbc1WrMode a v =>
    obtain ⟨-, hw, rfl⟩ := exec_mbc1WrMode_next.1 h
    split
    next hacc => exact .control (.mode (variant_eq_mbc1_of_wf hw rfl) a v hacc) _
    next => exact .control .ignored _
  | mbc1WrExt8000 a v => obtain ⟨-, -, rfl⟩ := exec_mbc1WrExt8000_next.1 h; exact .load (by simp [Instr.mnemonic]) _ _
  | mbc1WrRam a v =>
    obtain ⟨-, -, ⟨-, rfl⟩ | ⟨hen, hx, rfl⟩⟩ := exec_mbc1WrRam_next.1 h
    · exact .answer _
    · exact .ramWrite (by simp [Instr.mnemonic]) hen hx _ _
  | mbc1WrExtC000 a v => obtain ⟨-, -, rfl⟩ := exec_mbc1WrExtC000_next.1 h; exact .load (by simp [Instr.mnemonic]) _ _
  | mbc2RdRom0 a => obtain ⟨-, -, rfl⟩ := exec_mbc2RdRom0_next.1 h; exact .answer _
  | mbc2RdRomx a => obtain ⟨-, -, -, rfl⟩ := exec_mbc2RdRomx_next.1 h; exact .answer _
  | mbc2RdExt8000 a => obtain ⟨-, -, rfl⟩ := exec_mbc2RdExt8000_next.1 h; exact .answer _
  | mbc2RdRam a => obtain ⟨-, -, ⟨-, rfl⟩ | ⟨-, -, rfl⟩⟩ := exec_mbc2RdRam_next.1 h <;> exact .answer _
  | mbc2RdRamNa a => obtain ⟨-, -, rfl⟩ := exec_mbc2RdRamNa_next.1 h; exact .answer _
  | mbc2RdExtC000 a => obtain ⟨-, -, rfl⟩ := exec_mbc2RdExtC000_next.1 h; exact .answer _
  | mbc2WrRamen a v =>
    obtain ⟨-, -, rfl⟩ := exec_mbc2WrRamen_next.1 h
    exact .control (.ramEnable (by simp [Instr.mnemonic]) _) _
  | mbc2WrRamenAlias a v => obtain ⟨-, -, rfl⟩ := exec_mbc2WrRamenAlias_next.1 h; exact .control .ignored _
  | mbc2WrRomsel a v =>
    obtain ⟨-, hw, rfl⟩ := exec_mbc2WrRomsel_next.1 h
    exact .control (.romSelect (variant_eq_mbc2_of_wf hw rfl) a v) _
  | mbc2WrRomselAlias a v => obtain ⟨-, -, rfl⟩ := exec_mbc2WrRomselAlias_next.1 h; exact .control .ignored _
  | mbc2WrRomRej a v => obtain ⟨-, -, rfl⟩ := exec_mbc2WrRomRej_next.1 h; exact .control .ignored _
  | mbc2WrExt8000 a v => obtain ⟨-, -, rfl⟩ := exec_mbc2WrExt8000_next.1 h; exact .load (by simp [Instr.mnemonic]) _ _
  | mbc2WrRam a v =>
    obtain ⟨-, -, ⟨-, rfl⟩ | ⟨hen, hx, rfl⟩⟩ := exec_mbc2WrRam_next.1 h
    · exact .answer _
    · exact .ramWrite (by simp [Instr.mnemonic]) hen hx _ _
  | mbc2WrRamNa a v => obtain ⟨-, -, rfl⟩ := exec_mbc2WrRamNa_next.1 h; exact .answer _
  | mbc2WrExtC000 a v => obtain ⟨-, -, rfl⟩ := exec_mbc2WrExtC000_next.1 h; exact .load (by simp [Instr.mnemonic]) _ _
  | reset b => obtain ⟨-, -, rfl⟩ := exec_reset_next.1 h; exact .control (.reset b) _
  | saveBattery st => obtain ⟨-, rfl⟩ := exec_saveBattery_next.1 h; exact .answer _
  | loadBattery st n =>
    obtain ⟨o, rfl⟩ | ⟨bs, o, hbs, rfl⟩ := loadBattery_next (exec_loadBattery_next.1 h).2
    · exact .answer _
    · exact .loadBattery st n hbs o
  | saveState st => obtain ⟨-, l, -, rfl⟩ := exec_saveState_next.1 h; exact .answer _
  | loadState st =>
    obtain ⟨-, l, m, hl, -, hread, hinv, rfl⟩ := exec_loadState_next.1 h
    exact .control (.loadState st hl hread hinv) _
  | setCallback ob => obtain ⟨-, hd, -, rfl⟩ := exec_setCallback_next.1 h; exact .callback _ _ _
  | viewBank0 => obtain ⟨-, rfl⟩ := exec_viewBank0_next.1 h; exact .handOut (.inl rfl)
  | viewRomx => obtain ⟨-, rfl⟩ := exec_viewRomx_next.1 h; exact .handOut (.inr (.inl rfl))
  | viewRamx =>
    obtain ⟨-, ⟨-, -, rfl⟩ | ⟨hv, hn, rfl⟩ | ⟨hv, rfl⟩⟩ := exec_viewRamx_next.1 h
    · exact .answer _
    · exact .handOut (.inr (.inr (.inl ⟨hv, hn, rfl⟩)))
    · exact .handOut (.inr (.inr (.inr (by simp [ramSize, hv]))))
  | viewRamAll => obtain ⟨-, rfl⟩ := exec_viewRamAll_next.1 h; exact .handOut (.inr (.inr (.inr rfl)))

end Sys2Proof.Machine
end

section
/-! PROOFS. The invariants of the mapper state under every update: W1–W8 (R46) and the fields an MBC2 lacks (R32, log 24). -/

namespace Sys2Proof.Machine

variable {c : Cfg} {m : Mapper} {s t : State} {i : Instr} {x : Nat}

/-! ### W1–W8 (R46) under the updates of the mapper state -/

theorem inv_setRom (h : m.inv c = true) (hmax : x ≤ maxRomIndex c.variant) (hcount : x ≤ c.romBankCount - 1) :
    (m.setRom x).inv c = true := by
  cases hv : c.variant with
  | mbc1 =>
    rw [hv] at hmax
    obtain ⟨w1, w2, w3, -, -, w6, w7, w8⟩ := (inv_mbc1 hv).1 h
    exact (inv_mbc1 hv).2 ⟨w1, w2, w3, ⟨hmax, .inr hcount⟩, rfl, w6, w7, w8⟩
  | mbc2 =>
    rw [hv] at hmax
    obtain ⟨-, -, w8⟩ := (inv_mbc2 hv).1 h
    exact (inv_mbc2 hv).2 ⟨⟨hmax, .inr hcount⟩, rfl, w8⟩

theorem inv_setRamBank (hv : c.variant = .mbc1) (h : m.inv c = true) (h3 : x ≤ 3) (hcount : x ≤ c.ramBankCount - 1) :
    (m.setRamBank x).inv c = true := by
  obtain ⟨w1, w2, w3, w4, w5, -, -, w8⟩ := (inv_mbc1 hv).1 h
  exact (inv_mbc1 hv).2 ⟨w1, w2, w3, w4, w5, ⟨h3, .inr hcount⟩, rfl, w8⟩

theorem inv_setHighBits (hv : c.variant = .mbc1) (h : m.inv c = true) (hx : x ≤ 3) :
    ({ m with higherRomBankBits := x } : Mapper).inv c = true := by
  obtain ⟨w1, w2, -, w4, w5, w6, w7, w8⟩ := (inv_mbc1 hv).1 h
  exact (inv_mbc1 hv).2 ⟨w1, w2, hx, w4, w5, w6, w7, w8⟩

theorem inv_setMode (hv : c.variant = .mbc1) (h : m.inv c = true) (hx : x ≤ 1) (h3 : x = 1 → c.ramSizeClass = 3) :
    ({ m with bankingMode := x } : Mapper).inv c = true := by
  obtain ⟨-, -, w3, w4, w5, w6, w7, w8⟩ := (inv_mbc1 hv).1 h
  exact (inv_mbc1 hv).2 ⟨hx, h3, w3, w4, w5, w6, w7, w8⟩

theorem inv_setRamBuffer {b : Memory} (h : m.inv c = true) (hb : Memory.wf .ram (ramSize c) b = true) :
    ({ m with ramBuffer := b } : Mapper).inv c = true :=
  inv_congr h rfl rfl rfl rfl rfl rfl hb

/-- R341: the reset values meet W1–W7 (of an MBC2, W4 and W5), and RESET keeps the buffer. -/
theorem inv_softReset (h : m.inv c = true) : (m.softReset c.variant).inv c = true := by
  have w8 := inv_ramBuffer h
  cases hv : c.variant with
  | mbc1 =>
    rw [ramSize, hv] at w8
    simp [inv_mbc1 hv, w8]
  | mbc2 =>
    rw [ramSize, hv] at w8
    simp [inv_mbc2 hv, w8]

/-- R340: so does the mapper state of construction, whose buffer lists no byte. -/
theorem inv_constructed (c : Cfg) : Mapper.constructed.inv c = true := by
  cases hv : c.variant with
  | mbc1 => simp [inv_mbc1 hv, Mapper.constructed, Memory.wf]
  | mbc2 => simp [inv_mbc2 hv, Mapper.constructed, Memory.wf]

/-- The battery payload fits `ramBuffer` (R170, R10 (b)). -/
theorem batteryLen_le_ramSize (hc : c.wf = true) : batteryLen c ≤ ramSize c := by
  cases hv : c.variant with
  | mbc1 =>
    simp only [Cfg.wf, hv, Bool.and_eq_true, Bool.or_eq_true, beq_iff_eq] at hc
    simp only [batteryLen, ramSize, hv]
    omega
  | mbc2 => simp [batteryLen, ramSize, hv]

theorem modeAccepted_iff : modeAccepted c x = true ↔ (x = 1 → c.ramSizeClass = 3) := by
  simp [modeAccepted, imp_iff_not_or]

theorem ControlUpdate.inv {m' : Mapper} (hu : ControlUpdate c m i m') (hc : c.wf = true) (h : m.inv c = true) :
    m'.inv c = true := by
  cases hu with
  | ignored => exact h
  | ramEnable hi b => exact inv_congr h rfl rfl rfl rfl rfl rfl (inv_ramBuffer h)
  | romLow hv a v =>
    obtain ⟨-, -, w3, -⟩ := (inv_mbc1 hv).1 h
    obtain ⟨hmax, hcount⟩ := mbc1RomIndex_le (l := lowFive v)
      (h := if m.bankingMode = 0 then m.higherRomBankBits else 0) hc (by rw [lowFive_eq]; omega) (by split <;> omega)
    exact inv_setRom h (by rwa [hv]) hcount
  | ramBank hv a v => exact inv_setRamBank hv h mbc1RamBank_le.1 mbc1RamBank_le.2
  | romHigh hv a v =>
    have h2 : lowTwo v < 4 := by rw [lowTwo_eq]; omega
    obtain ⟨hmax, hcount⟩ := mbc1RomIndex_le (l := m.currentRomBankIndex &&& 0x1F) hc
      (Nat.and_lt_two_pow _ (n := 5) (by decide)) h2
    exact inv_setRom (inv_setHighBits hv h (by omega)) (by rwa [hv]) hcount
  | mode hv a v hacc => exact inv_setMode hv h (by rw [modeBit_eq]; omega) (modeAccepted_iff.1 hacc)
  | romSelect hv a v =>
    obtain ⟨hmax, hcount⟩ := mbc2RomIndex_le (v := v) hc
    exact inv_setRom h (by rwa [hv]) hcount
  | reset b => exact inv_softReset h
  | loadState src hl hread hinv => exact hinv

theorem Effect.cfg_eq (he : Effect s i t) : t.cfg = s.cfg := by
  cases he <;> rfl

theorem Effect.mapper_inv (he : Effect s i t) (hc : s.cfg.wf = true) (h : s.mapper.inv s.cfg = true) :
    t.mapper.inv s.cfg = true := by
  have w8 := inv_ramBuffer h
  cases he with
  | answer | load | handOut => exact h
  | ramWrite hi hen hx b o => exact inv_setRamBuffer h (Memory.wf_write w8 hx)
  | loadBattery src n hbs o =>
    exact inv_setRamBuffer h (Memory.wf_storeFront w8 (hbs ▸ batteryLen_le_ramSize hc))
  | callback ob hd o => exact inv_congr h rfl rfl rfl rfl rfl rfl w8
  | control hu o => exact hu.inv hc h

theorem exec_keeps_mapper_inv (h : exec i s = .next t) (hi : s.mapper.inv s.cfg = true) : t.mapper.inv t.cfg = true := by
  rw [(exec_effect h).cfg_eq]
  exact (exec_effect h).mapper_inv (exec_next_ready h).1.2 hi

/-- Settles O9: `exec_keeps_mapper_inv` gives W1–W8 of the next state, read item by item under its variant. -/
theorem operationsKeepMapperInvariants : Obligations.OperationsKeepMapperInvariants := by
  unfold Obligations.OperationsKeepMapperInvariants
  intro i s t hi h
  have ht := exec_keeps_mapper_inv h hi
  cases hv : t.cfg.variant with
  | mbc1 =>
    obtain ⟨w1, w2, w3, ⟨w4, w4'⟩, w5, w6, w7, w8⟩ := (inv_mbc1 hv).1 ht
    exact ⟨fun _ => w1, fun _ => w2, fun _ => w3, fun _ => w4, nofun, w4', w5, fun _ => w6, fun _ => w7,
      Memory.wfFrom_lt w8⟩
  | mbc2 =>
    obtain ⟨⟨w4, w4'⟩, w5, w8⟩ := (inv_mbc2 hv).1 ht
    exact ⟨nofun, nofun, nofun, nofun, fun _ => w4, w4', w5, nofun, nofun, Memory.wfFrom_lt w8⟩

/-! ### The fields an MBC2 lacks (R32, log 24) -/

theorem softReset_idle (h : m.mbc1FieldsIdle c) : (m.softReset c.variant).mbc1FieldsIdle c := by
  intro hv
  simpa [hv] using h hv

theorem ControlUpdate.idle {m' : Mapper} (hu : ControlUpdate c m i m') (h : m.mbc1FieldsIdle c) : m'.mbc1FieldsIdle c := by
  cases hu with
  | ignored | ramEnable | romSelect => exact h
  | romLow hv | ramBank hv | romHigh hv | mode hv => exact fun h2 => by rw [hv] at h2; cases h2
  | reset b => exact softReset_idle h
  | loadState src hl hread hinv =>
    intro hv
    obtain ⟨e1, e2, e3, e4⟩ := readRecord_mbc1Fields (fun f hf => (recordLayout_mbc2 hv hl).mem_iff.1 hf) hread
    rw [e1, e2, e3, e4]
    exact h hv

end Sys2Proof.Machine
end

section
/-! PROOFS. The machine's invariant `State.Inv` (R46, R180): it holds at reset, and every step keeps it. -/

namespace Sys2Proof.Machine

variable {c : Cfg} {m : Mapper} {s t : State} {i : Instr} {o : Output}

/-- What a view shows depends on the two byte offsets alone. -/
theorem View.shows_congr {v : View} (h : v.shows c m) {m' : Mapper} (hrom : m'.currentRomByteOffset = m.currentRomByteOffset)
    (hram : m'.currentRamByteOffset = m.currentRamByteOffset) : v.shows c m' := by
  simpa only [View.shows, hrom, hram] using h

/-- An update that leaves the two byte offsets keeps every view. -/
theorem State.Inv.setMapper (h : s.Inv) (hinv : s.live = true → m.inv s.cfg = true)
    (hidle : s.live = true → m.mbc1FieldsIdle s.cfg) (hrom : m.currentRomByteOffset = s.mapper.currentRomByteOffset)
    (hram : m.currentRamByteOffset = s.mapper.currentRamByteOffset) : State.Inv { s with mapper := m, out := o } :=
  { h with
    mapperInv := hinv
    idle := hidle
    viewsShow := fun v hv => View.shows_congr (h.viewsShow v hv) hrom hram }

theorem State.Inv.answer (h : s.Inv) (o : Output) : (s.answer o).Inv :=
  h.setMapper h.mapperInv h.idle rfl rfl

/-- An update that ends the views may move the offsets. -/
theorem State.Inv.afterControl (h : s.Inv) (hinv : s.live = true → m.inv s.cfg = true)
    (hidle : s.live = true → m.mbc1FieldsIdle s.cfg) : (s.afterControl m o).Inv :=
  { h with mapperInv := hinv, idle := hidle, viewsLive := fun _ => rfl, viewsShow := nofun }

theorem State.Inv.load (h : s.Inv) (a : Addr) (b : Byte) : ((s.load a.toNat b).answer o).Inv :=
  { h with addressSpaceWf := Memory.wf_write h.addressSpaceWf a.isLt }

theorem State.Inv.ramWrite (h : s.Inv) {x : Nat} (hx : x < ramSize s.cfg) (b : Byte) :
    State.Inv { s with mapper := s.mapper.ramWrite x b, out := o } :=
  h.setMapper (fun hl => inv_setRamBuffer (h.mapperInv hl) (Memory.wf_write (inv_ramBuffer (h.mapperInv hl)) hx)) h.idle rfl rfl

theorem State.Inv.afterHandOut (h : s.Inv) (hl : s.live = true) {v : View} (hv : v.shows s.cfg s.mapper) :
    (s.afterHandOut v).Inv :=
  { h with
    viewsLive := fun hd => absurd (hl.symm.trans hd) (by decide)
    viewsShow := fun w hw => (List.mem_append.1 hw).elim (h.viewsShow w) (fun h1 => List.mem_singleton.1 h1 ▸ hv) }

/-- Taking the head of the queue leaves the images that wait behind it. -/
theorem State.Inv.dequeue (h : s.Inv) {r : Request} {rest : List Request} (hin : s.input = r :: rest) :
    State.Inv { s with input := rest } :=
  { h with imagesWf := fun c hc => h.imagesWf c (hin ▸ List.mem_cons_of_mem r hc) }

/-! ### The requests -/

theorem State.Inv.exec (h : s.Inv) (he : exec i s = .next t) : t.Inv := by
  obtain ⟨⟨hl, hc⟩, -⟩ := exec_next_ready he
  have hinv := (exec_effect he).mapper_inv hc (h.mapperInv hl)
  cases exec_effect he with
  | answer o => exact h.answer o
  | load hi a b => exact h.load a b
  | ramWrite hi hen hx b o => exact h.ramWrite hx b
  | loadBattery | callback => exact h.setMapper (fun _ => hinv) h.idle rfl rfl
  | handOut hv => exact h.afterHandOut hl hv
  | control hu o => exact h.afterControl (fun _ => hinv) (fun _ => hu.idle (h.idle hl))

theorem State.Inv.viewRead (h : s.Inv) {n k : Nat} (he : viewRead n k s = .next t) : t.Inv := by
  obtain ⟨w, -, hw⟩ := withView_next _ he
  obtain ⟨b, rfl⟩ := viewByte_next w hw
  exact h.answer _

theorem State.Inv.viewWrite (h : s.Inv) {n k : Nat} {b : Byte} (he : viewWrite n k b s = .next t) : t.Inv := by
  obtain ⟨w, -, hw⟩ := withView_next _ he
  obtain ⟨hx, rfl⟩ := setViewByte_next w hw
  exact h.ramWrite hx b

theorem State.Inv.powerCycle (h : s.Inv) (he : powerCycle s = .next t) : t.Inv := by
  obtain ⟨-, hr⟩ := guardedLive_next.1 he
  obtain rfl := controlWrite_next.1 hr
  exact h.afterControl (fun hl => inv_softReset (h.mapperInv hl)) (fun hl => softReset_idle (h.idle hl))

theorem construct_next :
    construct c s = .next t ↔ s.live = false ∧ c.wf = true ∧
      t = State.afterControl { s with cfg := c, live := true } Mapper.constructed {} := by
  unfold construct
  cases s.live <;> cases c.wf <;> simp [State.endViews, State.answer, State.afterControl, eq_comm]

theorem destroy_next :
    destroy s = .next t ↔ s.live = true ∧
      t = State.afterControl { s with live := false } { s.mapper with ramBuffer := [] } {} := by
  unfold destroy
  cases s.live <;> simp [State.endViews, State.answer, State.afterControl, eq_comm]

theorem State.Inv.construct (h : s.Inv) (hrom : Memory.wf .rom c.romLen c.rom = true) (he : construct c s = .next t) : t.Inv := by
  obtain ⟨-, hc, rfl⟩ := construct_next.1 he
  exact
    { cfgWf := fun _ => hc
      mapperInv := fun _ => inv_constructed c
      idle := fun _ _ => ⟨rfl, rfl, rfl, rfl⟩
      addressSpaceWf := h.addressSpaceWf
      romWf := hrom
      imagesWf := h.imagesWf
      viewsLive := fun _ => rfl
      viewsShow := nofun }

theorem State.Inv.destroy (h : s.Inv) (he : destroy s = .next t) : t.Inv := by
  obtain ⟨-, rfl⟩ := destroy_next.1 he
  exact { h with cfgWf := nofun, mapperInv := nofun, idle := nofun, viewsLive := fun _ => rfl, viewsShow := nofun }

/-- Serving a request keeps the invariant; an image to construct with must be canonical. -/
theorem State.Inv.serve (h : s.Inv) {r : Request} (hrom : ∀ c, r = .construct c → Memory.wf .rom c.romLen c.rom = true)
    (he : serve r s = .next t) : t.Inv := by
  cases r with
  | operation w o =>
    cases hd : decode s.cfg.variant w o with
    | ok i => rw [serve_operation_of_decode_ok hd] at he; exact h.exec he
    | error e => simp [Machine.serve, hd] at he
  | viewRead n k => exact h.viewRead he
  | viewWrite n k b => exact h.viewWrite he
  | powerCycle => exact h.powerCycle he
  | construct c => exact h.construct (hrom c rfl) he
  | destroy => exact h.destroy he
  | overlapping x y => cases he

/-- Settles O7: a step takes the queue's head away and serves it, and both keep the invariant. -/
theorem stepKeepsInvariant : Obligations.StepKeepsInvariant := by
  unfold Obligations.StepKeepsInvariant
  intro s t h he
  cases hin : s.input with
  | nil =>
    rw [step_of_input_nil hin] at he
    cases he
    exact h
  | cons r rest =>
    rw [step_of_input_cons hin] at he
    exact (h.dequeue hin).serve (fun c hc => h.imagesWf c (by simp [hin, hc])) he

/-- Settles O8: construction's mapper state meets W1–W8 under every configuration, and nothing is listed, handed out or issued yet. -/
theorem resetMeetsInvariant : Obligations.ResetMeetsInvariant where
  cfgWf := fun _ => by decide
  mapperInv := fun _ => inv_constructed resetCfg
  idle := fun _ _ => ⟨rfl, rfl, rfl, rfl⟩
  addressSpaceWf := rfl
  romWf := rfl
  imagesWf := nofun
  viewsLive := nofun
  viewsShow := nofun

end Sys2Proof.Machine
end

section
/-! PROOFS. Which operations write which field (R31, R32, R164), and the gate of the RAM window (R33, R86). -/

namespace Sys2Proof.Machine

variable {s t : State} {i : Instr}

@[simp] theorem Mapper.softReset_ramBuffer (v : Variant) (m : Mapper) : (m.softReset v).ramBuffer = m.ramBuffer := by
  cases v <;> rfl

@[simp] theorem Mapper.softReset_ramChangedCallback (v : Variant) (m : Mapper) :
    (m.softReset v).ramChangedCallback = m.ramChangedCallback := by
  cases v <;> rfl

/-- Settles O16: each effect changes the fields of its own update only, and each update names its writers. -/
theorem mapperFieldWriters : Obligations.MapperFieldWriters := by
  unfold Obligations.MapperFieldWriters
  intro i s t h
  cases exec_effect h with
  | answer o => simp
  | load hi a b => refine ⟨?_, ?_, ?_, ?_, ?_, ?_, fun _ => hi⟩ <;> simp
  | ramWrite hi hen hx b o =>
    have hmem := List.mem_append_left ["LOAD_BATTERY", "LOAD_STATE"] hi
    refine ⟨?_, ?_, ?_, ?_, fun _ => hmem, ?_, ?_⟩ <;> simp
  | loadBattery src n hbs o => simp [Instr.mnemonic]
  | callback ob hd o => simp [Instr.mnemonic]
  | handOut hv => simp [State.afterHandOut]
  | control hu o =>
    cases hu with
    | ignored => simp [State.afterControl]
    | ramEnable hi b => exact ⟨fun _ => List.mem_append_left ["RESET", "LOAD_STATE"] hi, by simp [State.afterControl]⟩
    | romLow | ramBank | romHigh | mode | romSelect | reset => simp [State.afterControl, Instr.mnemonic]
    | loadState src hl hread hinv => simp [State.afterControl, Instr.mnemonic, readRecord_callback hread]

/-! ### RAM while it is disabled (R33, R86) -/

/-- A BUS row is no host row: the format bits of a host word are 0b10 (R122). -/
theorem not_bus_of_hostWord {op : Nat} (hop : op < 256) (h : encode i = hostWord op) : ¬ (Instr.isRead i ∨ Instr.isWrite i) := by
  have h2 : bits 25 24 (encode i) = 2 := by
    rw [h, hostWord_eq op hop]
    unfold bits
    omega
  simp [Instr.isRead, Instr.isWrite, h2]

/-- Of the bus operations only a write that finds RAM enabled changes `ramBuffer`. -/
theorem Effect.ramBuffer_eq (he : Effect s i t) (hbus : Instr.isRead i ∨ Instr.isWrite i)
    (hoff : s.mapper.ramEnabled = false) : t.mapper.ramBuffer = s.mapper.ramBuffer := by
  cases he with
  | answer | load | callback | handOut => rfl
  | ramWrite hi hen hx b o => rw [hoff] at hen; cases hen
  | loadBattery src n hbs o => exact absurd hbus (not_bus_of_hostWord (by decide) rfl)
  | control hu o =>
    cases hu with
    | reset b => exact Mapper.softReset_ramBuffer _ _
    | loadState src hl hread hinv => exact absurd hbus (not_bus_of_hostWord (by decide) rfl)
    | ignored | ramEnable | romLow | ramBank | romHigh | mode | romSelect => rfl

/-- R228, R229: the gate of the MBC1 RAM window. -/
theorem mbc1_disabledRam {a : Addr} (v : Byte) (hr : s.Ready) (hv : s.cfg.variant = .mbc1) (hoff : s.mapper.ramEnabled = false)
    (hlo : 0xA000 ≤ a.toNat) (hhi : a.toNat ≤ 0xBFFF) :
    exec (.mbc1RdRam a) s = .next (s.afterRead 0xFF [.disabledRamRead]) ∧
      exec (.mbc1WrRam a v) s = .next { s with out := { diagnostics := [.disabledRamWrite] } } :=
  ⟨exec_mbc1RdRam_next.2 ⟨hr, by simp [Instr.wf, hv, hlo, hhi], .inl ⟨hoff, rfl⟩⟩,
    exec_mbc1WrRam_next.2 ⟨hr, by simp [Instr.wf, hv, hlo, hhi], .inl ⟨hoff, rfl⟩⟩⟩

/-- R276, R277: the gate of the MBC2 RAM window. -/
theorem mbc2_disabledRam {a : Addr} (v : Byte) (hr : s.Ready) (hv : s.cfg.variant = .mbc2) (hoff : s.mapper.ramEnabled = false)
    (hlo : 0xA000 ≤ a.toNat) (hhi : a.toNat ≤ 0xA1FF) :
    exec (.mbc2RdRam a) s = .next (s.afterRead 0xFF [.disabledRamRead]) ∧
      exec (.mbc2WrRam a v) s = .next { s with out := { diagnostics := [.disabledRamWrite] } } :=
  ⟨exec_mbc2RdRam_next.2 ⟨hr, by simp [Instr.wf, hv, hlo, hhi], .inl ⟨hoff, rfl⟩⟩,
    exec_mbc2WrRam_next.2 ⟨hr, by simp [Instr.wf, hv, hlo, hhi], .inl ⟨hoff, rfl⟩⟩⟩

/-- Settles O17: no effect of a bus operation reaches `ramBuffer` past the gate, and the window's two rows of each variant answer at
the gate. -/
theorem disabledRamIsUntouched : Obligations.DisabledRamIsUntouched := by
  unfold Obligations.DisabledRamIsUntouched
  refine ⟨fun i s t hbus hoff h => (exec_effect h).ramBuffer_eq hbus hoff, fun a v s hr hoff hlo hhi => ?_⟩
  simp only [decode_readWord, decode_writeWord]
  cases hv : s.cfg.variant with
  | mbc1 =>
    rw [hv] at hhi
    obtain ⟨hread, hwrite⟩ := mbc1_disabledRam v hr hv hoff hlo hhi
    exact ⟨_, _, _, _, congrArg _ (decodeRead_mbc1RdRam hlo hhi), hread, congrArg _ (decodeWrite_mbc1WrRam hlo hhi), hwrite⟩
  | mbc2 =>
    rw [hv] at hhi
    obtain ⟨hread, hwrite⟩ := mbc2_disabledRam v hr hv hoff hlo hhi
    exact ⟨_, _, _, _, congrArg _ (decodeRead_mbc2RdRam hlo hhi), hread, congrArg _ (decodeWrite_mbc2WrRam hlo hhi), hwrite⟩

end Sys2Proof.Machine
end

section
/-! PROOFS. The windows of the bus (R80–R82) and the control registers behind it (R42): what the translator names in each, and what a
bus transaction into each does. -/

namespace Sys2Proof.Machine

variable {s : State} {m : Mapper} {v : Variant} {d : Byte} {a : Addr} {dir : Direction} {r : Register}

/-- The last address of the RAM window (R84, R85). -/
def ramWindowEnd : Variant → Nat
  | .mbc1 => 0xBFFF
  | .mbc2 => 0xA1FF

/-- The RAM index of a bus address in either variant (R84, R85). -/
def Mapper.ramIndex (v : Variant) (m : Mapper) (a : Addr) : Nat :=
  match v with
  | .mbc1 => m.mbc1RamIndex a
  | .mbc2 => mbc2RamIndex a

theorem ramSize_mbc1 {c : Cfg} (hv : c.variant = .mbc1) : ramSize c = 0x8000 := by rw [ramSize, hv]

theorem ramSize_mbc2 {c : Cfg} (hv : c.variant = .mbc2) : ramSize c = 0x200 := by rw [ramSize, hv]

theorem mbc1RamIndex_eq (m : Mapper) (a : Addr) :
    m.mbc1RamIndex a = if m.bankingMode = 0 then a.toNat - 0xA000 else a.toNat - 0xA000 + m.currentRamByteOffset := rfl

theorem mbc2RamIndex_eq (a : Addr) : mbc2RamIndex a = a.toNat - 0xA000 := rfl

/-- R80: the windows of the bus. -/
inductive BusWindow (v : Variant) (a : Addr) : Prop
  | fixed (hhi : a.toNat ≤ 0x3FFF)
  | switchable (hlo : 0x4000 ≤ a.toNat) (hhi : a.toNat ≤ 0x7FFF)
  | external (h : 0x8000 ≤ a.toNat ∧ a.toNat ≤ 0x9FFF ∨ 0xC000 ≤ a.toNat)
  | ram (hlo : 0xA000 ≤ a.toNat) (hhi : a.toNat ≤ ramWindowEnd v)
  /-- R278, R279. -/
  | nonAddressable (hv : v = .mbc2) (hlo : 0xA200 ≤ a.toNat) (hhi : a.toNat ≤ 0xBFFF)

theorem busWindow (v : Variant) (a : Addr) : BusWindow v a := by
  by_cases h3 : a.toNat ≤ 0x3FFF
  · exact .fixed h3
  by_cases h7 : a.toNat ≤ 0x7FFF
  · exact .switchable (by omega) h7
  by_cases hext : 0x8000 ≤ a.toNat ∧ a.toNat ≤ 0x9FFF ∨ 0xC000 ≤ a.toNat
  · exact .external hext
  cases v with
  | mbc1 => exact .ram (by omega) (by simp only [ramWindowEnd]; omega)
  | mbc2 =>
    by_cases hA : a.toNat ≤ 0xA1FF
    · exact .ram (by omega) hA
    · exact .nonAddressable rfl (by omega) (by omega)

/-- R42: the register a write to 0x0000–0x7FFF names. -/
inductive RegisterAt (v : Variant) (a : Addr) : Register → Prop
  | ramEnable (hhi : a.toNat ≤ 0x1FFF) (h8 : a.getLsbD 8 = false) : RegisterAt v a .ramEnable
  | ramEnableAlias (hhi : a.toNat ≤ 0x1FFF) (h8 : a.getLsbD 8 = true) : RegisterAt v a .ignored
  | romLow (hv : v = .mbc1) (hlo : 0x2000 ≤ a.toNat) (hhi : a.toNat ≤ 0x3FFF) : RegisterAt v a .romLow
  | bankHigh (hv : v = .mbc1) (hlo : 0x4000 ≤ a.toNat) (hhi : a.toNat ≤ 0x5FFF) : RegisterAt v a .bankHigh
  | mode (hv : v = .mbc1) (hlo : 0x6000 ≤ a.toNat) (hhi : a.toNat ≤ 0x7FFF) : RegisterAt v a .mode
  | romSelect (hv : v = .mbc2) (hlo : 0x2000 ≤ a.toNat) (hhi : a.toNat ≤ 0x3FFF) (h8 : a.getLsbD 8 = true) :
    RegisterAt v a .romSelect
  | romSelectAlias (hv : v = .mbc2) (hlo : 0x2000 ≤ a.toNat) (hhi : a.toNat ≤ 0x3FFF) (h8 : a.getLsbD 8 = false) :
    RegisterAt v a .ignored
  | rejected (hv : v = .mbc2) (hlo : 0x4000 ≤ a.toNat) (hhi : a.toNat ≤ 0x7FFF) : RegisterAt v a .rejected

theorem exists_registerAt (v : Variant) (h : a.toNat ≤ 0x7FFF) : ∃ r, RegisterAt v a r := by
  by_cases h1 : a.toNat ≤ 0x1FFF
  · cases h8 : a.getLsbD 8 with
    | false => exact ⟨_, .ramEnable h1 h8⟩
    | true => exact ⟨_, .ramEnableAlias h1 h8⟩
  by_cases h3 : a.toNat ≤ 0x3FFF
  · cases v with
    | mbc1 => exact ⟨_, .romLow rfl (by omega) h3⟩
    | mbc2 =>
      cases h8 : a.getLsbD 8 with
      | false => exact ⟨_, .romSelectAlias rfl (by omega) h3 h8⟩
      | true => exact ⟨_, .romSelect rfl (by omega) h3 h8⟩
  cases v with
  | mbc1 =>
    by_cases h5 : a.toNat ≤ 0x5FFF
    · exact ⟨_, .bankHigh rfl (by omega) h5⟩
    · exact ⟨_, .mode rfl (by omega) h⟩
  | mbc2 => exact ⟨_, .rejected rfl (by omega) h⟩

/-! ### What the translator names (R82) -/

/-- R81: `n` is the base of the 8 KiB region that `a` lies in. -/
theorem region_eq {n : Nat} (hn : n % 0x2000 = 0) (hlo : n ≤ a.toNat) (hhi : a.toNat < n + 0x2000) :
    a.toNat &&& 0xE000 = n := by
  rw [and_regionMask a.isLt]
  omega

theorem bit_eight_eq (a : Addr) : bits 8 8 a.toNat = (a.getLsbD 8).toNat := by
  have two : bits 8 8 a.toNat < 2 := Nat.mod_lt _ (by decide)
  rw [getLsbD_eight]
  by_cases h : bits 8 8 a.toNat = 1
  · simp [h]
  · simp only [h, decide_false, Bool.toNat_false]
    omega

theorem busTarget_read_fixed (hhi : a.toNat ≤ 0x3FFF) : busTarget v .read a m = .addressSpace a.toNat := by
  simp only [busTarget, and_regionMask a.isLt]
  rw [if_pos (by omega)]

theorem busTarget_read_switchable (hlo : 0x4000 ≤ a.toNat) (hhi : a.toNat ≤ 0x7FFF) :
    busTarget v .read a m = .rom (m.romIndex a) := by
  simp only [busTarget, and_regionMask a.isLt]
  rw [if_neg (by omega), if_pos (by omega)]
  rfl

theorem busTarget_external (h : 0x8000 ≤ a.toNat ∧ a.toNat ≤ 0x9FFF ∨ 0xC000 ≤ a.toNat) :
    busTarget v dir a m = .addressSpace a.toNat := by
  simp only [busTarget, and_regionMask a.isLt]
  rw [if_neg (by omega), if_neg (by omega), if_neg (by omega)]

theorem busTarget_nonAddressable (hlo : 0xA200 ≤ a.toNat) (hhi : a.toNat ≤ 0xBFFF) :
    busTarget .mbc2 dir a m = sentinelOrDrop dir 0x00 := by
  have region := region_eq (a := a) (n := 0xA000) rfl (by omega) (by omega)
  simp [busTarget, region, hlo]

theorem busTarget_ram (hlo : 0xA000 ≤ a.toNat) (hhi : a.toNat ≤ ramWindowEnd v) :
    busTarget v dir a m = if m.ramEnabled = false then sentinelOrDrop dir 0xFF else .ram (m.ramIndex v a) := by
  cases v with
  | mbc1 =>
    have region := region_eq (a := a) (n := 0xA000) rfl (by omega) (by simp only [ramWindowEnd] at hhi; omega)
    by_cases hm : m.bankingMode = 0 <;> simp [busTarget, region, hm, Mapper.ramIndex, mbc1RamIndex_eq]
  | mbc2 =>
    have addressable : ¬ 0xA200 ≤ a.toNat := by simp only [ramWindowEnd] at hhi; omega
    have region := region_eq (a := a) (n := 0xA000) rfl (by omega) (by omega)
    have index : m.ramIndex .mbc2 a = a.toNat - 0xA000 := rfl
    simp [busTarget, region, addressable, index]

theorem busTarget_register (h : RegisterAt v a r) : busTarget v .write a m = .register r := by
  cases h with
  | ramEnable hhi h8 =>
    have region := region_eq (a := a) (n := 0) rfl (Nat.zero_le _) (by omega)
    have bit8 : bits 8 8 a.toNat = 0 := by rw [bit_eight_eq, h8]; rfl
    cases v <;> simp [busTarget, lowRegister, region, bit8]
  | ramEnableAlias hhi h8 =>
    have region := region_eq (a := a) (n := 0) rfl (Nat.zero_le _) (by omega)
    have bit8 : bits 8 8 a.toNat = 1 := by rw [bit_eight_eq, h8]; rfl
    cases v <;> simp [busTarget, lowRegister, region, bit8]
  | romLow hv hlo hhi =>
    have region := region_eq (a := a) (n := 0x2000) rfl hlo (by omega)
    simp [busTarget, lowRegister, region, hv]
  | bankHigh hv hlo hhi =>
    have region := region_eq (a := a) (n := 0x4000) rfl hlo (by omega)
    simp [busTarget, highRegister, region, hv]
  | mode hv hlo hhi =>
    have region := region_eq (a := a) (n := 0x6000) rfl hlo (by omega)
    simp [busTarget, highRegister, region, hv]
  | romSelect hv hlo hhi h8 =>
    have region := region_eq (a := a) (n := 0x2000) rfl hlo (by omega)
    have bit8 : bits 8 8 a.toNat = 1 := by rw [bit_eight_eq, h8]; rfl
    simp [busTarget, lowRegister, region, bit8, hv]
  | romSelectAlias hv hlo hhi h8 =>
    have region := region_eq (a := a) (n := 0x2000) rfl hlo (by omega)
    have bit8 : bits 8 8 a.toNat = 0 := by rw [bit_eight_eq, h8]; rfl
    simp [busTarget, lowRegister, region, bit8, hv]
  | rejected hv hlo hhi =>
    obtain region | region : a.toNat &&& 0xE000 = 0x4000 ∨ a.toNat &&& 0xE000 = 0x6000 := by
      rw [and_regionMask a.isLt]
      omega
    · simp [busTarget, highRegister, region, hv]
    · simp [busTarget, highRegister, region, hv]

/-! ### What a bus transaction into each window does -/

theorem exec_read_fixed (hr : s.Ready) (hhi : a.toNat ≤ 0x3FFF) :
    exec (decodeRead s.cfg.variant a) s = delegatedRead a s := by
  cases hv : s.cfg.variant with
  | mbc1 => rw [decodeRead_mbc1RdRom0 hhi]; exact guarded_ready hr (by simp [Instr.wf, hv, hhi])
  | mbc2 => rw [decodeRead_mbc2RdRom0 hhi]; exact guarded_ready hr (by simp [Instr.wf, hv, hhi])

theorem exec_read_switchable (hr : s.Ready) (hlo : 0x4000 ≤ a.toNat) (hhi : a.toNat ≤ 0x7FFF) :
    exec (decodeRead s.cfg.variant a) s = romByte (s.mapper.romIndex a) s := by
  cases hv : s.cfg.variant with
  | mbc1 => rw [decodeRead_mbc1RdRomx hlo hhi]; exact guarded_ready hr (by simp [Instr.wf, hv, hlo, hhi])
  | mbc2 => rw [decodeRead_mbc2RdRomx hlo hhi]; exact guarded_ready hr (by simp [Instr.wf, hv, hlo, hhi])

theorem exec_read_external (hr : s.Ready) (h : 0x8000 ≤ a.toNat ∧ a.toNat ≤ 0x9FFF ∨ 0xC000 ≤ a.toNat) :
    exec (decodeRead s.cfg.variant a) s = delegatedRead a s := by
  have top := a.isLt
  obtain ⟨hlo, hhi⟩ | hlo := h <;> cases hv : s.cfg.variant
  · rw [decodeRead_mbc1RdExt8000 hlo hhi]; exact guarded_ready hr (by simp [Instr.wf, hv, hlo, hhi])
  · rw [decodeRead_mbc2RdExt8000 hlo hhi]; exact guarded_ready hr (by simp [Instr.wf, hv, hlo, hhi])
  · rw [decodeRead_mbc1RdExtC000 hlo]; exact guarded_ready hr (by simp [Instr.wf, hv, hlo]; omega)
  · rw [decodeRead_mbc2RdExtC000 hlo]; exact guarded_ready hr (by simp [Instr.wf, hv, hlo]; omega)

theorem exec_write_external (hr : s.Ready) (h : 0x8000 ≤ a.toNat ∧ a.toNat ≤ 0x9FFF ∨ 0xC000 ≤ a.toNat) :
    exec (decodeWrite s.cfg.variant a d) s = delegatedWrite a d s := by
  have top := a.isLt
  obtain ⟨hlo, hhi⟩ | hlo := h <;> cases hv : s.cfg.variant
  · rw [decodeWrite_mbc1WrExt8000 hlo hhi]; exact guarded_ready hr (by simp [Instr.wf, hv, hlo, hhi])
  · rw [decodeWrite_mbc2WrExt8000 hlo hhi]; exact guarded_ready hr (by simp [Instr.wf, hv, hlo, hhi])
  · rw [decodeWrite_mbc1WrExtC000 hlo]; exact guarded_ready hr (by simp [Instr.wf, hv, hlo]; omega)
  · rw [decodeWrite_mbc2WrExtC000 hlo]; exact guarded_ready hr (by simp [Instr.wf, hv, hlo]; omega)

/-- R278–R280. -/
theorem exec_nonAddressable (hr : s.Ready) (hv : s.cfg.variant = .mbc2) (hlo : 0xA200 ≤ a.toNat) (hhi : a.toNat ≤ 0xBFFF) :
    exec (.mbc2RdRamNa a) s = .next (s.afterRead 0x00 [.nonAddressableRead]) ∧
      exec (.mbc2WrRamNa a d) s = .next { s with out := { diagnostics := [.nonAddressableWrite] } } :=
  ⟨guarded_ready hr (by simp [Instr.wf, hv, hlo, hhi]), guarded_ready hr (by simp [Instr.wf, hv, hlo, hhi])⟩

/-- W6 and W7 keep the index of R84 inside `ramBuffer`. -/
theorem mbc1RamIndex_lt (hv : s.cfg.variant = .mbc1) (hi : s.mapper.inv s.cfg = true) (hhi : a.toNat ≤ 0xBFFF) :
    s.mapper.mbc1RamIndex a < ramSize s.cfg := by
  obtain ⟨-, -, -, -, -, ⟨w6, -⟩, w7, -⟩ := (inv_mbc1 hv).1 hi
  rw [ramSize_mbc1 hv, mbc1RamIndex_eq]
  split <;> omega

theorem mbc2RamIndex_lt (hv : s.cfg.variant = .mbc2) (hhi : a.toNat ≤ 0xA1FF) : mbc2RamIndex a < ramSize s.cfg := by
  rw [ramSize_mbc2 hv, mbc2RamIndex_eq]
  omega

/-- R228, R229: the MBC1 RAM window past the gate. -/
theorem mbc1_enabledRam (d : Byte) (hr : s.Ready) (hv : s.cfg.variant = .mbc1) (hi : s.mapper.inv s.cfg = true)
    (hon : s.mapper.ramEnabled = true) (hlo : 0xA000 ≤ a.toNat) (hhi : a.toNat ≤ 0xBFFF) :
    exec (.mbc1RdRam a) s =
        .next (s.afterRead (s.mapper.ramRead (s.mapper.mbc1RamIndex a)) (smallRamDiagnostic s.cfg s.mapper a)) ∧
      exec (.mbc1WrRam a d) s = .next { s with
        mapper := s.mapper.ramWrite (s.mapper.mbc1RamIndex a) d
        out := { diagnostics := smallRamDiagnostic s.cfg s.mapper a } } :=
  have inside := mbc1RamIndex_lt hv hi hhi
  ⟨exec_mbc1RdRam_next.2 ⟨hr, by simp [Instr.wf, hv, hlo, hhi], .inr ⟨hon, inside, rfl⟩⟩,
    exec_mbc1WrRam_next.2 ⟨hr, by simp [Instr.wf, hv, hlo, hhi], .inr ⟨hon, inside, rfl⟩⟩⟩

/-- R276, R277: the MBC2 RAM window past the gate. -/
theorem mbc2_enabledRam (d : Byte) (hr : s.Ready) (hv : s.cfg.variant = .mbc2) (hon : s.mapper.ramEnabled = true)
    (hlo : 0xA000 ≤ a.toNat) (hhi : a.toNat ≤ 0xA1FF) :
    exec (.mbc2RdRam a) s = .next (s.afterRead (s.mapper.ramRead (mbc2RamIndex a)) []) ∧
      exec (.mbc2WrRam a d) s = .next { s with mapper := s.mapper.ramWrite (mbc2RamIndex a) (d &&& 0x0F), out := {} } := by
  have inside := mbc2RamIndex_lt hv hhi
  rw [← ofNat_lowNibble]
  exact ⟨exec_mbc2RdRam_next.2 ⟨hr, by simp [Instr.wf, hv, hlo, hhi], .inr ⟨hon, inside, rfl⟩⟩,
    exec_mbc2WrRam_next.2 ⟨hr, by simp [Instr.wf, hv, hlo, hhi], .inr ⟨hon, inside, rfl⟩⟩⟩

/-- R33, R86: both directions of the RAM window at the gate. -/
theorem exec_ram_disabled (d : Byte) (hr : s.Ready) (hoff : s.mapper.ramEnabled = false)
    (hlo : 0xA000 ≤ a.toNat) (hhi : a.toNat ≤ ramWindowEnd s.cfg.variant) :
    exec (decodeRead s.cfg.variant a) s = .next (s.afterRead 0xFF [.disabledRamRead]) ∧
      exec (decodeWrite s.cfg.variant a d) s = .next { s with out := { diagnostics := [.disabledRamWrite] } } := by
  cases hv : s.cfg.variant with
  | mbc1 =>
    rw [hv] at hhi
    rw [decodeRead_mbc1RdRam hlo hhi, decodeWrite_mbc1WrRam hlo hhi]
    exact mbc1_disabledRam d hr hv hoff hlo hhi
  | mbc2 =>
    rw [hv] at hhi
    rw [decodeRead_mbc2RdRam hlo hhi, decodeWrite_mbc2WrRam hlo hhi]
    exact mbc2_disabledRam d hr hv hoff hlo hhi

/-- R84, R85: both directions of the RAM window past the gate. -/
theorem exec_ram_enabled (d : Byte) (hr : s.Ready) (hi : s.mapper.inv s.cfg = true) (hon : s.mapper.ramEnabled = true)
    (hlo : 0xA000 ≤ a.toNat) (hhi : a.toNat ≤ ramWindowEnd s.cfg.variant) :
    s.mapper.ramIndex s.cfg.variant a < ramSize s.cfg ∧
    ∃ ds,
      exec (decodeRead s.cfg.variant a) s =
        .next (s.afterRead (s.mapper.ramRead (s.mapper.ramIndex s.cfg.variant a)) ds) ∧
      exec (decodeWrite s.cfg.variant a d) s = .next { s with
        mapper := s.mapper.ramWrite (s.mapper.ramIndex s.cfg.variant a) (if s.cfg.variant = .mbc2 then d &&& 0x0F else d)
        out := { diagnostics := ds } } := by
  cases hv : s.cfg.variant with
  | mbc1 =>
    rw [hv] at hhi
    rw [decodeRead_mbc1RdRam hlo hhi, decodeWrite_mbc1WrRam hlo hhi]
    exact ⟨mbc1RamIndex_lt hv hi hhi, _, mbc1_enabledRam d hr hv hi hon hlo hhi⟩
  | mbc2 =>
    rw [hv] at hhi
    rw [decodeRead_mbc2RdRam hlo hhi, decodeWrite_mbc2WrRam hlo hhi]
    exact ⟨mbc2RamIndex_lt hv hhi, _, mbc2_enabledRam d hr hv hon hlo hhi⟩

/-- R42, R91: what a write to register `r` that finds mapper state `m` may leave as `m'`, with the events `es`. -/
def Register.Frame (r : Register) (m m' : Mapper) (es : List Event) : Prop :=
  m'.ramBuffer = m.ramBuffer ∧ m'.ramChangedCallback = m.ramChangedCallback ∧
  (r ≠ .ramEnable → m'.ramEnabled = m.ramEnabled ∧ es = []) ∧
  (r ≠ .mode → m'.bankingMode = m.bankingMode) ∧
  (r ≠ .romLow → r ≠ .romSelect → r ≠ .bankHigh →
    m'.currentRomBankIndex = m.currentRomBankIndex ∧ m'.currentRomByteOffset = m.currentRomByteOffset) ∧
  (r ≠ .bankHigh → m'.currentRamBankIndex = m.currentRamBankIndex ∧ m'.currentRamByteOffset = m.currentRamByteOffset ∧
    m'.higherRomBankBits = m.higherRomBankBits) ∧
  ((r = .ignored ∨ r = .rejected) → m' = m)

theorem Register.Frame.unchanged (r : Register) (m : Mapper) : r.Frame m m [] := by
  simp [Register.Frame]

/-- A control write completes, ends the views and stays in the frame of its register. -/
theorem exec_write_register (d : Byte) (hr : s.Ready) (h : RegisterAt s.cfg.variant a r) :
    ∃ m es ds, exec (decodeWrite s.cfg.variant a d) s = .next (s.afterControl m { events := es, diagnostics := ds }) ∧
      r.Frame s.mapper m es := by
  cases h with
  | ramEnable hhi h8 =>
    cases hv : s.cfg.variant with
    | mbc1 =>
      rw [decodeWrite_mbc1WrRamen hhi h8]
      exact ⟨_, _, _, exec_mbc1WrRamen_next.2 ⟨hr, by simpa [Instr.wf, hv, hhi] using h8, rfl⟩, by simp [Register.Frame]⟩
    | mbc2 =>
      rw [decodeWrite_mbc2WrRamen hhi h8]
      exact ⟨_, _, _, exec_mbc2WrRamen_next.2 ⟨hr, by simpa [Instr.wf, hv, hhi] using h8, rfl⟩, by simp [Register.Frame]⟩
  | ramEnableAlias hhi h8 =>
    cases hv : s.cfg.variant with
    | mbc1 =>
      rw [decodeWrite_mbc1WrRamenAlias hhi h8]
      exact ⟨_, _, _, exec_mbc1WrRamenAlias_next.2 ⟨hr, by simpa [Instr.wf, hv, hhi] using h8, rfl⟩, .unchanged _ _⟩
    | mbc2 =>
      rw [decodeWrite_mbc2WrRamenAlias hhi h8]
      exact ⟨_, _, _, exec_mbc2WrRamenAlias_next.2 ⟨hr, by simpa [Instr.wf, hv, hhi] using h8, rfl⟩, .unchanged _ _⟩
  | romLow hv hlo hhi =>
    rw [hv, decodeWrite_mbc1WrRomlo hlo hhi]
    exact ⟨_, _, _, exec_mbc1WrRomlo_next.2 ⟨hr, by simp [Instr.wf, hv, hlo, hhi], rfl⟩, by simp [Register.Frame]⟩
  | bankHigh hv hlo hhi =>
    rw [hv, decodeWrite_mbc1WrBankhi hlo hhi]
    refine ⟨_, _, _, exec_mbc1WrBankhi_next.2 ⟨hr, by simp [Instr.wf, hv, hlo, hhi], rfl⟩, ?_⟩
    split <;> simp [Register.Frame]
  | mode hv hlo hhi =>
    rw [hv, decodeWrite_mbc1WrMode hlo hhi]
    have h := (exec_mbc1WrMode_next (a := a) (v := d)).2 ⟨hr, by simp [Instr.wf, hv, hlo, hhi], rfl⟩
    split at h
    · exact ⟨_, _, _, h, by simp [Register.Frame]⟩
    · exact ⟨_, _, _, h, .unchanged _ _⟩
  | romSelect hv hlo hhi h8 =>
    rw [hv, decodeWrite_mbc2WrRomsel hlo hhi h8]
    exact ⟨_, _, _, exec_mbc2WrRomsel_next.2 ⟨hr, by simpa [Instr.wf, hv, hlo, hhi] using h8, rfl⟩, by simp [Register.Frame]⟩
  | romSelectAlias hv hlo hhi h8 =>
    rw [hv, decodeWrite_mbc2WrRomselAlias hlo hhi h8]
    exact ⟨_, _, _, exec_mbc2WrRomselAlias_next.2 ⟨hr, by simpa [Instr.wf, hv, hlo, hhi] using h8, rfl⟩, .unchanged _ _⟩
  | rejected hv hlo hhi =>
    rw [hv, decodeWrite_mbc2WrRomRej hlo hhi]
    exact ⟨_, _, _, exec_mbc2WrRomRej_next.2 ⟨hr, by simp [Instr.wf, hv, hlo, hhi], rfl⟩, .unchanged _ _⟩

end Sys2Proof.Machine
end

section
/-! PROOFS. The memory behind the bus: reads and writes follow the translator (R82), reads have no side effect (R90), nothing writes the
ROM image or the configuration (R3, R49, R98), and the RAM window of each variant (R84, R85). -/

namespace Sys2Proof.Machine

variable {s t : State} {i : Instr}

/-- Settles O10: one case per window, in which the translator's target and the operation's answer are each one lemma. -/
theorem busReadFollowsTranslator : Obligations.BusReadFollowsTranslator := by
  unfold Obligations.BusReadFollowsTranslator
  intro a o s hr hi
  refine ⟨_, decode_readWord _ a o, ?_⟩
  cases busWindow s.cfg.variant a with
  | fixed hhi =>
    rw [busTarget_read_fixed hhi, exec_read_fixed hr hhi]
    exact ⟨[], rfl⟩
  | switchable hlo hhi =>
    rw [busTarget_read_switchable hlo hhi, exec_read_switchable hr hlo hhi, romByte_eq]
    by_cases hx : s.mapper.romIndex a < s.cfg.romLen
    · simp only [hx, if_true]
      exact ⟨[], rfl⟩
    · simp only [hx, if_false]
  | external h =>
    rw [busTarget_external h, exec_read_external hr h]
    exact ⟨[], rfl⟩
  | ram hlo hhi =>
    rw [busTarget_ram hlo hhi]
    cases hen : s.mapper.ramEnabled with
    | false => exact ⟨_, (exec_ram_disabled 0 hr hen hlo hhi).1⟩
    | true =>
      obtain ⟨inside, ds, hread, -⟩ := exec_ram_enabled 0 hr hi hen hlo hhi
      exact ⟨inside, ds, hread⟩
  | nonAddressable hv hlo hhi =>
    rw [hv, busTarget_nonAddressable hlo hhi, decodeRead_mbc2RdRamNa hlo hhi]
    exact ⟨_, (exec_nonAddressable (d := 0) hr hv hlo hhi).1⟩

/-- Settles O11: a write below 0x8000 reaches a register and stays in its frame; the other windows are those of a read. -/
theorem busWriteFollowsTranslator : Obligations.BusWriteFollowsTranslator := by
  unfold Obligations.BusWriteFollowsTranslator
  intro a v o s hr hi
  refine ⟨_, decode_writeWord _ a v o, ?_⟩
  by_cases control : a.toNat ≤ 0x7FFF
  · obtain ⟨r, hreg⟩ := exists_registerAt s.cfg.variant control
    rw [busTarget_register hreg]
    exact exec_write_register v hr hreg
  cases busWindow s.cfg.variant a with
  | fixed hhi | switchable hlo hhi => omega
  | external h =>
    rw [busTarget_external h, exec_write_external hr h]
    exact ⟨[], rfl⟩
  | ram hlo hhi =>
    rw [busTarget_ram hlo hhi]
    cases hen : s.mapper.ramEnabled with
    | false => exact ⟨_, (exec_ram_disabled v hr hen hlo hhi).2⟩
    | true =>
      obtain ⟨inside, ds, -, hwrite⟩ := exec_ram_enabled v hr hi hen hlo hhi
      exact ⟨inside, ds, hwrite⟩
  | nonAddressable hv hlo hhi =>
    rw [hv, busTarget_nonAddressable hlo hhi, decodeWrite_mbc2WrRamNa hlo hhi]
    exact ⟨_, (exec_nonAddressable hr hv hlo hhi).2⟩

/-! ### Reads (R90) -/

theorem romByte_answer (n : Nat) (s : State) (o : Output) : romByte n (s.answer o) = romByte n s := rfl

theorem ramByte_answer (n : Nat) (ds : List Diagnostic) (s : State) (o : Output) :
    ramByte n ds (s.answer o) = ramByte n ds s := rfl

theorem setRamByte_answer (n : Nat) (b : Byte) (ds : List Diagnostic) (s : State) (o : Output) :
    setRamByte n b ds (s.answer o) = setRamByte n b ds s := rfl

/-- No operation reads what an earlier one produced. (Where an operation compares a window offset, `rfl` alone would count
the offset's constant down.) -/
theorem exec_answer (i : Instr) (s : State) (o : Output) : exec i (s.answer o) = exec i s := by
  cases i with
  | mbc1RdRomx a => exact congrArg (guarded (.mbc1RdRomx a) s) (romByte_answer _ s o)
  | mbc2RdRomx a => exact congrArg (guarded (.mbc2RdRomx a) s) (romByte_answer _ s o)
  | mbc1RdRam a => exact congrArg (guarded (.mbc1RdRam a) s) (if_congr .rfl rfl (ramByte_answer _ _ s o))
  | mbc2RdRam a => exact congrArg (guarded (.mbc2RdRam a) s) (if_congr .rfl rfl (ramByte_answer _ _ s o))
  | mbc1WrRam a v => exact congrArg (guarded (.mbc1WrRam a v) s) (if_congr .rfl rfl (setRamByte_answer _ _ _ s o))
  | mbc2WrRam a v => exact congrArg (guarded (.mbc2WrRam a v) s) (if_congr .rfl rfl (setRamByte_answer _ _ _ s o))
  | _ => rfl

/-- A BUS-WR row is no BUS-RD row: bit 24 of its word is set (R121). -/
theorem not_isRead_of_writeWord {a : Addr} {v : Byte} (h : encode i = writeWord a v) : ¬ Instr.isRead i := by
  have hv := v.isLt
  have ha := a.isLt
  unfold Instr.isRead
  rw [h, writeWord_eq]
  unfold bits
  omega

theorem not_isRead_of_hostWord {op : Nat} (hop : op < 256) (h : encode i = hostWord op) : ¬ Instr.isRead i :=
  fun hread => not_bus_of_hostWord hop h (.inl hread)

/-- A read that answers a next state changes the output alone. -/
theorem read_next (hread : Instr.isRead i) (h : exec i s = .next t) : ∃ o, t = s.answer o := by
  cases i with
  | mbc1RdRom0 a => obtain ⟨-, -, ht⟩ := exec_mbc1RdRom0_next.1 h; exact ⟨_, ht⟩
  | mbc1RdRomx a => obtain ⟨-, -, -, ht⟩ := exec_mbc1RdRomx_next.1 h; exact ⟨_, ht⟩
  | mbc1RdExt8000 a => obtain ⟨-, -, ht⟩ := exec_mbc1RdExt8000_next.1 h; exact ⟨_, ht⟩
  | mbc1RdRam a => obtain ⟨-, -, ⟨-, ht⟩ | ⟨-, -, ht⟩⟩ := exec_mbc1RdRam_next.1 h <;> exact ⟨_, ht⟩
  | mbc1RdExtC000 a => obtain ⟨-, -, ht⟩ := exec_mbc1RdExtC000_next.1 h; exact ⟨_, ht⟩
  | mbc2RdRom0 a => obtain ⟨-, -, ht⟩ := exec_mbc2RdRom0_next.1 h; exact ⟨_, ht⟩
  | mbc2RdRomx a => obtain ⟨-, -, -, ht⟩ := exec_mbc2RdRomx_next.1 h; exact ⟨_, ht⟩
  | mbc2RdExt8000 a => obtain ⟨-, -, ht⟩ := exec_mbc2RdExt8000_next.1 h; exact ⟨_, ht⟩
  | mbc2RdRam a => obtain ⟨-, -, ⟨-, ht⟩ | ⟨-, -, ht⟩⟩ := exec_mbc2RdRam_next.1 h <;> exact ⟨_, ht⟩
  | mbc2RdRamNa a => obtain ⟨-, -, ht⟩ := exec_mbc2RdRamNa_next.1 h; exact ⟨_, ht⟩
  | mbc2RdExtC000 a => obtain ⟨-, -, ht⟩ := exec_mbc2RdExtC000_next.1 h; exact ⟨_, ht⟩
  | mbc1WrRamen a v | mbc1WrRamenAlias a v | mbc1WrRomlo a v | mbc1WrBankhi a v | mbc1WrMode a v | mbc1WrExt8000 a v
  | mbc1WrRam a v | mbc1WrExtC000 a v | mbc2WrRamen a v | mbc2WrRamenAlias a v | mbc2WrRomsel a v | mbc2WrRomselAlias a v
  | mbc2WrRomRej a v | mbc2WrExt8000 a v | mbc2WrRam a v | mbc2WrRamNa a v | mbc2WrExtC000 a v =>
    exact absurd hread (not_isRead_of_writeWord rfl)
  | reset | saveBattery | loadBattery | saveState | loadState | setCallback | viewBank0 | viewRomx | viewRamx | viewRamAll =>
    exact absurd hread (not_isRead_of_hostWord (by decide) rfl)

/-- Settles O14: a read changes the output alone, and no operation reads the output. -/
theorem readsHaveNoSideEffects : Obligations.ReadsHaveNoSideEffects := by
  unfold Obligations.ReadsHaveNoSideEffects
  intro i s t hread h
  obtain ⟨o, rfl⟩ := read_next hread h
  exact ⟨rfl, (exec_answer i s o).trans h⟩

/-! ### What is never written (R3, R49, R98) -/

theorem Effect.live_eq (he : Effect s i t) : t.live = s.live := by
  cases he <;> rfl

theorem Effect.input_eq (he : Effect s i t) : t.input = s.input := by
  cases he <;> rfl

theorem viewWrite_cfg {n k : Nat} {x : Byte} (h : viewWrite n k x s = .next t) : t.cfg = s.cfg := by
  obtain ⟨w, -, hw⟩ := withView_next _ h
  obtain ⟨-, rfl⟩ := setViewByte_next w hw
  rfl

/-- R176, R177: only a view of `ramBuffer` is written through. -/
theorem setViewByte_readOnly {v : View} {k : Nat} (x : Byte) (hsp : v.space ≠ .ram) (hk : k < v.length) :
    setViewByte v k x s = .refused .readOnlyView := by
  unfold setViewByte
  rw [if_pos hk]
  cases hv : v.space with
  | ram => exact absurd hv hsp
  | addressSpace | rom => rfl

/-- Settles O15: no effect reaches configuration, life or input; a view write sets a byte of `ramBuffer` or is refused. -/
theorem romAndConfigurationAreNeverWritten : Obligations.RomAndConfigurationAreNeverWritten := by
  unfold Obligations.RomAndConfigurationAreNeverWritten
  refine ⟨fun i s t h => ?_, fun n k x s t h => viewWrite_cfg h, fun j k x s v hv hsp hk => ?_⟩
  · have he := exec_effect h
    exact ⟨he.cfg_eq, he.live_eq, he.input_eq⟩
  · obtain ⟨hj, rfl⟩ := List.getElem?_eq_some_iff.1 hv
    rw [viewWrite, withView_live _ j hj]
    exact setViewByte_readOnly x hsp hk

/-! ### The RAM window (R84, R85) -/

/-- Settles O33: the gate's answer, or the byte at the index of R84. -/
theorem mbc1RamReads : Obligations.Mbc1RamReads := by
  unfold Obligations.Mbc1RamReads
  intro a o s hr hv hi hlo hhi
  refine ⟨by rw [decode_readWord, decodeRead_mbc1RdRam hlo hhi], ?_⟩
  cases hen : s.mapper.ramEnabled with
  | false => exact ⟨_, (mbc1_disabledRam 0 hr hv hen hlo hhi).1⟩
  | true =>
    have hread := (mbc1_enabledRam 0 hr hv hi hen hlo hhi).1
    rw [mbc1RamIndex_eq, apply_ite s.mapper.ramRead] at hread
    exact ⟨_, hread⟩

/-- Settles O34: the gate drops the write, or the canonical buffer takes it at the index of R84. -/
theorem mbc1RamWrites : Obligations.Mbc1RamWrites := by
  unfold Obligations.Mbc1RamWrites
  intro a v o s hr hv hi hlo hhi
  exact ⟨by rw [decode_writeWord, decodeWrite_mbc1WrRam hlo hhi],
    fun hoff => ⟨_, (mbc1_disabledRam v hr hv hoff hlo hhi).2⟩,
    fun hon => ⟨_, _, (mbc1_enabledRam v hr hv hi hon hlo hhi).2, fun _ => Memory.read_write (inv_ramBuffer hi)⟩⟩

/-- Settles O36: the gate's answer, or the stored byte. -/
theorem mbc2RamReads : Obligations.Mbc2RamReads := by
  unfold Obligations.Mbc2RamReads
  intro a o s hr hv hlo hhi
  refine ⟨by rw [decode_readWord, decodeRead_mbc2RdRam hlo hhi], ?_⟩
  cases hen : s.mapper.ramEnabled with
  | false => exact ⟨_, (mbc2_disabledRam 0 hr hv hen hlo hhi).1⟩
  | true =>
    have hread := (mbc2_enabledRam 0 hr hv hen hlo hhi).1
    rw [mbc2RamIndex_eq] at hread
    exact ⟨_, hread⟩

/-- Settles O37: the gate drops the write, or the canonical buffer takes the low nibble. -/
theorem mbc2RamWrites : Obligations.Mbc2RamWrites := by
  unfold Obligations.Mbc2RamWrites
  intro a v o s hr hv w8 hlo hhi
  exact ⟨by rw [decode_writeWord, decodeWrite_mbc2WrRam hlo hhi],
    fun hoff => ⟨_, (mbc2_disabledRam v hr hv hoff hlo hhi).2⟩,
    fun hon => ⟨_, _, (mbc2_enabledRam v hr hv hon hlo hhi).2, fun _ => Memory.read_write w8⟩⟩

end Sys2Proof.Machine
end

section
/-! PROOFS. The words of the operations (R120–R125): which numbers are words, what each decodes to, and the round trips. -/

namespace Sys2Proof.Machine

variable {t : Nat} {v w : Variant} {a : Addr} {d : Byte} {i : Instr} {lo hi : Nat}

/-! ### A well-formed operation is decoded from its word -/

/-- What a row of R126 or R127 asks of variant and address. -/
theorem row_iff : (v == w && a.within lo hi) = true ↔ v = w ∧ lo ≤ a.toNat ∧ a.toNat ≤ hi := by
  simp

/-- As `row_iff`, for the rows with `a[8] = 0`. -/
theorem row_even_iff :
    (v == w && a.within lo hi && !a.getLsbD 8) = true ↔ v = w ∧ lo ≤ a.toNat ∧ a.toNat ≤ hi ∧ a.getLsbD 8 = false := by
  simp [and_assoc]

/-- As `row_iff`, for the rows with `a[8] = 1`. -/
theorem row_odd_iff :
    (v == w && a.within lo hi && a.getLsbD 8) = true ↔ v = w ∧ lo ≤ a.toNat ∧ a.toNat ≤ hi ∧ a.getLsbD 8 = true := by
  simp [and_assoc]

theorem decode_of_decodeRead (o : HostOperands) (h : decodeRead v a = i) : decode v (readWord a) o = .ok i :=
  h ▸ decode_readWord v a o

theorem decode_of_decodeWrite (o : HostOperands) (h : decodeWrite v a d = i) : decode v (writeWord a d) o = .ok i :=
  h ▸ decode_writeWord v a d o

/-- Settles O1: a bus word gives back its address and data, and the row's window makes the decoder select the row; a host word is
its code, and its operands stand beside it. -/
theorem decodeEncodeRoundTrip : Obligations.DecodeEncodeRoundTrip := by
  unfold Obligations.DecodeEncodeRoundTrip
  intro v i h
  cases i with
  | mbc1RdRom0 a =>
    obtain ⟨rfl, -, hhi⟩ := row_iff.1 h
    exact decode_of_decodeRead _ (decodeRead_mbc1RdRom0 hhi)
  | mbc1RdRomx a =>
    obtain ⟨rfl, hlo, hhi⟩ := row_iff.1 h
    exact decode_of_decodeRead _ (decodeRead_mbc1RdRomx hlo hhi)
  | mbc1RdExt8000 a =>
    obtain ⟨rfl, hlo, hhi⟩ := row_iff.1 h
    exact decode_of_decodeRead _ (decodeRead_mbc1RdExt8000 hlo hhi)
  | mbc1RdRam a =>
    obtain ⟨rfl, hlo, hhi⟩ := row_iff.1 h
    exact decode_of_decodeRead _ (decodeRead_mbc1RdRam hlo hhi)
  | mbc1RdExtC000 a =>
    obtain ⟨rfl, hlo, -⟩ := row_iff.1 h
    exact decode_of_decodeRead _ (decodeRead_mbc1RdExtC000 hlo)
  | mbc1WrRamen a d =>
    obtain ⟨rfl, -, hhi, h8⟩ := row_even_iff.1 h
    exact decode_of_decodeWrite _ (decodeWrite_mbc1WrRamen hhi h8)
  | mbc1WrRamenAlias a d =>
    obtain ⟨rfl, -, hhi, h8⟩ := row_odd_iff.1 h
    exact decode_of_decodeWrite _ (decodeWrite_mbc1WrRamenAlias hhi h8)
  | mbc1WrRomlo a d =>
    obtain ⟨rfl, hlo, hhi⟩ := row_iff.1 h
    exact decode_of_decodeWrite _ (decodeWrite_mbc1WrRomlo hlo hhi)
  | mbc1WrBankhi a d =>
    obtain ⟨rfl, hlo, hhi⟩ := row_iff.1 h
    exact decode_of_decodeWrite _ (decodeWrite_mbc1WrBankhi hlo hhi)
  | mbc1WrMode a d =>
    obtain ⟨rfl, hlo, hhi⟩ := row_iff.1 h
    exact decode_of_decodeWrite _ (decodeWrite_mbc1WrMode hlo hhi)
  | mbc1WrExt8000 a d =>
    obtain ⟨rfl, hlo, hhi⟩ := row_iff.1 h
    exact decode_of_decodeWrite _ (decodeWrite_mbc1WrExt8000 hlo hhi)
  | mbc1WrRam a d =>
    obtain ⟨rfl, hlo, hhi⟩ := row_iff.1 h
    exact decode_of_decodeWrite _ (decodeWrite_mbc1WrRam hlo hhi)
  | mbc1WrExtC000 a d =>
    obtain ⟨rfl, hlo, -⟩ := row_iff.1 h
    exact decode_of_decodeWrite _ (decodeWrite_mbc1WrExtC000 hlo)
  | mbc2RdRom0 a =>
    obtain ⟨rfl, -, hhi⟩ := row_iff.1 h
    exact decode_of_decodeRead _ (decodeRead_mbc2RdRom0 hhi)
  | mbc2RdRomx a =>
    obtain ⟨rfl, hlo, hhi⟩ := row_iff.1 h
    exact decode_of_decodeRead _ (decodeRead_mbc2RdRomx hlo hhi)
  | mbc2RdExt8000 a =>
    obtain ⟨rfl, hlo, hhi⟩ := row_iff.1 h
    exact decode_of_decodeRead _ (decodeRead_mbc2RdExt8000 hlo hhi)
  | mbc2RdRam a =>
    obtain ⟨rfl, hlo, hhi⟩ := row_iff.1 h
    exact decode_of_decodeRead _ (decodeRead_mbc2RdRam hlo hhi)
  | mbc2RdRamNa a =>
    obtain ⟨rfl, hlo, hhi⟩ := row_iff.1 h
    exact decode_of_decodeRead _ (decodeRead_mbc2RdRamNa hlo hhi)
  | mbc2RdExtC000 a =>
    obtain ⟨rfl, hlo, -⟩ := row_iff.1 h
    exact decode_of_decodeRead _ (decodeRead_mbc2RdExtC000 hlo)
  | mbc2WrRamen a d =>
    obtain ⟨rfl, -, hhi, h8⟩ := row_even_iff.1 h
    exact decode_of_decodeWrite _ (decodeWrite_mbc2WrRamen hhi h8)
  | mbc2WrRamenAlias a d =>
    obtain ⟨rfl, -, hhi, h8⟩ := row_odd_iff.1 h
    exact decode_of_decodeWrite _ (decodeWrite_mbc2WrRamenAlias hhi h8)
  | mbc2WrRomsel a d =>
    obtain ⟨rfl, hlo, hhi, h8⟩ := row_odd_iff.1 h
    exact decode_of_decodeWrite _ (decodeWrite_mbc2WrRomsel hlo hhi h8)
  | mbc2WrRomselAlias a d =>
    obtain ⟨rfl, hlo, hhi, h8⟩ := row_even_iff.1 h
    exact decode_of_decodeWrite _ (decodeWrite_mbc2WrRomselAlias hlo hhi h8)
  | mbc2WrRomRej a d =>
    obtain ⟨rfl, hlo, hhi⟩ := row_iff.1 h
    exact decode_of_decodeWrite _ (decodeWrite_mbc2WrRomRej hlo hhi)
  | mbc2WrExt8000 a d =>
    obtain ⟨rfl, hlo, hhi⟩ := row_iff.1 h
    exact decode_of_decodeWrite _ (decodeWrite_mbc2WrExt8000 hlo hhi)
  | mbc2WrRam a d =>
    obtain ⟨rfl, hlo, hhi⟩ := row_iff.1 h
    exact decode_of_decodeWrite _ (decodeWrite_mbc2WrRam hlo hhi)
  | mbc2WrRamNa a d =>
    obtain ⟨rfl, hlo, hhi⟩ := row_iff.1 h
    exact decode_of_decodeWrite _ (decodeWrite_mbc2WrRamNa hlo hhi)
  | mbc2WrExtC000 a d =>
    obtain ⟨rfl, hlo, -⟩ := row_iff.1 h
    exact decode_of_decodeWrite _ (decodeWrite_mbc2WrExtC000 hlo)
  | reset | saveBattery | loadBattery | saveState | loadState | setCallback | viewBank0 | viewRomx | viewRamx | viewRamAll =>
    rw [encode]
    rfl

/-- Settles O5: each word is the word of the operation it stands for, so O1 decodes it. -/
theorem writtenOutWordsDecode : Obligations.WrittenOutWordsDecode := by
  unfold Obligations.WrittenOutWordsDecode
  exact ⟨decodeEncodeRoundTrip .mbc1 (.mbc1RdRom0 0x0150) rfl, decodeEncodeRoundTrip .mbc1 (.mbc1WrRamenAlias 0x1FFF 0x0A) rfl,
    decodeEncodeRoundTrip .mbc1 (.mbc1WrRomlo 0x2100 0x03) rfl, decodeEncodeRoundTrip .mbc2 (.mbc2WrRomsel 0x2100 0x03) rfl,
    decodeEncodeRoundTrip .mbc2 (.mbc2RdRam 0xA1FF) rfl, decodeEncodeRoundTrip .mbc2 (.mbc2RdRamNa 0xA200) rfl,
    decodeEncodeRoundTrip .mbc2 (.reset true) rfl, decodeEncodeRoundTrip .mbc1 .viewRamAll rfl⟩

/-! ### Which numbers are words (R125) -/

/-- R125: the four kinds of ill-formed words. -/
def IllFormedWord (t : Nat) : Prop :=
  0x4000000 ≤ t ∨
  (t < 0x1000000 ∧ bits 7 0 t ≠ 0) ∨
  (0x2000000 ≤ t ∧ t < 0x4000000 ∧ bits 24 8 t ≠ 0) ∨
  (0x2000000 ≤ t ∧ t < 0x4000000 ∧ (bits 7 0 t = 0x00 ∨ 0x0B ≤ bits 7 0 t))

theorem decode_of_host (o : HostOperands) (hlo : 0x2000000 ≤ t) (hhi : t < 0x4000000) : decode v t o = decodeHost t o := by
  have h25 : bits 25 25 t = 1 := by unfold bits; omega
  rw [decode, if_neg (by omega), if_pos h25]

/-- The decoder refuses an ill-formed word (R125). -/
theorem IllFormedWord.decode_error (h : IllFormedWord t) (v : Variant) (o : HostOperands) : ∃ e, decode v t o = .error e := by
  obtain high | ⟨hhi, hdata⟩ | ⟨hlo, hhi, hres⟩ | ⟨hlo, hhi, hop⟩ := h
  · exact ⟨_, if_pos high⟩
  · have h25 : ¬ bits 25 25 t = 1 := by unfold bits; omega
    have h24 : ¬ bits 24 24 t = 1 := by unfold bits; omega
    exact ⟨.readWithData, by rw [decode, if_neg (by omega), if_neg h25, if_neg h24, if_pos hdata]⟩
  · exact ⟨.reservedBits, by rw [decode_of_host o hlo hhi, decodeHost, if_pos hres]⟩
  · rw [decode_of_host o hlo hhi]
    by_cases hres : bits 24 8 t ≠ 0
    · exact ⟨.reservedBits, by rw [decodeHost, if_pos hres]⟩
    · refine ⟨.reservedOp, ?_⟩
      rw [decodeHost, if_neg hres]
      iterate 10 rw [if_neg (by omega)]

theorem eq_readWord (hhi : t < 0x1000000) (hdata : bits 7 0 t = 0) : t = readWord (BitVec.ofNat 16 (bits 23 8 t)) := by
  rw [readWord_eq, BitVec.toNat_ofNat]
  unfold bits at *
  omega

theorem eq_writeWord (hlo : 0x1000000 ≤ t) (hhi : t < 0x2000000) :
    t = writeWord (BitVec.ofNat 16 (bits 23 8 t)) (BitVec.ofNat 8 (bits 7 0 t)) := by
  rw [writeWord_eq, BitVec.toNat_ofNat, BitVec.toNat_ofNat]
  unfold bits
  omega

theorem eq_hostWord (hlo : 0x2000000 ≤ t) (hhi : t < 0x4000000) (hres : bits 24 8 t = 0) : t = hostWord (bits 7 0 t) := by
  rw [hostWord_eq _ (by unfold bits; omega)]
  unfold bits at *
  omega

/-- The row a write address selects belongs to the variant, its window holds the address, and its word is the write word. -/
theorem decodeWrite_spec (v : Variant) (a : Addr) (d : Byte) :
    (decodeWrite v a d).wf v = true ∧ encode (decodeWrite v a d) = writeWord a d := by
  have top := a.isLt
  cases v
  all_goals
    simp only [decodeWrite]
    repeat' split
    all_goals
      simp only [Instr.wf, getLsbD_eight, encode, beq_self_eq_true, Bool.true_and, Bool.and_eq_true, Bool.not_eq_true',
        Addr.within_iff, decide_eq_true_eq, decide_eq_false_iff_not, and_true]
      unfold bits at *
      omega

/-- The codes 0x01–0x0A are those of R123, in either variant. -/
theorem decode_hostWord {op : Nat} (v : Variant) (o : HostOperands) (hlo : 0x01 ≤ op) (hhi : op ≤ 0x0A) :
    ∃ i, decode v (hostWord op) o = .ok i ∧ i.wf v = true ∧ encode i = hostWord op := by
  interval_cases op <;> exact ⟨_, rfl, rfl, rfl⟩

/-- Every other word is decoded (R124), to an operation of the variant, inside its row's window, whose word it is. -/
theorem decode_ok_of_not_illFormedWord (h : ¬ IllFormedWord t) (v : Variant) (o : HostOperands) :
    ∃ i, decode v t o = .ok i ∧ i.wf v = true ∧ encode i = t := by
  simp only [IllFormedWord, not_or, not_and] at h
  obtain ⟨hhi, hread, hreserved, hop⟩ := h
  by_cases isRead : t < 0x1000000
  · rw [eq_readWord isRead (by simpa using hread isRead)]
    exact ⟨_, decode_readWord v _ o, decodeRead_spec v _⟩
  by_cases isWrite : t < 0x2000000
  · rw [eq_writeWord (by omega) isWrite]
    exact ⟨_, decode_writeWord v _ _ o, decodeWrite_spec v _ _⟩
  have hlo : 0x2000000 ≤ t := by omega
  have hcode := hop hlo (by omega)
  rw [eq_hostWord hlo (by omega) (by simpa using hreserved hlo (by omega))]
  exact decode_hostWord v o (by omega) (by omega)

/-- R125: the decoder refuses exactly the ill-formed words. -/
theorem decode_error_iff (v : Variant) (t : Nat) (o : HostOperands) : (∃ e, decode v t o = .error e) ↔ IllFormedWord t := by
  refine ⟨fun ⟨e, he⟩ => by_contra fun h => ?_, fun h => h.decode_error v o⟩
  obtain ⟨i, hi, -⟩ := decode_ok_of_not_illFormedWord h v o
  rw [hi] at he
  cases he

/-- Settles O2: a word that is decoded is no ill-formed one, and every other word is its operation's. -/
theorem encodeDecodeRoundTrip : Obligations.EncodeDecodeRoundTrip := by
  unfold Obligations.EncodeDecodeRoundTrip
  intro v t o i h
  have hword : ¬ IllFormedWord t := fun hill => by
    obtain ⟨e, he⟩ := hill.decode_error v o
    rw [he] at h
    cases h
  obtain ⟨j, hj, hspec⟩ := decode_ok_of_not_illFormedWord hword v o
  rw [h] at hj
  cases hj
  exact hspec

/-! ### A step refuses exactly the ill-formed words (R125, D20) -/

/-- The answer is no refusal of the word. -/
def AcceptsWord (k : Outcome) : Prop := ∀ e, k ≠ .refused (.illFormedWord e)

variable {s : State} {k k' : Outcome} {n : Nat} {ds : List Diagnostic} {src : Stream}

theorem AcceptsWord.next : AcceptsWord (.next s) := fun _ => nofun

theorem AcceptsWord.ite {p : Prop} [Decidable p] (h : AcceptsWord k) (h' : AcceptsWord k') :
    AcceptsWord (if p then k else k') := by
  split
  · exact h
  · exact h'

theorem AcceptsWord.guarded (h : AcceptsWord k) : AcceptsWord (guarded i s k) := fun e => guarded_ne_illFormedWord (h e)

theorem romByte_acceptsWord : AcceptsWord (romByte n s) := by
  rw [romByte_eq]
  exact .ite .next fun _ => nofun

theorem ramByte_acceptsWord : AcceptsWord (ramByte n ds s) := .ite .next fun _ => nofun

theorem setRamByte_acceptsWord : AcceptsWord (setRamByte n d ds s) := .ite .next fun _ => nofun

theorem loadPayload_acceptsWord : AcceptsWord (loadPayload n src s) := .ite .next fun _ => nofun

theorem loadBattery_acceptsWord : AcceptsWord (loadBattery src n s) :=
  .ite loadPayload_acceptsWord (.ite .next loadPayload_acceptsWord)

theorem saveState_acceptsWord : AcceptsWord (saveState src s) := by
  unfold saveState
  split
  · exact fun _ => nofun
  · exact .next

theorem loadState_acceptsWord : AcceptsWord (loadState src s) := by
  unfold loadState
  split
  · exact fun _ => nofun
  · refine .ite ?_ fun _ => nofun
    split
    · exact fun _ => nofun
    · exact .ite .next fun _ => nofun

/-- No meaning refuses a word: only the decoder does. -/
theorem exec_acceptsWord (i : Instr) (s : State) : AcceptsWord (exec i s) := by
  cases i with
  | mbc1RdRomx | mbc2RdRomx => exact .guarded romByte_acceptsWord
  | mbc1RdRam | mbc2RdRam => exact .guarded (.ite .next ramByte_acceptsWord)
  | mbc1WrRam | mbc2WrRam => exact .guarded (.ite .next setRamByte_acceptsWord)
  | mbc1WrRomlo | mbc1WrBankhi | mbc1WrMode => exact .guarded (.ite .next .next)
  | loadBattery => exact .guarded loadBattery_acceptsWord
  | saveState => exact .guarded saveState_acceptsWord
  | loadState => exact .guarded loadState_acceptsWord
  | setCallback observer =>
    cases observer with
    | none => exact .guarded fun _ => nofun
    | some h => exact .guarded .next
  | viewRamx =>
    refine .guarded ?_
    split
    · exact .ite .next .next
    · exact .next
  | _ => exact .guarded .next

theorem serve_operation_of_decode_error {word : Nat} {o : HostOperands} {e : DecodeError}
    (h : decode s.cfg.variant word o = .error e) : serve (.operation word o) s = .refused (.illFormedWord e) := by
  simp only [serve, h]

/-- A word is refused as ill-formed exactly when the decoder refuses it. -/
theorem serve_illFormedWord_iff {word : Nat} {o : HostOperands} {e : DecodeError} :
    serve (.operation word o) s = .refused (.illFormedWord e) ↔ decode s.cfg.variant word o = .error e := by
  refine ⟨fun h => ?_, serve_operation_of_decode_error⟩
  cases hd : decode s.cfg.variant word o with
  | ok i =>
    rw [serve_operation_of_decode_ok hd] at h
    exact absurd h (exec_acceptsWord i s e)
  | error e' =>
    rw [serve_operation_of_decode_error hd] at h
    cases h
    rfl

/-- Settles O4: a step refuses the word where the decoder does, and that is on the four kinds of R125. -/
theorem illFormedWordsAreRefused : Obligations.IllFormedWordsAreRefused := by
  unfold Obligations.IllFormedWordsAreRefused
  intro t o s rest hin
  simp only [step_of_input_cons hin, serve_illFormedWord_iff]
  exact decode_error_iff s.cfg.variant t o

/-! ### The pseudo-operations (R133) -/

/-- Settles O60: each word is a sum of its fields (R121); the example runs its two bus writes. -/
theorem pseudoOperations : Obligations.PseudoOperations := by
  unfold Obligations.PseudoOperations
  refine ⟨rfl, rfl, fun n => ?_, fun k => ?_, fun n => ?_, by decide⟩
  · have hn := n.isLt
    simp [PseudoOp.words, writeWord_eq, bits]
    omega
  · simp [PseudoOp.words, writeWord_eq]
  · simp [PseudoOp.words, writeWord_eq]

end Sys2Proof.Machine
end

section
/-! PROOFS. The opcode table (R124, R134) against the structural decoder: a decoded word fits the row of its operation, no other row
with as low a priority number fits it, and an ill-formed word fits no row. -/

namespace Sys2Proof

open Sys2Proof.Machine

variable {t k q hi lo : Nat} {v : Variant} {a : Addr} {d : Byte} {b : Bool} {i : Instr} {r r' : Row}

/-! ### Which row is selected (R124) -/

theorem Row.fits_iff : r.fits v t = true ↔ (r.variant = none ∨ r.variant = some v) ∧ t &&& r.mask = r.pattern := by
  simp [Row.fits]

theorem opcodeTable_priority : ∀ r ∈ opcodeTable, r.priority = 1 ∨ r.priority = 2 := by decide

theorem selectRow_eq_none_iff : selectRow v t = none ↔ ∀ r ∈ opcodeTable, ¬ r.fits v t = true := by
  unfold selectRow
  cases h : opcodeTable.find? (fun r => r.fits v t && r.priority == 1) with
  | none => exact List.find?_eq_none
  | some r =>
    have hfit := List.find?_some h
    simp only [Bool.and_eq_true] at hfit
    simp only [reduceCtorEq, false_iff, not_forall, not_not]
    exact ⟨r, List.mem_of_find?_eq_some h, hfit.1⟩

/-- R124: the selected row fits, and no row with a lower priority number does. -/
theorem selectRow_eq_some (h : selectRow v t = some r) :
    r ∈ opcodeTable ∧ r.fits v t = true ∧ ∀ r' ∈ opcodeTable, r'.fits v t = true → r.priority ≤ r'.priority := by
  unfold selectRow at h
  cases hfirst : opcodeTable.find? (fun r => r.fits v t && r.priority == 1) with
  | none =>
    rw [hfirst] at h
    have hmem := List.mem_of_find?_eq_some h
    refine ⟨hmem, List.find?_some h, fun r' hmem' hfit' => ?_⟩
    have hlow : ¬ r'.priority = 1 := by simpa [hfit'] using List.find?_eq_none.1 hfirst r' hmem'
    have := opcodeTable_priority r hmem
    have := opcodeTable_priority r' hmem'
    omega
  | some s =>
    rw [hfirst] at h
    obtain rfl : s = r := Option.some.inj h
    have hfit := List.find?_some hfirst
    simp only [Bool.and_eq_true, beq_iff_eq] at hfit
    refine ⟨List.mem_of_find?_eq_some hfirst, hfit.1, fun r' hmem' _ => ?_⟩
    have := opcodeTable_priority r' hmem'
    omega

/-! ### Rows that fit one word -/

/-- Two rows share a variant, and their patterns agree where both look. -/
abbrev Row.Overlap (r r' : Row) : Prop :=
  (r.variant = none ∨ r'.variant = none ∨ r.variant = r'.variant) ∧ r.pattern &&& r'.mask = r'.pattern &&& r.mask

theorem Row.overlap_of_fits (h : r.fits v t = true) (h' : r'.fits v t = true) : r.Overlap r' := by
  obtain ⟨hv, hp⟩ := fits_iff.1 h
  obtain ⟨hv', hp'⟩ := fits_iff.1 h'
  refine ⟨?_, ?_⟩
  · obtain hv | hv := hv
    · exact .inl hv
    · exact .inr (hv'.imp id fun hv' => hv.trans hv'.symm)
  · rw [← hp, ← hp', Nat.and_assoc, Nat.and_assoc, Nat.and_comm r.mask]

/-- R124: rows of one priority are disjoint. -/
theorem opcodeTable_disjoint :
    ∀ r ∈ opcodeTable, ∀ r' ∈ opcodeTable, r.Overlap r' → r.priority = r'.priority → r = r' := by decide

/-- R124: a row of priority 1 that overlaps one of priority 2 is a row of the MBC2 RAM window, where `a[12:9] = 0`. -/
theorem opcodeTable_overlap :
    ∀ r ∈ opcodeTable, ∀ r' ∈ opcodeTable, r.Overlap r' → r.priority < r'.priority →
      r.mask &&& 0x1E0000 = 0x1E0000 ∧ r.pattern &&& 0x1E0000 = 0 := by decide

/-- The bits `m` of a word that a row looks at are those of the row's pattern. -/
theorem Row.land_of_fits {m : Nat} (h : r.fits v t = true) (hm : r.mask &&& m = m) : t &&& m = r.pattern &&& m := by
  rw [← (fits_iff.1 h).2, Nat.and_assoc, hm]

/-- A row that fits is the selected one, if its priority is 1 or the word is outside the MBC2 RAM window. -/
theorem selectRow_of_fits (hmem : r ∈ opcodeTable) (hfit : r.fits v t = true) (hprio : r.priority = 1 ∨ t &&& 0x1E0000 ≠ 0) :
    selectRow v t = some r := by
  cases hs : selectRow v t with
  | none => exact absurd hfit (selectRow_eq_none_iff.1 hs r hmem)
  | some s =>
    obtain ⟨smem, sfit, slow⟩ := selectRow_eq_some hs
    obtain hlt | heq := (slow r hmem hfit).lt_or_eq
    · obtain ⟨hmask, hzero⟩ := opcodeTable_overlap s smem r hmem (Row.overlap_of_fits sfit hfit) hlt
      obtain hprio | hwindow := hprio
      · have := opcodeTable_priority s smem
        omega
      · exact absurd ((Row.land_of_fits sfit hmask).trans hzero) hwindow
    · rw [opcodeTable_disjoint s smem r hmem (Row.overlap_of_fits sfit hfit) heq]

/-! ### Masks as fields of a word -/

/-- The mask of the bits `hi` to `lo` leaves that field, in its place. -/
theorem land_field (h : lo ≤ hi) (t : Nat) : t &&& (2 ^ (hi + 1) - 2 ^ lo) = bits hi lo t * 2 ^ lo := by
  have hmask : 2 ^ (hi + 1) - 2 ^ lo = (2 ^ (hi + 1 - lo) - 1) * 2 ^ lo := by
    rw [Nat.sub_mul, ← pow_add, Nat.sub_add_cancel (by omega), one_mul]
  apply Nat.eq_of_testBit_eq
  intro j
  rw [hmask, Nat.testBit_and, Nat.testBit_mul_two_pow, Nat.testBit_mul_two_pow, Nat.testBit_two_pow_sub_one, bits,
    Nat.testBit_mod_two_pow, Nat.testBit_div_two_pow]
  by_cases hj : lo ≤ j
  · simp [hj, Bool.and_comm]
  · simp [hj]

/-- The mask of the bits from `k` up leaves the base of the `2 ^ k` words around `t`. -/
theorem land_window (ht : t < 2 ^ 26) (hk : k ≤ 25) (hlo : q * 2 ^ k ≤ t) (hhi : t < (q + 1) * 2 ^ k) :
    t &&& (2 ^ 26 - 2 ^ k) = q * 2 ^ k := by
  have hq : t / 2 ^ k = q := Nat.div_eq_of_lt_le hlo hhi
  have hq' : q < 2 ^ (25 + 1 - k) := by
    rw [← hq, Nat.div_lt_iff_lt_mul (by positivity), ← pow_add, Nat.sub_add_cancel (by omega)]
    exact ht
  rw [land_field hk, bits, hq, Nat.mod_eq_of_lt hq']

/-! ### The row of each operation -/

/-- A read row whose window is the `q`-th of size `2 ^ k`. -/
theorem Row.fits_readWord (k q : Nat) (hv : r.variant = some v) (hmask : r.mask = 2 ^ 26 - 2 ^ (k + 8) ||| 0xFF)
    (hpat : r.pattern = q * 2 ^ (k + 8)) (hk : k ≤ 17) (hlo : q * 2 ^ k ≤ a.toNat) (hhi : a.toNat ≤ (q + 1) * 2 ^ k - 1) :
    r.fits v (readWord a) = true := by
  have top := a.isLt
  have hdata : readWord a &&& 0xFF = 0 := by
    refine (land_field (hi := 7) (lo := 0) (by omega) _).trans ?_
    rw [readWord_eq]
    unfold bits
    omega
  have hwin : readWord a &&& (2 ^ 26 - 2 ^ (k + 8)) = q * 2 ^ (k + 8) := by
    have hpos : 0 < (q + 1) * 2 ^ k := by positivity
    apply land_window (by rw [readWord_eq]; omega) (by omega) <;> rw [readWord_eq, pow_add, ← mul_assoc] <;> omega
  exact fits_iff.2 ⟨.inr hv, by rw [hmask, hpat, Nat.and_or_distrib_left, hwin, hdata, Nat.or_zero]⟩

/-- The mask of the bits `W` and the window of a write word, in the `q`-th window of size `2 ^ k`. -/
theorem land_writeWord (k q : Nat) (hk : k ≤ 16) (hlo : q * 2 ^ k ≤ a.toNat) (hhi : a.toNat ≤ (q + 1) * 2 ^ k - 1) :
    writeWord a d &&& (2 ^ 26 - 2 ^ (k + 8)) = 0x1000000 + q * 2 ^ (k + 8) := by
  have top := a.isLt
  have byte := d.isLt
  have hpos : 0 < (q + 1) * 2 ^ k := by positivity
  obtain ⟨w, hw⟩ : 2 ^ k ∣ 0x10000 := pow_dvd_pow 2 hk
  have hbase (x : Nat) : (w + x) * 2 ^ (k + 8) = (0x10000 + x * 2 ^ k) * 256 := by
    rw [hw]
    ring
  have hwin : writeWord a d &&& (2 ^ 26 - 2 ^ (k + 8)) = (w + q) * 2 ^ (k + 8) := by
    apply land_window (by rw [writeWord_eq]; omega) (by omega)
    · rw [hbase, writeWord_eq]
      omega
    · rw [add_assoc, hbase, writeWord_eq]
      omega
  rw [hwin, hbase, pow_add, ← mul_assoc]
  omega

/-- A write row whose window is the `q`-th of size `2 ^ k`. -/
theorem Row.fits_writeWord (k q : Nat) (hv : r.variant = some v) (hmask : r.mask = 2 ^ 26 - 2 ^ (k + 8))
    (hpat : r.pattern = 0x1000000 + q * 2 ^ (k + 8)) (hk : k ≤ 16) (hlo : q * 2 ^ k ≤ a.toNat)
    (hhi : a.toNat ≤ (q + 1) * 2 ^ k - 1) : r.fits v (writeWord a d) = true :=
  fits_iff.2 ⟨.inr hv, by rw [hmask, hpat, land_writeWord k q hk hlo hhi]⟩

/-- As `Row.fits_writeWord`, for a row that looks at `a[8]` too. -/
theorem Row.fits_writeWord_bit8 (k q : Nat) (hv : r.variant = some v) (hmask : r.mask = 2 ^ 26 - 2 ^ (k + 8) ||| 0x10000)
    (hpat : r.pattern = 0x1000000 + q * 2 ^ (k + 8) ||| b.toNat * 2 ^ 16) (hk : k ≤ 16) (hlo : q * 2 ^ k ≤ a.toNat)
    (hhi : a.toNat ≤ (q + 1) * 2 ^ k - 1) (h8 : a.getLsbD 8 = b) : r.fits v (writeWord a d) = true := by
  have hbit : writeWord a d &&& 0x10000 = b.toNat * 2 ^ 16 := by
    have byte := d.isLt
    refine (land_field (hi := 16) (lo := 16) (by omega) _).trans ?_
    rw [← h8, ← bit_eight_eq, writeWord_eq]
    unfold bits
    omega
  exact fits_iff.2 ⟨.inr hv, by rw [hmask, hpat, Nat.and_or_distrib_left, land_writeWord k q hk hlo hhi, hbit]⟩

theorem Row.fits_hostWord (op : Nat) (hv : r.variant = none) (hop : hostWord op &&& r.mask = r.pattern) :
    r.fits v (hostWord op) = true :=
  fits_iff.2 ⟨.inl hv, hop⟩

/-- Beyond the MBC2 RAM window `a[12:9]` is not 0. -/
theorem readWord_nonAddressable (hlo : 0xA200 ≤ a.toNat) (hhi : a.toNat ≤ 0xBFFF) : readWord a &&& 0x1E0000 ≠ 0 := by
  refine ne_of_eq_of_ne (land_field (hi := 20) (lo := 17) (by omega) _) ?_
  rw [readWord_eq]
  unfold bits
  omega

theorem writeWord_nonAddressable (hlo : 0xA200 ≤ a.toNat) (hhi : a.toNat ≤ 0xBFFF) : writeWord a d &&& 0x1E0000 ≠ 0 := by
  have byte := d.isLt
  refine ne_of_eq_of_ne (land_field (hi := 20) (lo := 17) (by omega) _) ?_
  rw [writeWord_eq]
  unfold bits
  omega

/-- The word of a well-formed operation fits the row of its mnemonic, whose number in the table is `n`; the row has priority 1 or
the word lies outside the MBC2 RAM window. -/
theorem exists_row_of_wf (h : i.wf v = true) :
    ∃ (n : Nat) (r : Row), opcodeTable[n]? = some r ∧ r.mnemonic = i.mnemonic ∧ r.fits v (encode i) = true ∧
      (r.priority = 1 ∨ encode i &&& 0x1E0000 ≠ 0) := by
  cases i with
  | mbc1RdRom0 a =>
    obtain ⟨rfl, hlo, hhi⟩ := row_iff.1 h
    exact ⟨0, _, rfl, rfl, Row.fits_readWord 14 0 rfl rfl rfl (by decide) hlo hhi, .inl rfl⟩
  | mbc1RdRomx a =>
    obtain ⟨rfl, hlo, hhi⟩ := row_iff.1 h
    exact ⟨1, _, rfl, rfl, Row.fits_readWord 14 1 rfl rfl rfl (by decide) hlo hhi, .inl rfl⟩
  | mbc1RdExt8000 a =>
    obtain ⟨rfl, hlo, hhi⟩ := row_iff.1 h
    exact ⟨2, _, rfl, rfl, Row.fits_readWord 13 4 rfl rfl rfl (by decide) hlo hhi, .inl rfl⟩
  | mbc1RdRam a =>
    obtain ⟨rfl, hlo, hhi⟩ := row_iff.1 h
    exact ⟨3, _, rfl, rfl, Row.fits_readWord 13 5 rfl rfl rfl (by decide) hlo hhi, .inl rfl⟩
  | mbc1RdExtC000 a =>
    obtain ⟨rfl, hlo, hhi⟩ := row_iff.1 h
    exact ⟨4, _, rfl, rfl, Row.fits_readWord 14 3 rfl rfl rfl (by decide) hlo hhi, .inl rfl⟩
  | mbc1WrRamen a d =>
    obtain ⟨rfl, hlo, hhi, h8⟩ := row_even_iff.1 h
    exact ⟨5, _, rfl, rfl, Row.fits_writeWord_bit8 13 0 rfl rfl rfl (by decide) hlo hhi h8, .inl rfl⟩
  | mbc1WrRamenAlias a d =>
    obtain ⟨rfl, hlo, hhi, h8⟩ := row_odd_iff.1 h
    exact ⟨6, _, rfl, rfl, Row.fits_writeWord_bit8 13 0 rfl rfl rfl (by decide) hlo hhi h8, .inl rfl⟩
  | mbc1WrRomlo a d =>
    obtain ⟨rfl, hlo, hhi⟩ := row_iff.1 h
    exact ⟨7, _, rfl, rfl, Row.fits_writeWord 13 1 rfl rfl rfl (by decide) hlo hhi, .inl rfl⟩
  | mbc1WrBankhi a d =>
    obtain ⟨rfl, hlo, hhi⟩ := row_iff.1 h
    exact ⟨8, _, rfl, rfl, Row.fits_writeWord 13 2 rfl rfl rfl (by decide) hlo hhi, .inl rfl⟩
  | mbc1WrMode a d =>
    obtain ⟨rfl, hlo, hhi⟩ := row_iff.1 h
    exact ⟨9, _, rfl, rfl, Row.fits_writeWord 13 3 rfl rfl rfl (by decide) hlo hhi, .inl rfl⟩
  | mbc1WrExt8000 a d =>
    obtain ⟨rfl, hlo, hhi⟩ := row_iff.1 h
    exact ⟨10, _, rfl, rfl, Row.fits_writeWord 13 4 rfl rfl rfl (by decide) hlo hhi, .inl rfl⟩
  | mbc1WrRam a d =>
    obtain ⟨rfl, hlo, hhi⟩ := row_iff.1 h
    exact ⟨11, _, rfl, rfl, Row.fits_writeWord 13 5 rfl rfl rfl (by decide) hlo hhi, .inl rfl⟩
  | mbc1WrExtC000 a d =>
    obtain ⟨rfl, hlo, hhi⟩ := row_iff.1 h
    exact ⟨12, _, rfl, rfl, Row.fits_writeWord 14 3 rfl rfl rfl (by decide) hlo hhi, .inl rfl⟩
  | mbc2RdRom0 a =>
    obtain ⟨rfl, hlo, hhi⟩ := row_iff.1 h
    exact ⟨13, _, rfl, rfl, Row.fits_readWord 14 0 rfl rfl rfl (by decide) hlo hhi, .inl rfl⟩
  | mbc2RdRomx a =>
    obtain ⟨rfl, hlo, hhi⟩ := row_iff.1 h
    exact ⟨14, _, rfl, rfl, Row.fits_readWord 14 1 rfl rfl rfl (by decide) hlo hhi, .inl rfl⟩
  | mbc2RdExt8000 a =>
    obtain ⟨rfl, hlo, hhi⟩ := row_iff.1 h
    exact ⟨15, _, rfl, rfl, Row.fits_readWord 13 4 rfl rfl rfl (by decide) hlo hhi, .inl rfl⟩
  | mbc2RdRam a =>
    obtain ⟨rfl, hlo, hhi⟩ := row_iff.1 h
    exact ⟨16, _, rfl, rfl, Row.fits_readWord 9 0x50 rfl rfl rfl (by decide) hlo hhi, .inl rfl⟩
  | mbc2RdRamNa a =>
    obtain ⟨rfl, hlo, hhi⟩ := row_iff.1 h
    exact ⟨17, _, rfl, rfl, Row.fits_readWord 13 5 rfl rfl rfl (by decide) (by omega) hhi, .inr (readWord_nonAddressable hlo hhi)⟩
  | mbc2RdExtC000 a =>
    obtain ⟨rfl, hlo, hhi⟩ := row_iff.1 h
    exact ⟨18, _, rfl, rfl, Row.fits_readWord 14 3 rfl rfl rfl (by decide) hlo hhi, .inl rfl⟩
  | mbc2WrRamen a d =>
    obtain ⟨rfl, hlo, hhi, h8⟩ := row_even_iff.1 h
    exact ⟨19, _, rfl, rfl, Row.fits_writeWord_bit8 13 0 rfl rfl rfl (by decide) hlo hhi h8, .inl rfl⟩
  | mbc2WrRamenAlias a d =>
    obtain ⟨rfl, hlo, hhi, h8⟩ := row_odd_iff.1 h
    exact ⟨20, _, rfl, rfl, Row.fits_writeWord_bit8 13 0 rfl rfl rfl (by decide) hlo hhi h8, .inl rfl⟩
  | mbc2WrRomsel a d =>
    obtain ⟨rfl, hlo, hhi, h8⟩ := row_odd_iff.1 h
    exact ⟨21, _, rfl, rfl, Row.fits_writeWord_bit8 13 1 rfl rfl rfl (by decide) hlo hhi h8, .inl rfl⟩
  | mbc2WrRomselAlias a d =>
    obtain ⟨rfl, hlo, hhi, h8⟩ := row_even_iff.1 h
    exact ⟨22, _, rfl, rfl, Row.fits_writeWord_bit8 13 1 rfl rfl rfl (by decide) hlo hhi h8, .inl rfl⟩
  | mbc2WrRomRej a d =>
    obtain ⟨rfl, hlo, hhi⟩ := row_iff.1 h
    exact ⟨23, _, rfl, rfl, Row.fits_writeWord 14 1 rfl rfl rfl (by decide) hlo hhi, .inl rfl⟩
  | mbc2WrExt8000 a d =>
    obtain ⟨rfl, hlo, hhi⟩ := row_iff.1 h
    exact ⟨24, _, rfl, rfl, Row.fits_writeWord 13 4 rfl rfl rfl (by decide) hlo hhi, .inl rfl⟩
  | mbc2WrRam a d =>
    obtain ⟨rfl, hlo, hhi⟩ := row_iff.1 h
    exact ⟨25, _, rfl, rfl, Row.fits_writeWord 9 0x50 rfl rfl rfl (by decide) hlo hhi, .inl rfl⟩
  | mbc2WrRamNa a d =>
    obtain ⟨rfl, hlo, hhi⟩ := row_iff.1 h
    exact ⟨26, _, rfl, rfl, Row.fits_writeWord 13 5 rfl rfl rfl (by decide) (by omega) hhi,
      .inr (writeWord_nonAddressable hlo hhi)⟩
  | mbc2WrExtC000 a d =>
    obtain ⟨rfl, hlo, hhi⟩ := row_iff.1 h
    exact ⟨27, _, rfl, rfl, Row.fits_writeWord 14 3 rfl rfl rfl (by decide) hlo hhi, .inl rfl⟩
  | reset => exact ⟨28, _, rfl, rfl, Row.fits_hostWord 0x01 rfl rfl, .inl rfl⟩
  | saveBattery => exact ⟨29, _, rfl, rfl, Row.fits_hostWord 0x02 rfl rfl, .inl rfl⟩
  | loadBattery => exact ⟨30, _, rfl, rfl, Row.fits_hostWord 0x03 rfl rfl, .inl rfl⟩
  | saveState => exact ⟨31, _, rfl, rfl, Row.fits_hostWord 0x04 rfl rfl, .inl rfl⟩
  | loadState => exact ⟨32, _, rfl, rfl, Row.fits_hostWord 0x05 rfl rfl, .inl rfl⟩
  | setCallback => exact ⟨33, _, rfl, rfl, Row.fits_hostWord 0x06 rfl rfl, .inl rfl⟩
  | viewBank0 => exact ⟨34, _, rfl, rfl, Row.fits_hostWord 0x07 rfl rfl, .inl rfl⟩
  | viewRomx => exact ⟨35, _, rfl, rfl, Row.fits_hostWord 0x08 rfl rfl, .inl rfl⟩
  | viewRamx => exact ⟨36, _, rfl, rfl, Row.fits_hostWord 0x09 rfl rfl, .inl rfl⟩
  | viewRamAll => exact ⟨37, _, rfl, rfl, Row.fits_hostWord 0x0A rfl rfl, .inl rfl⟩

/-! ### No row for an ill-formed word -/

/-- R134: the three formats of a row: a read with `D = 0`, a write, or one of the ten host words. -/
theorem opcodeTable_formats :
    ∀ r ∈ opcodeTable,
      (r.mask &&& 0x3000000 = 0x3000000 ∧ r.pattern &&& 0x3000000 = 0 ∧ r.mask &&& 0xFF = 0xFF ∧ r.pattern &&& 0xFF = 0) ∨
      (r.mask &&& 0x3000000 = 0x3000000 ∧ r.pattern &&& 0x3000000 = 0x1000000) ∨
      (r.mask = 0x3FFFFFF ∧ 0x2000001 ≤ r.pattern ∧ r.pattern ≤ 0x200000A) := by decide

theorem not_illFormedWord_of_fits (ht : t < 0x4000000) (hmem : r ∈ opcodeTable) (hfit : r.fits v t = true) : ¬ IllFormedWord t := by
  have format : t &&& 0x3000000 = bits 25 24 t * 2 ^ 24 := land_field (hi := 25) (lo := 24) (by omega) t
  have data : t &&& 0xFF = bits 7 0 t * 2 ^ 0 := land_field (hi := 7) (lo := 0) (by omega) t
  have word : t &&& 0x3FFFFFF = bits 25 0 t * 2 ^ 0 := land_field (hi := 25) (lo := 0) (by omega) t
  unfold IllFormedWord
  obtain ⟨hm, hp, hm', hp'⟩ | ⟨hm, hp⟩ | ⟨hm, hlo, hhi⟩ := opcodeTable_formats r hmem
  · rw [Row.land_of_fits hfit hm, hp] at format
    rw [Row.land_of_fits hfit hm', hp'] at data
    unfold bits at *
    omega
  · rw [Row.land_of_fits hfit hm, hp] at format
    unfold bits at *
    omega
  · rw [← hm, (Row.fits_iff.1 hfit).2] at word
    unfold bits at *
    omega

/-- Settles O3: a decoded word is its operation's word (O2), and the row of the operation is selected; a refused word is ill-formed,
and no row fits it. -/
theorem decoderFollowsOpcodeTable : Obligations.DecoderFollowsOpcodeTable := by
  unfold Obligations.DecoderFollowsOpcodeTable
  intro v t o ht
  cases hd : decode v t o with
  | ok i =>
    obtain ⟨hwf, rfl⟩ := encodeDecodeRoundTrip v t o i hd
    obtain ⟨n, r, hget, hmnemonic, hfit, hprio⟩ := exists_row_of_wf hwf
    simp only [selectRow_of_fits (List.mem_of_getElem? hget) hfit hprio, Option.map_some, hmnemonic]
  | error e =>
    have hill := (decode_error_iff v t o).1 ⟨e, hd⟩
    exact selectRow_eq_none_iff.2 fun r hmem hfit => not_illFormedWord_of_fits ht hmem hfit hill

end Sys2Proof
end

section
/-! PROOFS. What an operation produces (R13): the events (R166) and the diagnostics (R168) of each, and that no operation reads what
an earlier one produced. -/

namespace Sys2Proof.Machine

variable {s t : State} {i : Instr}

/-- Settles O18: `exec_answer`, which reads an operation's meaning on a state with another output. -/
theorem outputsAreNeverRead : Obligations.OutputsAreNeverRead := by
  unfold Obligations.OutputsAreNeverRead
  exact exec_answer

/-- The events an operation emits on `s` when it completes (R166). -/
def Instr.events (s : State) : Instr → List Event
  | .mbc1WrRamen _ v | .mbc2WrRamen _ v =>
    ramChangedEvents s.mapper.ramEnabled (ramEnableTest v) s.mapper.ramChangedCallback
  | _ => []

/-- The diagnostics an operation records on `s` when it completes (R168). -/
def Instr.diagnostics (s : State) : Instr → List Diagnostic
  | .mbc1RdRam a => if s.mapper.ramEnabled = false then [.disabledRamRead] else smallRamDiagnostic s.cfg s.mapper a
  | .mbc1WrRam a _ => if s.mapper.ramEnabled = false then [.disabledRamWrite] else smallRamDiagnostic s.cfg s.mapper a
  | .mbc1WrMode _ v => if modeAccepted s.cfg (modeBit v) = true then [] else [.modeOneRejected]
  | .mbc2RdRam _ => if s.mapper.ramEnabled = false then [.disabledRamRead] else []
  | .mbc2WrRam _ _ => if s.mapper.ramEnabled = false then [.disabledRamWrite] else []
  | .mbc2RdRamNa _ => [.nonAddressableRead]
  | .mbc2WrRamNa _ _ => [.nonAddressableWrite]
  | .mbc2WrRomRej _ _ => [.romRegionWriteRejected]
  | _ => []

/-- A battery load that completes emits and records nothing (R171). -/
theorem loadBattery_quiet {src : Stream} {n : Nat} (h : loadBattery src n s = .next t) :
    t.out.events = [] ∧ t.out.diagnostics = [] := by
  unfold loadBattery at h
  split at h
  · rw [(loadPayload_next h).2]
    exact ⟨rfl, rfl⟩
  · split at h
    · cases h
      exact ⟨rfl, rfl⟩
    · rw [(loadPayload_next h).2]
      exact ⟨rfl, rfl⟩

/-- What a completed operation produced beside its result. -/
theorem exec_produces (h : exec i s = .next t) :
    t.out.events = Instr.events s i ∧ t.out.diagnostics = Instr.diagnostics s i := by
  cases i with
  | mbc1RdRom0 a => obtain ⟨-, -, rfl⟩ := exec_mbc1RdRom0_next.1 h; exact ⟨rfl, rfl⟩
  | mbc1RdRomx a => obtain ⟨-, -, -, rfl⟩ := exec_mbc1RdRomx_next.1 h; exact ⟨rfl, rfl⟩
  | mbc1RdExt8000 a => obtain ⟨-, -, rfl⟩ := exec_mbc1RdExt8000_next.1 h; exact ⟨rfl, rfl⟩
  | mbc1RdRam a =>
    obtain ⟨-, -, ⟨hen, rfl⟩ | ⟨hen, -, rfl⟩⟩ := exec_mbc1RdRam_next.1 h <;>
      simp [Instr.events, Instr.diagnostics, hen]
  | mbc1RdExtC000 a => obtain ⟨-, -, rfl⟩ := exec_mbc1RdExtC000_next.1 h; exact ⟨rfl, rfl⟩
  | mbc1WrRamen a v => obtain ⟨-, -, rfl⟩ := exec_mbc1WrRamen_next.1 h; exact ⟨rfl, rfl⟩
  | mbc1WrRamenAlias a v => obtain ⟨-, -, rfl⟩ := exec_mbc1WrRamenAlias_next.1 h; exact ⟨rfl, rfl⟩
  | mbc1WrRomlo a v => obtain ⟨-, -, rfl⟩ := exec_mbc1WrRomlo_next.1 h; exact ⟨rfl, rfl⟩
  | mbc1WrBankhi a v => obtain ⟨-, -, rfl⟩ := exec_mbc1WrBankhi_next.1 h; exact ⟨rfl, rfl⟩
  | mbc1WrMode a v =>
    obtain ⟨-, -, rfl⟩ := exec_mbc1WrMode_next.1 h
    split
    next hacc => exact ⟨rfl, (if_pos hacc).symm⟩
    next hacc => exact ⟨rfl, (if_neg hacc).symm⟩
  | mbc1WrExt8000 a v => obtain ⟨-, -, rfl⟩ := exec_mbc1WrExt8000_next.1 h; exact ⟨rfl, rfl⟩
  | mbc1WrRam a v =>
    obtain ⟨-, -, ⟨hen, rfl⟩ | ⟨hen, -, rfl⟩⟩ := exec_mbc1WrRam_next.1 h <;>
      simp [Instr.events, Instr.diagnostics, hen]
  | mbc1WrExtC000 a v => obtain ⟨-, -, rfl⟩ := exec_mbc1WrExtC000_next.1 h; exact ⟨rfl, rfl⟩
  | mbc2RdRom0 a => obtain ⟨-, -, rfl⟩ := exec_mbc2RdRom0_next.1 h; exact ⟨rfl, rfl⟩
  | mbc2RdRomx a => obtain ⟨-, -, -, rfl⟩ := exec_mbc2RdRomx_next.1 h; exact ⟨rfl, rfl⟩
  | mbc2RdExt8000 a => obtain ⟨-, -, rfl⟩ := exec_mbc2RdExt8000_next.1 h; exact ⟨rfl, rfl⟩
  | mbc2RdRam a =>
    obtain ⟨-, -, ⟨hen, rfl⟩ | ⟨hen, -, rfl⟩⟩ := exec_mbc2RdRam_next.1 h <;>
      simp [Instr.events, Instr.diagnostics, hen]
  | mbc2RdRamNa a => obtain ⟨-, -, rfl⟩ := exec_mbc2RdRamNa_next.1 h; exact ⟨rfl, rfl⟩
  | mbc2RdExtC000 a => obtain ⟨-, -, rfl⟩ := exec_mbc2RdExtC000_next.1 h; exact ⟨rfl, rfl⟩
  | mbc2WrRamen a v => obtain ⟨-, -, rfl⟩ := exec_mbc2WrRamen_next.1 h; exact ⟨rfl, rfl⟩
  | mbc2WrRamenAlias a v => obtain ⟨-, -, rfl⟩ := exec_mbc2WrRamenAlias_next.1 h; exact ⟨rfl, rfl⟩
  | mbc2WrRomsel a v => obtain ⟨-, -, rfl⟩ := exec_mbc2WrRomsel_next.1 h; exact ⟨rfl, rfl⟩
  | mbc2WrRomselAlias a v => obtain ⟨-, -, rfl⟩ := exec_mbc2WrRomselAlias_next.1 h; exact ⟨rfl, rfl⟩
  | mbc2WrRomRej a v => obtain ⟨-, -, rfl⟩ := exec_mbc2WrRomRej_next.1 h; exact ⟨rfl, rfl⟩
  | mbc2WrExt8000 a v => obtain ⟨-, -, rfl⟩ := exec_mbc2WrExt8000_next.1 h; exact ⟨rfl, rfl⟩
  | mbc2WrRam a v =>
    obtain ⟨-, -, ⟨hen, rfl⟩ | ⟨hen, -, rfl⟩⟩ := exec_mbc2WrRam_next.1 h <;>
      simp [Instr.events, Instr.diagnostics, hen]
  | mbc2WrRamNa a v => obtain ⟨-, -, rfl⟩ := exec_mbc2WrRamNa_next.1 h; exact ⟨rfl, rfl⟩
  | mbc2WrExtC000 a v => obtain ⟨-, -, rfl⟩ := exec_mbc2WrExtC000_next.1 h; exact ⟨rfl, rfl⟩
  | reset b => obtain ⟨-, -, rfl⟩ := exec_reset_next.1 h; exact ⟨rfl, rfl⟩
  | saveBattery st => obtain ⟨-, rfl⟩ := exec_saveBattery_next.1 h; exact ⟨rfl, rfl⟩
  | loadBattery st n => exact loadBattery_quiet (exec_loadBattery_next.1 h).2
  | saveState st => obtain ⟨-, l, -, rfl⟩ := exec_saveState_next.1 h; exact ⟨rfl, rfl⟩
  | loadState st => obtain ⟨-, l, m, -, -, -, -, rfl⟩ := exec_loadState_next.1 h; exact ⟨rfl, rfl⟩
  | setCallback ob => obtain ⟨-, hd, -, rfl⟩ := exec_setCallback_next.1 h; exact ⟨rfl, rfl⟩
  | viewBank0 => obtain ⟨-, rfl⟩ := exec_viewBank0_next.1 h; exact ⟨rfl, rfl⟩
  | viewRomx => obtain ⟨-, rfl⟩ := exec_viewRomx_next.1 h; exact ⟨rfl, rfl⟩
  | viewRamx => obtain ⟨-, ⟨-, -, rfl⟩ | ⟨-, -, rfl⟩ | ⟨-, rfl⟩⟩ := exec_viewRamx_next.1 h <;> exact ⟨rfl, rfl⟩
  | viewRamAll => obtain ⟨-, rfl⟩ := exec_viewRamAll_next.1 h; exact ⟨rfl, rfl⟩

/-! ### Events (R166) -/

theorem ramChangedEvents_eq (old new : Bool) (ob : Option Handle) :
    ramChangedEvents old new ob = if old = true ∧ new = false then ob.toList.map Event.ramChanged else [] := by
  cases ob <;> simp [ramChangedEvents]

theorem ramChangedEvents_eq_singleton_iff {old new : Bool} {ob : Option Handle} {h : Handle} :
    ramChangedEvents old new ob = [.ramChanged h] ↔ old = true ∧ new = false ∧ ob = some h := by
  rw [ramChangedEvents_eq]
  split
  next hedge => cases ob <;> simp [hedge]
  next hedge => simp [← and_assoc, hedge]

theorem ramChangedEvents_nil_or_singleton (old new : Bool) (ob : Option Handle) :
    ramChangedEvents old new ob = [] ∨ ∃ h, ramChangedEvents old new ob = [.ramChanged h] := by
  rw [ramChangedEvents_eq]
  split
  · cases ob with
    | none => exact .inl rfl
    | some h => exact .inr ⟨h, rfl⟩
  · exact .inl rfl

/-- Settles O24: the RAM-enable writes of the two variants emit what R166 says of the flag before and after; nothing else emits. -/
theorem ramChangedOnlyOnFallingEdge : Obligations.RamChangedOnlyOnFallingEdge := by
  unfold Obligations.RamChangedOnlyOnFallingEdge
  intro i s t he h
  have hev := (exec_produces he).1
  cases i with
  | mbc1WrRamen a v =>
    obtain ⟨-, -, rfl⟩ := exec_mbc1WrRamen_next.1 he
    exact ⟨by simp [State.afterControl, ramChangedEvents_eq_singleton_iff, Instr.mnemonic],
      ramChangedEvents_nil_or_singleton _ _ _⟩
  | mbc2WrRamen a v =>
    obtain ⟨-, -, rfl⟩ := exec_mbc2WrRamen_next.1 he
    exact ⟨by simp [State.afterControl, ramChangedEvents_eq_singleton_iff, Instr.mnemonic],
      ramChangedEvents_nil_or_singleton _ _ _⟩
  | _ => simp [hev, Instr.events, Instr.mnemonic]

/-- Settles O23: both RAM-enable rows decode in their window and leave the flag that the test of R165 gives. -/
theorem ramEnableWrites : Obligations.RamEnableWrites := by
  unfold Obligations.RamEnableWrites
  intro a v o s hr hhi h8
  have hev : ramChangedEvents s.mapper.ramEnabled (ramEnableTest v) s.mapper.ramChangedCallback =
      if s.mapper.ramEnabled = true ∧ v.toNat % 16 ≠ 0xA then s.notified else [] := by
    simp [ramChangedEvents_eq, ramEnableTest_eq, State.notified]
  rw [← hev, ← ramEnableTest_eq]
  refine ⟨fun hv => ⟨?_, [], ?_⟩, fun hv => ⟨?_, [], ?_⟩⟩
  · exact decode_of_decodeWrite o (decodeWrite_mbc1WrRamen hhi h8)
  · exact exec_mbc1WrRamen_next.2 ⟨hr, by simpa [Instr.wf, hv, hhi] using h8, rfl⟩
  · exact decode_of_decodeWrite o (decodeWrite_mbc2WrRamen hhi h8)
  · exact exec_mbc2WrRamen_next.2 ⟨hr, by simpa [Instr.wf, hv, hhi] using h8, rfl⟩

/-! ### Diagnostics (R168) -/

theorem smallRamDiagnostic_cases (c : Cfg) (m : Mapper) (a : Addr) :
    (m.bankingMode = 0 ∧ c.ramSizeClass = 1 ∧ 0xA800 ≤ a.toNat) ∧ smallRamDiagnostic c m a = [.smallRamOutOfRange] ∨
      ¬(m.bankingMode = 0 ∧ c.ramSizeClass = 1 ∧ 0xA800 ≤ a.toNat) ∧ smallRamDiagnostic c m a = [] := by
  unfold smallRamDiagnostic
  split
  next hs => exact .inl ⟨hs, rfl⟩
  next hs => exact .inr ⟨hs, rfl⟩

/-- Settles O19: five rows record by the state they find, three always, and the others nothing. -/
theorem diagnosticKinds : Obligations.DiagnosticKinds := by
  unfold Obligations.DiagnosticKinds
  intro i s t h
  rw [(exec_produces h).2]
  cases i with
  | mbc1RdRam a =>
    cases hen : s.mapper.ramEnabled with
    | false => simp [Instr.diagnostics, Instr.mnemonic, hen]
    | true =>
      obtain ⟨hs, hd⟩ | ⟨hs, hd⟩ := smallRamDiagnostic_cases s.cfg s.mapper a <;>
        simp [Instr.diagnostics, Instr.mnemonic, hen, hd, hs]
  | mbc1WrRam a v =>
    cases hen : s.mapper.ramEnabled with
    | false => simp [Instr.diagnostics, Instr.mnemonic, hen]
    | true =>
      obtain ⟨hs, hd⟩ | ⟨hs, hd⟩ := smallRamDiagnostic_cases s.cfg s.mapper a <;>
        simp [Instr.diagnostics, Instr.mnemonic, hen, hd, hs]
  | mbc2RdRam a => cases hen : s.mapper.ramEnabled <;> simp [Instr.diagnostics, Instr.mnemonic, hen]
  | mbc2WrRam a v => cases hen : s.mapper.ramEnabled <;> simp [Instr.diagnostics, Instr.mnemonic, hen]
  | mbc1WrMode a v =>
    have hacc : modeAccepted s.cfg (modeBit v) = true ↔ ¬(v.toNat % 2 = 1 ∧ s.cfg.ramSizeClass ≠ 3) := by
      rw [modeAccepted_iff, modeBit_eq, not_and, not_not]
    by_cases hm : v.toNat % 2 = 1 ∧ s.cfg.ramSizeClass ≠ 3 <;> simp [Instr.diagnostics, Instr.mnemonic, hacc, hm]
  | _ => simp [Instr.diagnostics, Instr.mnemonic]

end Sys2Proof.Machine
end

section
/-! PROOFS. The bus as a contract: every read and write completes (R160, R161), and the windows that are delegated to the AddressSpace
(R162–R164). -/

namespace Sys2Proof.Machine

variable {s : State} {i : Instr} {v : Variant} {a : Addr} {d : Byte}

/-- Settles O12: each target of a read (O10) answers a byte, but for a ROM offset at or beyond the image's end. -/
theorem busReadIsTotal : Obligations.BusReadIsTotal := by
  unfold Obligations.BusReadIsTotal
  intro a o s hr hi
  obtain ⟨i, hdec, htarget⟩ := busReadFollowsTranslator a o s hr hi
  refine ⟨i, hdec, ?_⟩
  split at htarget
  · obtain ⟨ds, he⟩ := htarget
    exact .inl ⟨_, _, he, rfl⟩
  · split at htarget
    · obtain ⟨ds, he⟩ := htarget
      exact .inl ⟨_, _, he, rfl⟩
    next hx => exact .inr ⟨_, not_lt.1 hx, htarget⟩
  · obtain ⟨-, ds, he⟩ := htarget
    exact .inl ⟨_, _, he, rfl⟩
  · obtain ⟨ds, he⟩ := htarget
    exact .inl ⟨_, _, he, rfl⟩
  · exact htarget.elim
  · exact htarget.elim

/-- Settles O13: each target of a write (O11) answers a next state. -/
theorem busWriteAlwaysCompletes : Obligations.BusWriteAlwaysCompletes := by
  unfold Obligations.BusWriteAlwaysCompletes
  intro a v o s hr hi
  obtain ⟨i, hdec, htarget⟩ := busWriteFollowsTranslator a v o s hr hi
  split at htarget
  · obtain ⟨ds, he⟩ := htarget
    exact ⟨i, _, hdec, he⟩
  · obtain ⟨-, ds, he⟩ := htarget
    exact ⟨i, _, hdec, he⟩
  · obtain ⟨ds, he⟩ := htarget
    exact ⟨i, _, hdec, he⟩
  · obtain ⟨m, es, ds, he, -⟩ := htarget
    exact ⟨i, _, hdec, he⟩
  · exact htarget.elim
  · exact htarget.elim

/-! ### Delegation (R162–R164) -/

/-- A read row that delegates: its word decodes to it, and it answers the AddressSpace's byte. -/
theorem delegatedRead_row (o : HostOperands) (hv : s.cfg.variant = v) (hrow : decodeRead v a = i)
    (he : exec (decodeRead s.cfg.variant a) s = delegatedRead a s) :
    decode v (readWord a) o = .ok i ∧ ∃ ds, exec i s = .next (s.afterRead (s.retrieve a.toNat) ds) := by
  subst hv hrow
  exact ⟨decode_readWord _ a o, [], he⟩

/-- A write row that delegates: its word decodes to it, and it stores the byte in the AddressSpace. -/
theorem delegatedWrite_row (o : HostOperands) (hv : s.cfg.variant = v) (hrow : decodeWrite v a d = i)
    (he : exec (decodeWrite s.cfg.variant a d) s = delegatedWrite a d s) :
    decode v (writeWord a d) o = .ok i ∧ ∃ ds, exec i s = .next
      { s with addressSpace := Memory.write .addressSpace s.addressSpace a.toNat d, out := { diagnostics := ds } } := by
  subst hv hrow
  exact ⟨decode_writeWord _ a d o, [], he⟩

/-- Settles O20: the fixed window's row of either variant delegates. -/
theorem fixedWindowReads : Obligations.FixedWindowReads := by
  unfold Obligations.FixedWindowReads
  intro a o s hr hhi
  have he := exec_read_fixed hr hhi
  exact ⟨fun hv => delegatedRead_row o hv (decodeRead_mbc1RdRom0 hhi) he,
    fun hv => delegatedRead_row o hv (decodeRead_mbc2RdRom0 hhi) he⟩

/-- Settles O21: both external windows' rows of either variant delegate. -/
theorem externalReads : Obligations.ExternalReads := by
  unfold Obligations.ExternalReads
  intro a o s hr
  exact ⟨
    fun hv hlo hhi => delegatedRead_row o hv (decodeRead_mbc1RdExt8000 hlo hhi) (exec_read_external hr (.inl ⟨hlo, hhi⟩)),
    fun hv hlo => delegatedRead_row o hv (decodeRead_mbc1RdExtC000 hlo) (exec_read_external hr (.inr hlo)),
    fun hv hlo hhi => delegatedRead_row o hv (decodeRead_mbc2RdExt8000 hlo hhi) (exec_read_external hr (.inl ⟨hlo, hhi⟩)),
    fun hv hlo => delegatedRead_row o hv (decodeRead_mbc2RdExtC000 hlo) (exec_read_external hr (.inr hlo))⟩

/-- Settles O22: both external windows' rows of either variant store in the canonical AddressSpace. -/
theorem externalWrites : Obligations.ExternalWrites := by
  unfold Obligations.ExternalWrites
  intro a v o s hr hw
  exact ⟨Memory.write .addressSpace s.addressSpace a.toNat v, fun _ => Memory.read_write hw,
    fun hv hlo hhi => delegatedWrite_row o hv (decodeWrite_mbc1WrExt8000 hlo hhi) (exec_write_external hr (.inl ⟨hlo, hhi⟩)),
    fun hv hlo => delegatedWrite_row o hv (decodeWrite_mbc1WrExtC000 hlo) (exec_write_external hr (.inr hlo)),
    fun hv hlo hhi => delegatedWrite_row o hv (decodeWrite_mbc2WrExt8000 hlo hhi) (exec_write_external hr (.inl ⟨hlo, hhi⟩)),
    fun hv hlo => delegatedWrite_row o hv (decodeWrite_mbc2WrExtC000 hlo) (exec_write_external hr (.inr hlo))⟩

end Sys2Proof.Machine
end

section
/-! PROOFS. Battery persistence (R169–R171, R181 (a)). -/

namespace Sys2Proof.Machine

variable {s : State} {src : Stream} {k n : Nat}

/-- Settles O44: R10 (b) leaves four bank counts to an MBC1. -/
theorem batteryLength : Obligations.BatteryLength := by
  unfold Obligations.BatteryLength
  intro c hc
  refine ⟨fun hv => ⟨by rw [batteryLen, hv], ?_⟩, fun hv => by rw [batteryLen, hv]⟩
  simp only [Cfg.wf, hv, Bool.and_eq_true, Bool.or_eq_true, beq_iff_eq] at hc
  rw [batteryLen, hv]
  obtain ⟨-, ((h | h) | h) | h, -⟩ := hc <;> simp [h]

/-- Byte `x` of the front of `ramBuffer` that SAVE_BATTERY and SAVE_STATE write. -/
theorem ramBytes_getElem? {m : Mapper} {x : Nat} (hx : x < n) :
    (Memory.bytes .ram m.ramBuffer 0 n)[x]? = some (m.ramRead x) := by
  rw [Memory.bytes_getElem?, if_pos hx, Nat.zero_add]
  rfl

/-- Settles O45: the sink gains the first bytes of the buffer. -/
theorem saveBatteryAppendsTheFootprint : Obligations.SaveBatteryAppendsTheFootprint := by
  unfold Obligations.SaveBatteryAppendsTheFootprint
  intro sink s hr
  exact ⟨_, [], exec_saveBattery_next.2 ⟨hr, rfl⟩, Memory.bytes_length, fun x hx => ramBytes_getElem? hx⟩

theorem exec_loadBattery (hr : s.Ready) : exec (.loadBattery src n) s = loadBattery src n s := guarded_ready hr rfl

theorem loadPayload_short (h : src.length < k + batteryLen s.cfg) : loadPayload k src s = .refused .shortStream := by
  rw [loadPayload, holds_eq, if_neg (by simpa using h)]

/-- R171: the payload behind the `k` discarded bytes replaces the front of `ramBuffer`. -/
theorem loadPayload_enough (h : k + batteryLen s.cfg ≤ src.length) :
    ∃ mem ds, loadPayload k src s = .next { s with
        mapper := { s.mapper with ramBuffer := mem }
        out := { result := .ok, stream := some (src.drop (k + batteryLen s.cfg)), diagnostics := ds } } ∧
      ∀ x, if x < batteryLen s.cfg then src[k + x]? = some (Memory.read .ram mem x)
        else Memory.read .ram mem x = s.mapper.ramRead x := by
  refine ⟨_, [], by rw [loadPayload, holds_eq, if_pos (decide_eq_true h)]; rfl, fun x => ?_⟩
  have hlen : ((src.drop k).take (batteryLen s.cfg)).length = batteryLen s.cfg := by
    rw [List.length_take, List.length_drop]
    omega
  split
  next hx =>
    rw [Memory.read_storeFront, dif_pos (by omega)]
    simp [List.getElem?_eq_getElem (show k + x < src.length by omega)]
  next hx =>
    rw [Memory.read_storeFront, dif_neg (by omega)]
    rfl

/-- Settles O46: the known length selects the payload load with one byte discarded, the mismatch, or the payload load. -/
theorem loadBatteryCases : Obligations.LoadBatteryCases := by
  unfold Obligations.LoadBatteryCases
  intro src n s hr
  rw [exec_loadBattery hr, loadBattery]
  refine ⟨fun h0 hlen => ?_, fun h0 hlen => ?_, fun h0 hne => ⟨[], ?_⟩, fun h0 heq hlen => ?_, fun h0 heq hlen => ?_⟩
  · rw [if_pos h0]
    exact loadPayload_short hlen
  · rw [if_pos h0]
    exact loadPayload_enough hlen
  · rw [if_neg h0, if_pos hne]
    rfl
  · rw [if_neg h0, if_neg (not_not.2 heq)]
    exact loadPayload_short (by rwa [Nat.zero_add])
  · rw [if_neg h0, if_neg (not_not.2 heq)]
    simpa only [Nat.zero_add] using loadPayload_enough (k := 0) (by rwa [Nat.zero_add])

/-- Settles O47: the payload that SAVE_BATTERY wrote (O45) has the exact length that LOAD_BATTERY stores (O46). -/
theorem batteryRoundTrip : Obligations.BatteryRoundTrip := by
  unfold Obligations.BatteryRoundTrip
  intro s s' hr hr' hcfg hne
  obtain ⟨p, ds, hsave, hlen, hsaved⟩ := saveBatteryAppendsTheFootprint [] s hr
  obtain ⟨-, -, -, -, hload⟩ := loadBatteryCases p (batteryLen s.cfg) s' hr'
  rw [hcfg] at hload
  obtain ⟨mem, ds', hload, hstored⟩ := hload hne rfl hlen.ge
  refine ⟨_, p, _, hsave, rfl, hload, rfl, fun x hx => ?_⟩
  have hx' := hstored x
  rw [if_pos hx, hsaved x hx] at hx'
  exact (Option.some.inj hx').symm

end Sys2Proof.Machine
end

section
/-! PROOFS. The state record (R172–R175, R181 (b)): what SAVE_STATE writes, which records LOAD_STATE accepts, and the round trip. -/

namespace Sys2Proof.Machine

variable {s : State} {c : Cfg} {m m' : Mapper} {l : List RecordField} {src sink : Stream} {a : Addr} {i : Instr} {b : Byte}

/-- Settles O48: the digits of `leBytes`, read from the front or from the back, and its inverse. -/
theorem scalarEncodings : Obligations.ScalarEncodings := by
  unfold Obligations.ScalarEncodings
  intro c n x
  refine ⟨encodeInt_length, fun j hj => ?_, rfl, rfl, readInt_encodeInt⟩
  rw [encodeInt, inOrder]
  cases c.stateByteOrder with
  | little => exact leBytes_getElem? hj
  | big =>
    simp only
    rw [List.getElem?_reverse (by rw [leBytes_length]; omega), leBytes_length, show n - 1 - (n - 1 - j) = j by omega]
    exact leBytes_getElem? hj

/-! ### What SAVE_STATE writes -/

theorem recordLayout_mbc1 (hv : c.variant = .mbc1) : recordLayout c = some mbc1Layout := by
  rw [recordLayout, hv]

/-- Settles O49: the record of the MBC1 layout, field by field. -/
theorem saveStateMbc1Record : Obligations.SaveStateMbc1Record := by
  unfold Obligations.SaveStateMbc1Record
  intro sink s hr hv
  refine ⟨Memory.bytes .ram s.mapper.ramBuffer 0 0x8000, [],
    exec_saveState_next.2 ⟨hr, mbc1Layout, recordLayout_mbc1 hv, ?_⟩, Memory.bytes_length, fun x hx => ramBytes_getElem? hx⟩
  simp only [recordBytes, mbc1Layout, List.flatMap_cons, List.flatMap_nil, fieldBytes, ramSize_mbc1 hv, List.append_nil]
  rfl

/-- R173: an MBC2 layout that is an order of the four fields is the record's. -/
theorem recordLayout_of_perm (hv : c.variant = .mbc2) (hl : c.mbc2StateLayout = some l)
    (hp : l.Perm [.ramEnabled, .currentRomBankIndex, .currentRomByteOffset, .ramBuffer]) : recordLayout c = some l := by
  rw [recordLayout, hv, hl]
  exact Option.filter_eq_some_iff.2 ⟨rfl, mbc2LayoutValid_iff.2 hp⟩

/-- R173, D11: without such a layout an MBC2 has no record. -/
theorem recordLayout_eq_none (hv : c.variant = .mbc2)
    (h : ∀ l, c.mbc2StateLayout = some l → ¬ l.Perm [.ramEnabled, .currentRomBankIndex, .currentRomByteOffset, .ramBuffer]) :
    recordLayout c = none := by
  rw [recordLayout, hv]
  exact Option.filter_eq_none_iff.2 fun l hl hvalid => h l hl (mbc2LayoutValid_iff.1 hvalid)

theorem exec_saveState_unmodelled (hr : s.Ready) (h : recordLayout s.cfg = none) :
    exec (.saveState sink) s = .refused .unmodelled := by
  refine (guarded_ready hr rfl).trans ?_
  rw [saveState, h]

theorem exec_loadState_unmodelled (hr : s.Ready) (h : recordLayout s.cfg = none) :
    exec (.loadState src) s = .refused .unmodelled := by
  refine (guarded_ready hr rfl).trans ?_
  rw [loadState, h]

/-- Settles O50: the record of an order of the four fields, field by field; without one both operations are refused. -/
theorem mbc2StateRecord : Obligations.Mbc2StateRecord := by
  unfold Obligations.Mbc2StateRecord
  intro sink src s hr hv
  refine ⟨fun l hl hp => ?_, fun h => ?_⟩
  · refine ⟨Memory.bytes .ram s.mapper.ramBuffer 0 0x200, [],
      exec_saveState_next.2 ⟨hr, l, recordLayout_of_perm hv hl hp, ?_⟩, Memory.bytes_length, fun x hx => ramBytes_getElem? hx⟩
    refine congrArg (fun bs => s.answer { stream := some (sink ++ bs) }) (List.flatMap_congr fun f hf => ?_)
    have hf := hp.mem_iff.1 hf
    simp only [List.mem_cons, List.not_mem_nil, or_false] at hf
    obtain rfl | rfl | rfl | rfl := hf
    · rfl
    · rfl
    · rfl
    · rw [fieldBytes, ramSize_mbc2 hv]
  · have hnone := recordLayout_eq_none hv h
    exact ⟨exec_saveState_unmodelled hr hnone, exec_loadState_unmodelled hr hnone⟩

/-! ### Which records LOAD_STATE accepts -/

/-- A record holds every field but the observer, of those the variant has (R172, R173). -/
theorem foldl_takeField (hl : recordLayout c = some l) (hm : m.mbc1FieldsIdle c) (hm' : m'.mbc1FieldsIdle c) :
    l.foldl m.takeField m' = { m with ramChangedCallback := m'.ramChangedCallback } := by
  cases hv : c.variant with
  | mbc1 =>
    rw [recordLayout_mbc1 hv] at hl
    cases hl
    rfl
  | mbc2 =>
    obtain ⟨e1, e2, e3, e4⟩ := hm hv
    obtain ⟨e1', e2', e3', e4'⟩ := hm' hv
    rw [Mapper.takeField_perm (recordLayout_mbc2 hv hl)]
    simp [Mapper.takeField, e1, e2, e3, e4, e1', e2', e3', e4']

/-- Settles O51: the record's fields are read back one by one, and together they are the whole state but the observer. -/
theorem loadStateRestoresRecord : Obligations.LoadStateRestoresRecord := by
  unfold Obligations.LoadStateRestoresRecord
  intro s m l rest hr hl hint hbool hinv hm hs
  have hread : readRecord s.cfg l (recordBytes s.cfg l m ++ rest) s.mapper =
      some { m with ramChangedCallback := s.mapper.ramChangedCallback } := by
    rw [readRecord_recordBytes (fits_of_inv hint hbool hinv hm), foldl_takeField hl hm hs]
  refine ⟨[], exec_loadState_next.2 ⟨hr, l, _, hl, by simp, hread, ?_, ?_⟩⟩
  · exact inv_congr hinv rfl rfl rfl rfl rfl rfl (inv_ramBuffer hinv)
  · rw [List.drop_left' recordBytes_length]

theorem exec_loadState_short (hr : s.Ready) (hl : recordLayout s.cfg = some l) (hlen : src.length < recordLen s.cfg l) :
    exec (.loadState src) s = .refused .shortStream := by
  refine (guarded_ready hr rfl).trans ?_
  simp [loadState, hl, holds_eq, not_le.2 hlen]

/-- R175: a long enough stream that holds no record of a state that meets W1–W8. -/
theorem exec_loadState_invalid (hr : s.Ready) (hl : recordLayout s.cfg = some l) (hlen : recordLen s.cfg l ≤ src.length)
    (h : ¬ ∃ m, readRecord s.cfg l src s.mapper = some m ∧ m.inv s.cfg = true) :
    exec (.loadState src) s = .refused .invalidStateRecord := by
  refine (guarded_ready hr rfl).trans ?_
  cases hread : readRecord s.cfg l src s.mapper with
  | none => simp [loadState, hl, holds_eq, hlen, hread]
  | some m =>
    have hinv : ¬ m.inv s.cfg = true := fun hinv => h ⟨m, hread, hinv⟩
    simp [loadState, hl, holds_eq, hlen, hread, hinv]

/-- Settles O52: a record that passes the checks is the record of the state it leaves. -/
theorem loadStateChecksRecord : Obligations.LoadStateChecksRecord := by
  unfold Obligations.LoadStateChecksRecord
  intro src s l hr hl
  refine ⟨exec_loadState_short hr hl, fun hlen => ?_⟩
  by_cases h : ∃ m, readRecord s.cfg l src s.mapper = some m ∧ m.inv s.cfg = true
  · obtain ⟨m, hread, hinv⟩ := h
    exact .inr ⟨m, [], exec_loadState_next.2 ⟨hr, l, m, hl, hlen, hread, hinv, rfl⟩, hinv,
      recordBytes_of_readRecord (recordLayout_nodup hl) hread hlen, readRecord_callback hread,
      (ControlUpdate.loadState src hl hread hinv).idle⟩
  · exact .inl (exec_loadState_invalid hr hl hlen h)

/-! ### The round trip (R181 (b)) -/

/-- The byte a read of a banked window gives, by its target (R82); none where the read faults (R97). -/
def Target.bankedByte (c : Cfg) (m : Mapper) : Target → Option Byte
  | .rom x => romRead c x
  | .ram x => some (m.ramRead x)
  | .sentinel b => some b
  | .addressSpace _ | .register _ | .drop => none

/-- No read of the two banked windows goes to the AddressSpace (R80, R82). -/
theorem busTarget_banked_ne_addressSpace {v : Variant} (x : Nat)
    (h : 0x4000 ≤ a.toNat ∧ a.toNat ≤ 0x7FFF ∨ 0xA000 ≤ a.toNat ∧ a.toNat ≤ 0xBFFF) :
    busTarget v .read a m ≠ .addressSpace x := by
  cases busWindow v a with
  | fixed hhi | external hext => omega
  | switchable hlo hhi =>
    rw [busTarget_read_switchable hlo hhi]
    exact nofun
  | ram hlo hhi =>
    rw [busTarget_ram hlo hhi]
    split <;> exact nofun
  | nonAddressable hv hlo hhi =>
    rw [hv, busTarget_nonAddressable hlo hhi]
    exact nofun

/-- What a read of a banked window returns depends on the configuration and the mapper state alone. -/
theorem banked_read_iff (hr : s.Ready) (hinv : s.mapper.inv s.cfg = true)
    (hdec : decode s.cfg.variant (readWord a) {} = .ok i)
    (h : 0x4000 ≤ a.toNat ∧ a.toNat ≤ 0x7FFF ∨ 0xA000 ≤ a.toNat ∧ a.toNat ≤ 0xBFFF) :
    (∃ x, exec i s = .next x ∧ x.out.result = .byte b) ↔
      (busTarget s.cfg.variant .read a s.mapper).bankedByte s.cfg s.mapper = some b := by
  obtain ⟨j, hj, htarget⟩ := busReadFollowsTranslator a {} s hr hinv
  obtain rfl := Except.ok.inj (hj.symm.trans hdec)
  cases ht : busTarget s.cfg.variant .read a s.mapper with
  | addressSpace x => exact absurd ht (busTarget_banked_ne_addressSpace x h)
  | rom x =>
    simp only [ht] at htarget
    split at htarget
    next hx =>
      obtain ⟨ds, he⟩ := htarget
      simp [he, State.afterRead, Target.bankedByte, romRead, hx]
    next hx => simp [htarget, Target.bankedByte, romRead, hx]
  | ram x =>
    simp only [ht] at htarget
    obtain ⟨-, ds, he⟩ := htarget
    simp [he, State.afterRead, Target.bankedByte]
  | sentinel x =>
    simp only [ht] at htarget
    obtain ⟨ds, he⟩ := htarget
    simp [he, State.afterRead, Target.bankedByte]
  | register r => simp only [ht] at htarget
  | drop => simp only [ht] at htarget

theorem Target.bankedByte_setCallback (g : Target) (ob : Option Handle) :
    g.bankedByte c { m with ramChangedCallback := ob } = g.bankedByte c m := by
  cases g <;> rfl

theorem busTarget_setCallback (v : Variant) (ob : Option Handle) :
    busTarget v .read a { m with ramChangedCallback := ob } = busTarget v .read a m := rfl

/-- Machines of one configuration whose mappers differ in the observer alone return the same bytes from the banked windows. -/
theorem banked_read_congr {u : State} {ob : Option Handle} (hr : s.Ready) (hu : u.Ready) (hcfg : u.cfg = s.cfg)
    (hm : u.mapper = { s.mapper with ramChangedCallback := ob }) (hinv : s.mapper.inv s.cfg = true)
    (hdec : decode s.cfg.variant (readWord a) {} = .ok i)
    (h : 0x4000 ≤ a.toNat ∧ a.toNat ≤ 0x7FFF ∨ 0xA000 ≤ a.toNat ∧ a.toNat ≤ 0xBFFF) :
    (∃ x, exec i s = .next x ∧ x.out.result = .byte b) ↔ ∃ x, exec i u = .next x ∧ x.out.result = .byte b := by
  have hinv' : u.mapper.inv u.cfg = true := by
    rw [hcfg, hm]
    exact inv_congr hinv rfl rfl rfl rfl rfl rfl (inv_ramBuffer hinv)
  rw [banked_read_iff hr hinv hdec h, banked_read_iff hu hinv' (by rwa [hcfg]) h]
  simp only [hcfg, hm, busTarget_setCallback, Target.bankedByte_setCallback]

/-- Settles O53: LOAD_STATE puts back the saved state but for the observer (O51), and no read of a banked window looks at the observer
or at the AddressSpace. -/
theorem stateRoundTrip : Obligations.StateRoundTrip := by
  unfold Obligations.StateRoundTrip
  intro s s' hr hr' hcfg hfresh hinv hidle hint hbool hlayout
  obtain ⟨l, hl⟩ := Option.isSome_iff_exists.1 hlayout
  have hidle' : s'.mapper.mbc1FieldsIdle s.cfg := by
    rw [hfresh]
    exact fun _ => ⟨rfl, rfl, rfl, rfl⟩
  have hload := loadStateRestoresRecord s' s.mapper l [] hr'
  rw [hcfg] at hload
  obtain ⟨ds, hload⟩ := hload hl hint hbool hinv hidle hidle'
  rw [List.append_nil, hfresh] at hload
  exact ⟨_, recordBytes s.cfg l s.mapper, _, exec_saveState_next.2 ⟨hr, l, hl, rfl⟩, rfl, hload, rfl,
    fun a i hdec hwin b => banked_read_congr hr hr' hcfg rfl hinv hdec hwin⟩

end Sys2Proof.Machine
end

section
/-! PROOFS. The observer (R167) and the views (R176–R180). -/

namespace Sys2Proof.Machine

variable {s t : State} {i : Instr} {v : View} {j k : Nat} {a : Addr} {d : Byte}

/-- Settles O54: the new observer is the one that a later event names (O24). -/
theorem setCallback : Obligations.SetCallback := by
  unfold Obligations.SetCallback
  intro h s hr
  refine ⟨⟨_, exec_setCallback_next.2 ⟨hr, h, rfl, rfl⟩, ⟨[], rfl⟩, fun i u e hu he => ?_⟩, guarded_ready hr rfl⟩
  obtain hnil | ⟨h', hone⟩ := (ramChangedOnlyOnFallingEdge i _ u hu h).2
  · rw [hnil] at he
    cases he
  · obtain ⟨-, -, -, hreg⟩ := (ramChangedOnlyOnFallingEdge i _ u hu h').1.1 hone
    rw [hone] at he
    cases hreg
    exact List.mem_singleton.1 he

/-! ### The accessors (R176–R179) -/

/-- Settles O55: each accessor hands out its view. -/
theorem viewAccessors : Obligations.ViewAccessors := by
  unfold Obligations.ViewAccessors
  intro s hr
  refine ⟨⟨[], exec_viewBank0_next.2 ⟨hr, rfl⟩⟩, ⟨[], exec_viewRomx_next.2 ⟨hr, rfl⟩⟩, fun n hn => ⟨[], ?_⟩⟩
  have hn : n = ramSize s.cfg := hn
  subst hn
  exact exec_viewRamAll_next.2 ⟨hr, rfl⟩

/-- Settles O56: the three cases of VIEW_RAMX. -/
theorem switchableRamView : Obligations.SwitchableRamView := by
  unfold Obligations.SwitchableRamView
  intro s hr
  refine ⟨fun hv h0 => ⟨[], exec_viewRamx_next.2 ⟨hr, .inl ⟨hv, h0, rfl⟩⟩⟩, fun v hview => ⟨[], ?_⟩⟩
  obtain ⟨hv, h0, rfl⟩ | ⟨hv, rfl⟩ := hview
  · exact exec_viewRamx_next.2 ⟨hr, .inr (.inl ⟨hv, h0, rfl⟩)⟩
  · exact exec_viewRamx_next.2 ⟨hr, .inr (.inr ⟨hv, rfl⟩)⟩

/-! ### Access through a live view -/

theorem viewRead_live (h : s.liveViews[j]? = some v) : viewRead (s.viewsEnded + j) k s = viewByte v k s := by
  obtain ⟨hj, rfl⟩ := List.getElem?_eq_some_iff.1 h
  exact withView_live _ j hj

theorem viewWrite_live (h : s.liveViews[j]? = some v) : viewWrite (s.viewsEnded + j) k d s = setViewByte v k d s := by
  obtain ⟨hj, rfl⟩ := List.getElem?_eq_some_iff.1 h
  exact withView_live _ j hj

theorem View.shows.of_addressSpace {c : Cfg} {m : Mapper} (h : v.shows c m) (hsp : v.space = .addressSpace) :
    v = { space := .addressSpace, base := 0, length := 0x4000, readOnly := true } := by
  obtain rfl | rfl | ⟨-, -, rfl⟩ | rfl := h
  · rfl
  all_goals cases hsp

theorem View.shows.of_rom {c : Cfg} {m : Mapper} (h : v.shows c m) (hsp : v.space = .rom) :
    v = { space := .rom, base := m.currentRomByteOffset, length := 0x4000, readOnly := true } := by
  obtain rfl | rfl | ⟨-, -, rfl⟩ | rfl := h
  · cases hsp
  · rfl
  all_goals cases hsp

/-- W6 and W7 keep every byte of a live RAM view inside `ramBuffer` (R178, R179). -/
theorem View.shows.of_ram {c : Cfg} {m : Mapper} (h : v.shows c m) (hinv : m.inv c = true) (hsp : v.space = .ram)
    (hk : k < v.length) : v.base + k < ramSize c ∧ v.readOnly = false := by
  obtain rfl | rfl | ⟨hv, -, rfl⟩ | rfl := h
  · cases hsp
  · cases hsp
  · obtain ⟨-, -, -, -, -, ⟨w6, -⟩, w7, -⟩ := (inv_mbc1 hv).1 hinv
    rw [ramSize_mbc1 hv]
    exact ⟨by simp only at hk ⊢; omega, rfl⟩
  · exact ⟨by simpa using hk, rfl⟩

/-- R83: the ROM offset behind byte `k` of the switchable window. -/
theorem romIndex_of_toNat {m : Mapper} (ha : a.toNat = 0x4000 + k) : m.romIndex a = m.currentRomByteOffset + k := by
  unfold Mapper.romIndex romWindowOffset
  omega

/-- Settles O57: the view and the bus read the same byte of the AddressSpace, or the same offset of the image. -/
theorem viewsAgreeWithBusReads : Obligations.ViewsAgreeWithBusReads := by
  unfold Obligations.ViewsAgreeWithBusReads
  intro s j k v i hs hr hj hk
  have hshow := hs.viewsShow v (List.mem_of_getElem? hj)
  rw [viewRead_live hj]
  refine ⟨fun hsp hdec => ?_, fun hsp hdec => ?_⟩
  · have ha : (BitVec.ofNat 16 k).toNat = k := by
      rw [BitVec.toNat_ofNat]
      omega
    obtain rfl := Except.ok.inj ((decode_readWord _ _ _).symm.trans hdec)
    obtain rfl := hshow.of_addressSpace hsp
    rw [exec_read_fixed hr (by omega), delegatedRead, ha]
    simp [viewByte, hk]
  · have ha : (BitVec.ofNat 16 (0x4000 + k)).toNat = 0x4000 + k := by
      rw [BitVec.toNat_ofNat]
      omega
    obtain rfl := Except.ok.inj ((decode_readWord _ _ _).symm.trans hdec)
    obtain rfl := hshow.of_rom hsp
    rw [exec_read_switchable hr (by omega) (by omega), romIndex_of_toNat ha]
    simp [viewByte, hk]

/-- Settles O58: the byte lies inside the canonical buffer, and no gate or mask stands before it. -/
theorem ramViewsBypassTheGate : Obligations.RamViewsBypassTheGate := by
  unfold Obligations.RamViewsBypassTheGate
  intro s j k v x hs hr hj hsp hk
  have hinv := hs.mapperInv hr.1
  obtain ⟨inside, hro⟩ := (hs.viewsShow v (List.mem_of_getElem? hj)).of_ram hinv hsp hk
  rw [viewRead_live hj, viewWrite_live hj]
  refine ⟨?_, Memory.write .ram s.mapper.ramBuffer (v.base + k) x, ?_, fun y => Memory.read_write (inv_ramBuffer hinv)⟩
  · rw [viewByte, if_pos hk, hsp]
    exact ramByte_next.2 ⟨inside, rfl⟩
  · rw [setViewByte, if_pos hk, hsp, hro]
    exact setRamByte_next.2 ⟨inside, rfl⟩

/-! ### Which operations end the views (R180) -/

theorem isRead_of_readWord (h : encode i = readWord a) : Instr.isRead i := by
  have ha := a.isLt
  rw [Instr.isRead, h, readWord_eq]
  unfold bits
  omega

theorem bits_writeWord (h : encode i = writeWord a d) :
    Instr.isWrite i ∧ (bits 23 23 (encode i) = 0 ↔ a.toNat ≤ 0x7FFF) := by
  have ha := a.isLt
  have hd := d.isLt
  rw [Instr.isWrite, h, writeWord_eq]
  unfold bits
  omega

/-- R180 (a). -/
theorem endsViews_of_write (h : encode i = writeWord a d) (hhi : a.toNat ≤ 0x7FFF) : Instr.endsViews i :=
  .inl ⟨(bits_writeWord h).1, (bits_writeWord h).2.2 hhi⟩

/-- An operation that is no bus write below 0x8000 ends the views only under its own name. -/
theorem not_endsViews (hw : ¬ (Instr.isWrite i ∧ bits 23 23 (encode i) = 0))
    (hm : i.mnemonic ∉ ["RESET", "LOAD_STATE"]) : ¬ Instr.endsViews i := by
  rintro (h | h | h)
  · exact hw h
  · exact hm (by simp [h])
  · exact hm (by simp [h])

theorem not_endsViews_of_read (h : encode i = readWord a)
    (hm : i.mnemonic ∉ ["RESET", "LOAD_STATE"] := by simp [Instr.mnemonic]) : ¬ Instr.endsViews i :=
  not_endsViews (fun hw => by
    have hr : bits 25 24 (encode i) = 0 := isRead_of_readWord h
    rw [Instr.isWrite, hr] at hw
    exact absurd hw.1 (by decide)) hm

theorem not_endsViews_of_write (h : encode i = writeWord a d) (hlo : 0x8000 ≤ a.toNat)
    (hm : i.mnemonic ∉ ["RESET", "LOAD_STATE"] := by simp [Instr.mnemonic]) : ¬ Instr.endsViews i :=
  not_endsViews (fun hw => by have := (bits_writeWord h).2.1 hw.2; omega) hm

theorem not_endsViews_of_host {op : Nat} (h : encode i = hostWord op) (hop : op < 256)
    (hm : i.mnemonic ∉ ["RESET", "LOAD_STATE"] := by simp [Instr.mnemonic]) : ¬ Instr.endsViews i :=
  not_endsViews (fun hw => not_bus_of_hostWord hop h (.inr hw.1)) hm

/-- `ViewsAfter i s t`: what R180 says of the views when `i` takes `s` to `t`. -/
inductive ViewsAfter (i : Instr) (s t : State) : Prop
  | ended (hi : Instr.endsViews i) (hviews : t.liveViews = []) (hended : t.viewsEnded = s.viewsEnded + s.liveViews.length)
  | kept (hi : ¬ Instr.endsViews i) (hviews : t.liveViews = s.liveViews) (hended : t.viewsEnded = s.viewsEnded)
  | handedOut (hi : ¬ Instr.endsViews i) (v : View) (hviews : t.liveViews = s.liveViews ++ [v])
    (hended : t.viewsEnded = s.viewsEnded)

/-- R42, R180 (a): whatever register it names, a bus write below 0x8000 that completes ends the views. -/
theorem control_write_next (h : exec i s = .next t) (henc : encode i = writeWord a d) (hhi : a.toNat ≤ 0x7FFF) :
    ∃ m o, t = s.afterControl m o := by
  have hi : decodeWrite s.cfg.variant a d = i := by
    have hround := decodeEncodeRoundTrip _ _ (exec_next_ready h).2
    rw [henc, decode_writeWord] at hround
    exact Except.ok.inj hround
  obtain ⟨r, hreg⟩ := exists_registerAt s.cfg.variant hhi
  obtain ⟨m, es, ds, he, -⟩ := exec_write_register d (exec_next_ready h).1 hreg
  rw [hi, h] at he
  exact ⟨m, _, Host.Outcome.next.inj he⟩

theorem ViewsAfter.of_control_write (h : exec i s = .next t) (henc : encode i = writeWord a d) (hhi : a.toNat ≤ 0x7FFF) :
    ViewsAfter i s t := by
  obtain ⟨m, o, rfl⟩ := control_write_next h henc hhi
  exact .ended (endsViews_of_write henc hhi) rfl rfl

/-- R180, row by row: the views end, stay, or stay with one more behind them. -/
theorem exec_viewsAfter (h : exec i s = .next t) : ViewsAfter i s t := by
  have hw := (exec_next_ready h).2
  cases i with
  | mbc1RdRom0 a | mbc1RdRomx a | mbc1RdExt8000 a | mbc1RdRam a | mbc1RdExtC000 a
  | mbc2RdRom0 a | mbc2RdRomx a | mbc2RdExt8000 a | mbc2RdRam a | mbc2RdRamNa a | mbc2RdExtC000 a =>
    obtain ⟨o, rfl⟩ := read_next (isRead_of_readWord rfl) h
    exact .kept (not_endsViews_of_read rfl) rfl rfl
  | mbc1WrRamen a d | mbc2WrRamen a d | mbc2WrRomselAlias a d =>
    obtain ⟨-, -, hhi, -⟩ := row_even_iff.1 hw
    exact .of_control_write h rfl (by omega)
  | mbc1WrRamenAlias a d | mbc2WrRamenAlias a d | mbc2WrRomsel a d =>
    obtain ⟨-, -, hhi, -⟩ := row_odd_iff.1 hw
    exact .of_control_write h rfl (by omega)
  | mbc1WrRomlo a d | mbc1WrBankhi a d | mbc1WrMode a d | mbc2WrRomRej a d =>
    obtain ⟨-, -, hhi⟩ := row_iff.1 hw
    exact .of_control_write h rfl (by omega)
  | mbc1WrExt8000 a d =>
    obtain ⟨-, hlo, -⟩ := row_iff.1 hw
    obtain ⟨-, -, rfl⟩ := exec_mbc1WrExt8000_next.1 h
    exact .kept (not_endsViews_of_write rfl (by omega)) rfl rfl
  | mbc1WrRam a d =>
    obtain ⟨-, hlo, -⟩ := row_iff.1 hw
    obtain ⟨-, -, ⟨-, rfl⟩ | ⟨-, -, rfl⟩⟩ := exec_mbc1WrRam_next.1 h <;>
      exact .kept (not_endsViews_of_write rfl (by omega)) rfl rfl
  | mbc1WrExtC000 a d =>
    obtain ⟨-, hlo, -⟩ := row_iff.1 hw
    obtain ⟨-, -, rfl⟩ := exec_mbc1WrExtC000_next.1 h
    exact .kept (not_endsViews_of_write rfl (by omega)) rfl rfl
  | mbc2WrExt8000 a d =>
    obtain ⟨-, hlo, -⟩ := row_iff.1 hw
    obtain ⟨-, -, rfl⟩ := exec_mbc2WrExt8000_next.1 h
    exact .kept (not_endsViews_of_write rfl (by omega)) rfl rfl
  | mbc2WrRam a d =>
    obtain ⟨-, hlo, -⟩ := row_iff.1 hw
    obtain ⟨-, -, ⟨-, rfl⟩ | ⟨-, -, rfl⟩⟩ := exec_mbc2WrRam_next.1 h <;>
      exact .kept (not_endsViews_of_write rfl (by omega)) rfl rfl
  | mbc2WrRamNa a d =>
    obtain ⟨-, hlo, -⟩ := row_iff.1 hw
    obtain ⟨-, -, rfl⟩ := exec_mbc2WrRamNa_next.1 h
    exact .kept (not_endsViews_of_write rfl (by omega)) rfl rfl
  | mbc2WrExtC000 a d =>
    obtain ⟨-, hlo, -⟩ := row_iff.1 hw
    obtain ⟨-, -, rfl⟩ := exec_mbc2WrExtC000_next.1 h
    exact .kept (not_endsViews_of_write rfl (by omega)) rfl rfl
  | reset b => obtain ⟨-, -, rfl⟩ := exec_reset_next.1 h; exact .ended (.inr (.inl rfl)) rfl rfl
  | loadState st => obtain ⟨-, l, m, -, -, -, -, rfl⟩ := exec_loadState_next.1 h; exact .ended (.inr (.inr rfl)) rfl rfl
  | saveBattery st =>
    obtain ⟨-, rfl⟩ := exec_saveBattery_next.1 h
    exact .kept (not_endsViews_of_host rfl (by decide)) rfl rfl
  | loadBattery st n =>
    obtain ⟨o, rfl⟩ | ⟨bs, o, -, rfl⟩ := loadBattery_next (exec_loadBattery_next.1 h).2 <;>
      exact .kept (not_endsViews_of_host rfl (by decide)) rfl rfl
  | saveState st =>
    obtain ⟨-, l, -, rfl⟩ := exec_saveState_next.1 h
    exact .kept (not_endsViews_of_host rfl (by decide)) rfl rfl
  | setCallback ob =>
    obtain ⟨-, hd, -, rfl⟩ := exec_setCallback_next.1 h
    exact .kept (not_endsViews_of_host rfl (by decide)) rfl rfl
  | viewBank0 =>
    obtain ⟨-, rfl⟩ := exec_viewBank0_next.1 h
    exact .handedOut (not_endsViews_of_host rfl (by decide)) _ rfl rfl
  | viewRomx =>
    obtain ⟨-, rfl⟩ := exec_viewRomx_next.1 h
    exact .handedOut (not_endsViews_of_host rfl (by decide)) _ rfl rfl
  | viewRamx =>
    have hni : ¬ Instr.endsViews .viewRamx := not_endsViews_of_host rfl (by decide)
    obtain ⟨-, ⟨-, -, rfl⟩ | ⟨-, -, rfl⟩ | ⟨-, rfl⟩⟩ := exec_viewRamx_next.1 h
    · exact .kept hni rfl rfl
    · exact .handedOut hni _ rfl rfl
    · exact .handedOut hni _ rfl rfl
  | viewRamAll =>
    obtain ⟨-, rfl⟩ := exec_viewRamAll_next.1 h
    exact .handedOut (not_endsViews_of_host rfl (by decide)) _ rfl rfl

/-- Settles O59: a handle below `viewsEnded` is stale; kept views stand where they stood. -/
theorem viewsEndExactlyThen : Obligations.ViewsEndExactlyThen := by
  unfold Obligations.ViewsEndExactlyThen
  intro i s t h
  cases exec_viewsAfter h with
  | ended hi hviews hended =>
    exact ⟨fun _ n hn => ⟨fun k => withView_stale _ (hended ▸ hn), fun k x => withView_stale _ (hended ▸ hn)⟩,
      fun hni => absurd hi hni⟩
  | kept hi hviews hended => exact ⟨fun hei => absurd hei hi, fun _ => ⟨hended, fun j v hj => hviews ▸ hj⟩⟩
  | handedOut hi w hviews hended =>
    refine ⟨fun hei => absurd hei hi, fun _ => ⟨hended, fun j v hj => ?_⟩⟩
    rw [hviews, List.getElem?_append_left (List.getElem?_eq_some_iff.1 hj).1]
    exact hj

end Sys2Proof.Machine
end

section
/-! PROOFS. The control registers and the banks they select (R222–R227, R230, R231), the writes below 0x8000 that are ignored or
rejected (R224, R271, R273, R274), and the switchable ROM window (R227, R275). -/

namespace Sys2Proof.Machine

variable {c : Cfg} {s t : State} {i : Instr} {ops : List Instr} {v : Variant} {a : Addr} {d : Byte} {l h n : Nat}

/-! ### The ROM index (R222, R231) -/

/-- R222: the combined number is one of the four that are promoted exactly where its low five bits are 0. -/
theorem mbc1RomIndex_eq_mod (hc : c.wf = true) (hl : l < 32) (hh : h < 4) :
    mbc1RomIndex c l h = (if l = 0 then 32 * h + 1 else 32 * h + l) % c.romBankCount := by
  have promoted : (32 * h + l = 0 ∨ 32 * h + l = 32 ∨ 32 * h + l = 64 ∨ 32 * h + l = 96) ↔ l = 0 := by omega
  simp only [mbc1RomIndex_eq hc hl, promoted]
  by_cases h0 : l = 0 <;> simp [h0]

/-- Settles O26: the index in plain numbers, its bound, and `SetRom`. -/
theorem mbc1RomIndexPromotesThenMasks : Obligations.Mbc1RomIndexPromotesThenMasks := by
  unfold Obligations.Mbc1RomIndexPromotesThenMasks
  refine ⟨fun c l h hc hl hh => ⟨mbc1RomIndex_eq_mod hc hl hh, (mbc1RomIndex_le hc hl hh).1⟩, fun m x => ?_⟩
  rw [Mapper.setRom, Nat.mul_comm]

/-- Settles O27: 128 banks mask nothing away, so the index is the promoted number, whose low five bits are not 0. -/
theorem mbc1Capacity : Obligations.Mbc1Capacity := by
  unfold Obligations.Mbc1Capacity
  intro n _
  simp only [List.mem_range]
  have index {l h : Nat} (hl : l < 32) (hh : h < 4) :
      mbc1RomIndex resetCfg l h = if l = 0 then 32 * h + 1 else 32 * h + l := by
    rw [mbc1RomIndex_eq_mod (by decide) hl hh]
    exact Nat.mod_eq_of_lt (show _ < 128 by split <;> omega)
  constructor
  · rintro ⟨l, hl, h, hh, rfl⟩
    rw [index hl hh]
    split <;> omega
  · intro hn
    refine ⟨n % 32, by omega, n / 32, by omega, ?_⟩
    rw [index (by omega) (by omega), if_neg (by omega)]
    omega

/-! ### The writes to 0x0000–0x7FFF -/

/-- The row that a write address selects under the live variant: its word decodes to it, and its guard lets it through. -/
theorem write_row (o : HostOperands) (hv : s.cfg.variant = v) (hrow : decodeWrite v a d = i) :
    decode v (writeWord a d) o = .ok i ∧ i.wf s.cfg.variant = true := by
  subst hv hrow
  exact ⟨decode_writeWord _ a d o, (decodeWrite_spec _ a d).1⟩

/-- Settles O25: the four rows decode in their windows and keep the mapper state they find. -/
theorem ignoredControlWrites : Obligations.IgnoredControlWrites := by
  unfold Obligations.IgnoredControlWrites
  intro a d o s hr
  refine ⟨fun hv hhi h8 => ?_, fun hv hhi h8 => ?_, fun hv hlo hhi h8 => ?_, fun hv hlo hhi => ?_⟩
  · obtain ⟨hdec, hw⟩ := write_row o hv (decodeWrite_mbc1WrRamenAlias (d := d) hhi h8)
    exact ⟨hdec, _, exec_mbc1WrRamenAlias_next.2 ⟨hr, hw, rfl⟩⟩
  · obtain ⟨hdec, hw⟩ := write_row o hv (decodeWrite_mbc2WrRamenAlias (d := d) hhi h8)
    exact ⟨hdec, _, exec_mbc2WrRamenAlias_next.2 ⟨hr, hw, rfl⟩⟩
  · obtain ⟨hdec, hw⟩ := write_row o hv (decodeWrite_mbc2WrRomselAlias (d := d) hlo hhi h8)
    exact ⟨hdec, _, exec_mbc2WrRomselAlias_next.2 ⟨hr, hw, rfl⟩⟩
  · obtain ⟨hdec, hw⟩ := write_row o hv (decodeWrite_mbc2WrRomRej (d := d) hlo hhi)
    exact ⟨hdec, _, exec_mbc2WrRomRej_next.2 ⟨hr, hw, rfl⟩⟩

/-- Settles O28: the row decodes in its window and selects from `v[4:0]` and the high bits that the mode lets through. -/
theorem mbc1LowRomBankSelect : Obligations.Mbc1LowRomBankSelect := by
  unfold Obligations.Mbc1LowRomBankSelect
  intro a d o s hr hv hlo hhi
  obtain ⟨hdec, hw⟩ := write_row o hv (decodeWrite_mbc1WrRomlo (d := d) hlo hhi)
  exact ⟨hdec, _, exec_mbc1WrRomlo_next.2 ⟨hr, hw, by rw [lowFive_eq]⟩⟩

/-- Settles O29: the row decodes in its window; mode 1 selects the RAM bank, any other mode the high ROM bits. -/
theorem mbc1BankHighWrite : Obligations.Mbc1BankHighWrite := by
  unfold Obligations.Mbc1BankHighWrite
  intro a d o s hr hv hlo hhi
  obtain ⟨hdec, hw⟩ := write_row o hv (decodeWrite_mbc1WrBankhi (d := d) hlo hhi)
  have he := exec_mbc1WrBankhi_next.2 ⟨hr, hw, rfl⟩
  have low5 : s.mapper.currentRomBankIndex &&& 0x1F = s.mapper.currentRomBankIndex % 32 :=
    Nat.and_two_pow_sub_one_eq_mod _ 5
  rw [mbc1RamBank, lowTwo_eq, low5] at he
  refine ⟨hdec, fun hm => ?_, fun hm => ?_⟩
  · rw [if_pos hm] at he
    exact ⟨_, he⟩
  · rw [if_neg hm] at he
    exact ⟨_, he⟩

/-- Settles O30: the row decodes in its window; a mode that is not accepted (R226) leaves the mapper state. -/
theorem mbc1ModeSelect : Obligations.Mbc1ModeSelect := by
  unfold Obligations.Mbc1ModeSelect
  intro a d o s hr hv hlo hhi
  obtain ⟨hdec, hw⟩ := write_row o hv (decodeWrite_mbc1WrMode (d := d) hlo hhi)
  have he := exec_mbc1WrMode_next.2 ⟨hr, hw, rfl⟩
  rw [modeBit_eq] at he
  have accepted : modeAccepted s.cfg (d.toNat % 2) = true ↔ ¬(d.toNat % 2 = 1 ∧ s.cfg.ramSizeClass ≠ 3) := by
    rw [modeAccepted_iff, not_and, not_not]
  refine ⟨hdec, ?_⟩
  by_cases rejected : d.toNat % 2 = 1 ∧ s.cfg.ramSizeClass ≠ 3
  · rw [if_neg fun hacc => accepted.1 hacc rejected] at he
    rw [if_pos rejected]
    exact ⟨_, he⟩
  · rw [if_pos (accepted.2 rejected)] at he
    rw [if_neg rejected]
    exact ⟨_, he⟩

/-! ### The mode switch (R230) -/

theorem runOps_cons :
    runOps (i :: ops) s = some t ↔ ∃ u, exec i s = .next u ∧ runOps ops u = some t := by
  rw [runOps]
  cases exec i s <;> simp

theorem runOps_ready (hr : s.Ready) (hrun : runOps ops s = some t) : t.Ready ∧ t.cfg = s.cfg := by
  induction ops generalizing s with
  | nil => cases hrun; exact ⟨hr, rfl⟩
  | cons i ops ih =>
    obtain ⟨u, he, hrest⟩ := runOps_cons.1 hrun
    have eff := exec_effect he
    have hu : u.Ready := ⟨eff.live_eq.trans hr.1, eff.cfg_eq ▸ hr.2⟩
    obtain ⟨ht, hcfg⟩ := ih hu hrest
    exact ⟨ht, hcfg.trans eff.cfg_eq⟩

/-- The high bits last written outside mode 1 once `i` has run on mapper state `m`, if they were `h` before. -/
def Instr.highBits (m : Mapper) (h : Nat) : Instr → Nat
  | .mbc1WrBankhi _ v => if m.bankingMode = 1 then h else v.toNat % 4
  | _ => h

theorem lastHighBits_cons (he : exec i s = .next t) :
    lastHighBits h (i :: ops) s = lastHighBits (Instr.highBits s.mapper h i) ops t := by
  rw [lastHighBits.eq_def]
  simp only [he]
  rfl

/-- A bus operation leaves the high bits last written outside mode 1: only `MBC1.WR_BANKHI` writes them (O16). -/
theorem exec_higherRomBankBits (hbus : Instr.isRead i ∨ Instr.isWrite i) (he : exec i s = .next t) :
    t.mapper.higherRomBankBits = Instr.highBits s.mapper s.mapper.higherRomBankBits i := by
  have writers (hne : t.mapper.higherRomBankBits ≠ s.mapper.higherRomBankBits) :
      i.mnemonic ∈ ["MBC1.WR_BANKHI", "RESET", "LOAD_STATE"] := by
    obtain ⟨-, -, -, hbank, -⟩ := mapperFieldWriters i s t he
    exact hbank (.inr (.inr hne))
  cases i with
  | mbc1WrBankhi a d =>
    obtain ⟨-, -, rfl⟩ := exec_mbc1WrBankhi_next.1 he
    by_cases hm : s.mapper.bankingMode = 1 <;> simp [State.afterControl, Instr.highBits, hm, lowTwo_eq]
  | reset | loadState => exact absurd hbus (not_bus_of_hostWord (by decide) rfl)
  | _ => exact by_contra fun hne => absurd (writers hne) (by simp [Instr.mnemonic])

theorem runOps_higherRomBankBits (hbus : ∀ i ∈ ops, Instr.isRead i ∨ Instr.isWrite i) (hrun : runOps ops s = some t) :
    t.mapper.higherRomBankBits = lastHighBits s.mapper.higherRomBankBits ops s := by
  induction ops generalizing s with
  | nil => cases hrun; rfl
  | cons i ops ih =>
    obtain ⟨u, he, hrest⟩ := runOps_cons.1 hrun
    rw [lastHighBits_cons he, ← exec_higherRomBankBits (hbus i List.mem_cons_self) he]
    exact ih (fun j hj => hbus j (List.mem_cons_of_mem i hj)) hrest

/-- Settles O31: the cached bits are those last written outside mode 1, and a low select in mode 0 uses them (O28). -/
theorem mbc1ModeSwitchLaw : Obligations.Mbc1ModeSwitchLaw := by
  unfold Obligations.Mbc1ModeSwitchLaw
  intro ops s t a d hr hv hbus hrun hmode hlo hhi
  obtain ⟨ht, hcfg⟩ := runOps_ready hr hrun
  obtain ⟨-, ds, he⟩ := mbc1LowRomBankSelect a d {} t ht (hcfg ▸ hv) hlo hhi
  rw [if_pos hmode, runOps_higherRomBankBits hbus hrun, hcfg] at he
  exact ⟨_, he, rfl⟩

/-! ### The switchable ROM window (R227, R275) -/

/-- A row of the switchable window: its word decodes to it, and it answers the image's byte or faults at the offset of R83. -/
theorem switchableRead_row (o : HostOperands) (hr : s.Ready) (hlo : 0x4000 ≤ a.toNat) (hhi : a.toNat ≤ 0x7FFF)
    (hv : s.cfg.variant = v) (hrow : decodeRead v a = i) (hn : a.toNat - 0x4000 + s.mapper.currentRomByteOffset = n) :
    decode v (readWord a) o = .ok i ∧
      (n < s.cfg.romLen → ∃ ds, exec i s = .next (s.afterRead (Memory.read .rom s.cfg.rom n) ds)) ∧
      (s.cfg.romLen ≤ n → exec i s = .fault (.romOutOfRange n)) := by
  subst hv hrow hn
  have he := exec_read_switchable hr hlo hhi
  rw [romByte_eq] at he
  exact ⟨decode_readWord _ a o, fun inside => ⟨[], he.trans (if_pos inside)⟩, fun beyond => he.trans (if_neg (not_lt.2 beyond))⟩

/-- Settles O32: the window's row of either variant. -/
theorem switchableRomReads : Obligations.SwitchableRomReads := by
  unfold Obligations.SwitchableRomReads
  intro a o s hr hlo hhi
  exact ⟨fun hv => switchableRead_row o hr hlo hhi hv (decodeRead_mbc1RdRomx hlo hhi) rfl,
    fun hv => switchableRead_row o hr hlo hhi hv (decodeRead_mbc2RdRomx hlo hhi) rfl⟩

end Sys2Proof.Machine
end

section
/-! PROOFS. The MBC2 ROM select (R272) and the MBC2 bus above the RAM cells (R278–R280). -/

namespace Sys2Proof.Machine

/-- Settles O35: the row decodes in its window and selects the promoted low nibble, masked to a bank count that is a power of two. -/
theorem mbc2RomSelect : Obligations.Mbc2RomSelect := by
  unfold Obligations.Mbc2RomSelect
  intro a v o s hr hv hlo hhi h8
  obtain ⟨hdec, hw⟩ := write_row o hv (decodeWrite_mbc2WrRomsel (d := v) hlo hhi h8)
  exact ⟨hdec, mbc2RomIndex s.cfg v, _, mbc2RomIndex_eq hr.2, (mbc2RomIndex_le hr.2).1, exec_mbc2WrRomsel_next.2 ⟨hr, hw, rfl⟩⟩

/-- Settles O38: neither row of the window looks at `ramEnabled`. -/
theorem mbc2NonAddressableAccesses : Obligations.Mbc2NonAddressableAccesses := by
  unfold Obligations.Mbc2NonAddressableAccesses
  intro a v o s hr hv hlo hhi
  obtain ⟨hread, hwrite⟩ := exec_nonAddressable (d := v) hr hv hlo hhi
  exact ⟨decode_of_decodeRead o (decodeRead_mbc2RdRamNa hlo hhi), decode_of_decodeWrite o (decodeWrite_mbc2WrRamNa hlo hhi),
    ⟨_, hread⟩, ⟨_, hwrite⟩⟩

end Sys2Proof.Machine
end

section
/-! PROOFS. The power cycle (R324) and overlapping operations (R93, R321). -/

namespace Sys2Proof.Machine

/-- For an operation that the live variant has, the row's check drops out and the guard is `guardedLive`, whether or not the instance
is ready. -/
theorem guarded_of_wf {i : Instr} {s : State} {k : Outcome} (hi : i.wf s.cfg.variant = true) : guarded i s k = guardedLive s k := by
  simp [guarded, hi]

/-- R324 (D19): RESET is an operation of both variants, so its guard refuses no state that a power cycle accepts. -/
theorem powerCycle_eq_exec_reset (b : Bool) (s : State) : powerCycle s = exec (.reset b) s := by
  have hwf : Instr.wf s.cfg.variant (.reset b) = true := rfl
  exact (guarded_of_wf hwf).symm

/-- Settles O41: the head of the queue is served, a power cycle as RESET and overlapping operations by the refusal (R93). -/
theorem powerCycleAndOverlap : Obligations.PowerCycleAndOverlap := by
  unfold Obligations.PowerCycleAndOverlap
  refine ⟨fun b s rest hin => ?_, fun x y s rest hin => ?_⟩
  · rw [step_of_input_cons hin]
    exact powerCycle_eq_exec_reset b { s with input := rest }
  · rw [step_of_input_cons hin]
    rfl

end Sys2Proof.Machine
end

section
/-! PROOFS. RESET (R341, R342): the one state a ready machine is in after it. -/

namespace Sys2Proof.Machine

variable {s : State}

theorem exec_reset_of_ready (b : Bool) (hr : s.Ready) :
    exec (.reset b) s = .next (s.afterControl (s.mapper.softReset s.cfg.variant) {}) :=
  exec_reset_next.2 ⟨hr, rfl, rfl⟩

/-- RESET sets its fields to constants (R341), so on either variant a second one finds nothing to change. -/
@[simp] theorem Mapper.softReset_softReset (v : Variant) (m : Mapper) : (m.softReset v).softReset v = m.softReset v := by
  cases v <;> rfl

@[simp] theorem State.afterControl_cfg (s : State) (m : Mapper) (o : Output) : (s.afterControl m o).cfg = s.cfg := rfl
@[simp] theorem State.afterControl_mapper (s : State) (m : Mapper) (o : Output) : (s.afterControl m o).mapper = m := rfl

/-- The second of two operations that end the views finds none to end, and replaces what the first left (R180). -/
@[simp] theorem State.afterControl_afterControl (s : State) (m m' : Mapper) (o o' : Output) :
    (s.afterControl m o).afterControl m' o' = s.afterControl m' o' := rfl

/-- Ending the views (R180) leaves the instance and its configuration. -/
theorem State.Ready.afterControl (hr : s.Ready) (m : Mapper) (o : Output) : (s.afterControl m o).Ready := hr

/-- Settles O40: the first RESET leaves a ready machine, whose mapper state a RESET leaves as it is. -/
theorem resetIsIdempotent : Obligations.ResetIsIdempotent := by
  unfold Obligations.ResetIsIdempotent
  intro b b' s hr
  refine ⟨_, exec_reset_of_ready b hr, ?_⟩
  rw [exec_reset_of_ready b' (hr.afterControl _ _), State.afterControl_afterControl, State.afterControl_cfg,
    State.afterControl_mapper, Mapper.softReset_softReset]

end Sys2Proof.Machine

/-! `Sys2Proof.Machine.softReset` is the operation itself, so the theorem of that name stands one namespace further out. -/

namespace Sys2Proof

open Sys2Proof.Machine

/-- Settles O39: the values of RESET, written out for each variant; it logs nothing. -/
theorem softReset : Obligations.SoftReset := by
  unfold Obligations.SoftReset
  intro b s hr
  refine ⟨fun hv => ⟨[], ?_⟩, fun hv => ⟨[], ?_⟩⟩
  · rw [exec_reset_of_ready b hr, hv]
    rfl
  · rw [exec_reset_of_ready b hr, hv]
    rfl

end Sys2Proof
end

section
/-! PROOFS. The life of the instance (R30, R340, R343): construction, destruction and what is left after it. -/

namespace Sys2Proof.Machine

variable {s : State} {c : Cfg}

/-! ### What needs an instance, and what needs none -/

theorem guarded_of_not_live {i : Instr} {k : Outcome} (h : s.live = false) : guarded i s k = .refused .noInstance := by
  simp [guarded, guardedLive, h]

/-- R343: every arm of the table stands behind the guard. -/
theorem exec_of_not_live (i : Instr) (h : s.live = false) : exec i s = .refused .noInstance := by
  cases i <;> exact guarded_of_not_live h

theorem powerCycle_of_not_live (h : s.live = false) : powerCycle s = .refused .noInstance :=
  (powerCycle_eq_exec_reset false s).trans (exec_of_not_live _ h)

theorem destroy_of_not_live (h : s.live = false) : destroy s = .refused .noInstance := by
  simp [destroy, h]

theorem construct_of_live (h : s.live = true) : construct c s = .refused .alreadyLive := by
  simp [construct, h]

theorem construct_of_not_wf (h : s.live = false) (hc : c.wf = false) : construct c s = .refused .illFormedConfig := by
  simp [construct, h, hc]

/-! ### The two requests -/

/-- D23 (log 35): construction leaves the banking values of RESET, on an MBC2 too (log 24). -/
@[simp] theorem Mapper.softReset_constructed (v : Variant) : Mapper.constructed.softReset v = .constructed := by
  cases v <;> rfl

/-- Settles O42: `construct_next` gives the fresh machine, whose buffer lists no byte, and RESET keeps its mapper state. -/
theorem construction : Obligations.Construction := by
  unfold Obligations.Construction
  intro c s rest hin hl
  rw [step_of_input_cons hin]
  refine ⟨fun hc => construct_of_not_wf hl hc, fun hc => ?_⟩
  refine ⟨_, Mapper.constructed.ramBuffer, [], construct_next.2 ⟨hl, hc, rfl⟩, rfl, fun x => Memory.read_nil, ?_⟩
  exact ⟨_, exec_reset_of_ready false ⟨rfl, hc⟩, Mapper.softReset_constructed c.variant⟩

/-- Settles O43: the state after destruction has no instance, and its `viewsEnded` counts every view handed out before (R180). -/
theorem lifeOfTheInstance : Obligations.LifeOfTheInstance := by
  unfold Obligations.LifeOfTheInstance
  refine ⟨fun s hl => ?_, fun c s hl => construct_of_live hl⟩
  refine ⟨_, [], destroy_next.2 ⟨hl, rfl⟩, rfl, fun i => exec_of_not_live i rfl, powerCycle_of_not_live rfl,
    destroy_of_not_live rfl, fun h hh => ⟨fun k => ?_, fun k x => ?_⟩⟩
  · exact withView_stale _ hh
  · exact withView_stale _ hh

end Sys2Proof.Machine
end
